-- ==== Sys2Proof/Word.lean ====
section
/-! DEFINITION. The words of the HCB (Huffman codec block): widths fixed by spec/00_scope.md R7 and R10. -/

namespace Sys2Proof

/-- A register, a command word, a bus transfer: BUS_W = 32 bits (00_scope.md R7). -/
abbrev Word := BitVec 32

/-- A payload byte. -/
abbrev Byte := BitVec 8

/-- A symbol field: SYM_W = 21 bits (00_scope.md R7, R10). Not every value is a Unicode scalar value. -/
abbrev Sym := BitVec 21

/-- A frequency count: FREQ_W = 64 bits (00_scope.md R7). -/
abbrev Count := BitVec 64

/-- The value of a code, `val` of the pair (len, val) (00_scope.md R13). -/
abbrev CodeVal := BitVec 64

end Sys2Proof
end

