-- ==== Sys2Proof/Syntax.lean ====
section
/-! DEFINITION. The 19 commands of the block (spec/30_encoding.md R108), one constructor per row of
spec/opcode_table.json, with the operands that stand in the command word. -/

namespace Sys2Proof

/-- A decoded command. Formats N (no operand), S (a symbol field), I (an index), B (a byte), T (a byte and a tail
count) are those of 30_encoding.md R102 to R106. The operands taken from ARG and ARG2 are in the latched command, not
here (R107). -/
inductive Instr where
  /-- NOP, format N (45_control.md R211) -/
  | nop
  /-- ERR_CLR, format N (45_control.md R212) -/
  | errClr
  /-- FT_CLEAR, format N (40_tree_builder.md R127) -/
  | ftClear
  /-- FT_INC s, format S (40_tree_builder.md R128) -/
  | ftInc (sym : Sym)
  /-- FT_SET s, format S (40_tree_builder.md R129) -/
  | ftSet (sym : Sym)
  /-- FT_READ s, format S (40_tree_builder.md R130) -/
  | ftRead (sym : Sym)
  /-- BUILD_TREE, format N (40_tree_builder.md R135) -/
  | buildTree
  /-- NODE_READ i, format I (40_tree_builder.md R138) -/
  | nodeRead (idx : BitVec 24)
  /-- GEN_TABLE, format N (41_code_table.md R147) -/
  | genTable
  /-- CT_READ i, format I (41_code_table.md R151) -/
  | ctRead (idx : BitVec 24)
  /-- ENC_SYMBOL s, format S (42_encoder.md R160) -/
  | encSymbol (sym : Sym)
  /-- ENC_FLUSH, format N (42_encoder.md R162) -/
  | encFlush
  /-- DT_CLEAR, format N (44_decoder.md R180) -/
  | dtClear
  /-- DT_LOAD s, format S (44_decoder.md R181) -/
  | dtLoad (sym : Sym)
  /-- DT_COMMIT, format N (44_decoder.md R182) -/
  | dtCommit
  /-- DT_FROM_CT, format N (44_decoder.md R183) -/
  | dtFromCt
  /-- DEC_BYTE b, format B (44_decoder.md R190) -/
  | decByte (byte : Byte)
  /-- DEC_LAST b, t, format T (44_decoder.md R193) -/
  | decLast (byte : Byte) (tailn : BitVec 4)
  /-- DEC_END, format N (44_decoder.md R194) -/
  | decEnd
  deriving DecidableEq, Repr

end Sys2Proof
end

