-- ==== Sys2Proof/Decode.lean ====
section
/-! DEFINITION. From a command word to a command (spec/30_encoding.md R101 to R110), total, and back (R116). -/

namespace Sys2Proof

/-- Why a word is `Illegal` (30_encoding.md R109). Either way the command raises ILLEGAL_CMD. -/
inductive Illegal where
  /-- the opcode field is not in the table of R108 -/
  | reservedOpcode
  /-- the opcode is defined and a bit that must be 0 is not -/
  | nonzeroMustBeZero
  deriving DecidableEq, Repr

/-- OPC = w[31:24] (R101). -/
def opcField (w : Word) : BitVec 8 := w.extractLsb' 24 8

/-- OPND = w[23:0], which format I takes whole (R101, R104). -/
def opndField (w : Word) : BitVec 24 := w.extractLsb' 0 24

/-- Format N: OPND must be 0 (R102). -/
def formatN (w : Word) (i : Instr) : Except Illegal Instr :=
  if w.extractLsb' 0 24 = 0#24 then .ok i else .error .nonzeroMustBeZero

/-- Format S: w[23:21] must be 0, SYM = w[20:0] (R103). -/
def formatS (w : Word) (mk : Sym → Instr) : Except Illegal Instr :=
  if w.extractLsb' 21 3 = 0#3 then .ok (mk (w.extractLsb' 0 21)) else .error .nonzeroMustBeZero

/-- Format I: IDX = w[23:0] (R104). -/
def formatI (w : Word) (mk : BitVec 24 → Instr) : Except Illegal Instr :=
  .ok (mk (opndField w))

/-- Format B: w[23:8] must be 0, BYTE = w[7:0] (R105). -/
def formatB (w : Word) (mk : Byte → Instr) : Except Illegal Instr :=
  if w.extractLsb' 8 16 = 0#16 then .ok (mk (w.extractLsb' 0 8)) else .error .nonzeroMustBeZero

/-- Format T: w[23:12] must be 0, TAILN = w[11:8], BYTE = w[7:0] (R106). -/
def formatT (w : Word) (mk : Byte → BitVec 4 → Instr) : Except Illegal Instr :=
  if w.extractLsb' 12 12 = 0#12 then .ok (mk (w.extractLsb' 0 8) (w.extractLsb' 8 4))
  else .error .nonzeroMustBeZero

/-- `decode(w)`, total over every 32-bit word (R108, R110). It reads the word alone, never the block's state. -/
def decode (w : Word) : Except Illegal Instr :=
  match opcField w with
  | 0x00#8 => formatN w .nop
  | 0x01#8 => formatN w .errClr
  | 0x10#8 => formatN w .ftClear
  | 0x11#8 => formatS w .ftInc
  | 0x12#8 => formatS w .ftSet
  | 0x13#8 => formatS w .ftRead
  | 0x20#8 => formatN w .buildTree
  | 0x21#8 => formatI w .nodeRead
  | 0x22#8 => formatN w .genTable
  | 0x23#8 => formatI w .ctRead
  | 0x30#8 => formatS w .encSymbol
  | 0x31#8 => formatN w .encFlush
  | 0x40#8 => formatN w .dtClear
  | 0x41#8 => formatS w .dtLoad
  | 0x42#8 => formatN w .dtCommit
  | 0x43#8 => formatN w .dtFromCt
  | 0x48#8 => formatB w .decByte
  | 0x49#8 => formatT w .decLast
  | 0x4A#8 => formatN w .decEnd
  | _ => .error .reservedOpcode

/-- The instruction the decoder reads from a word numbered as spec/opcode_table.json numbers it. Every row is one
32-bit word; the bits above `nbits` are 0. -/
def decodeTableWord (nbits w : Nat) : Option Instr :=
  if nbits ≤ 32 ∧ w < 2 ^ nbits then (decode (BitVec.ofNat 32 w)).toOption else none

/-- The opcode of a command (R108). -/
def Instr.opcode : Instr → BitVec 8
  | .nop => 0x00#8
  | .errClr => 0x01#8
  | .ftClear => 0x10#8
  | .ftInc _ => 0x11#8
  | .ftSet _ => 0x12#8
  | .ftRead _ => 0x13#8
  | .buildTree => 0x20#8
  | .nodeRead _ => 0x21#8
  | .genTable => 0x22#8
  | .ctRead _ => 0x23#8
  | .encSymbol _ => 0x30#8
  | .encFlush => 0x31#8
  | .dtClear => 0x40#8
  | .dtLoad _ => 0x41#8
  | .dtCommit => 0x42#8
  | .dtFromCt => 0x43#8
  | .decByte _ => 0x48#8
  | .decLast _ _ => 0x49#8
  | .decEnd => 0x4A#8

/-- The operand field of a command, laid out by its format (R102 to R106). -/
def Instr.operand : Instr → BitVec 24
  | .nop => 0#24
  | .errClr => 0#24
  | .ftClear => 0#24
  | .ftInc s => 0#3 ++ s
  | .ftSet s => 0#3 ++ s
  | .ftRead s => 0#3 ++ s
  | .buildTree => 0#24
  | .nodeRead i => i
  | .genTable => 0#24
  | .ctRead i => i
  | .encSymbol s => 0#3 ++ s
  | .encFlush => 0#24
  | .dtClear => 0#24
  | .dtLoad s => 0#3 ++ s
  | .dtCommit => 0#24
  | .dtFromCt => 0#24
  | .decByte b => 0#16 ++ b
  | .decLast b t => (0#12 ++ t : BitVec 16) ++ b
  | .decEnd => 0#24

/-- A command line is encoded as OPC || OPND (R116). -/
def encode (i : Instr) : Word := i.opcode ++ i.operand

end Sys2Proof
end

