-- ==== Sys2Proof/Config.lean ====
section
/-! DEFINITION. What one implementation of the block fixes (the OPEN parameters of spec/00_scope.md R7 and
spec/20_memory.md R80) and the free values of the model (spec/10_state.md R57). -/

namespace Sys2Proof.Config

/-- The OPEN parameters of one block. A block keeps them for ever (10_state.md R45); the model carries them in the
state, so that a statement about every state is a statement about every choice of them. -/
structure Params where
  /-- N_SYM: capacity of FT, CT and DT, in distinct symbols -/
  nSym : Nat
  /-- L_MAX: the longest code length the block stores, in bits -/
  lMax : Nat
  /-- OUT_DEPTH: entries in the byte FIFO -/
  outDepth : Nat
  /-- SYM_DEPTH: entries in the symbol FIFO -/
  symDepth : Nat
  /-- HCB_BASE: where the platform puts the register window -/
  base : Nat
  deriving DecidableEq, Repr

/-- The bounds of 00_scope.md R7 and 20_memory.md R80; the upper bounds of the two depths are those of 10_state.md
R42 and R44. -/
def Params.wf (p : Params) : Bool :=
  2 ≤ p.nSym && p.nSym ≤ 2 ^ 21 && 1 ≤ p.lMax && p.lMax ≤ 64 && 9 ≤ p.outDepth && p.outDepth ≤ 65535 &&
    8 ≤ p.symDepth && p.symDepth ≤ 65535 && p.base % 4096 == 0

/-- DESIGN CHOICE (log 2): the values the spec's test vectors assume (00_scope.md R8: "not values of the hardware"),
with HCB_BASE = 0. Only `State.reset` uses them; no claim about every state does. -/
def Params.vectors : Params :=
  { nSym := 8, lMax := 64, outDepth := 16, symDepth := 16, base := 0 }

/-- The window's size WIN, in bytes (00_scope.md R7). -/
def windowSize : Nat := 4096

/-- FREE VALUE (log 6): the n-th unspecified read (10_state.md R57). It has no body: nothing constrains it. -/
opaque freeWord : Nat → Word

end Sys2Proof.Config
end

