-- ==== Sys2Proof/Machine/State.lean ====
section
/-! DEFINITION. The state of the block (spec/10_state.md R20), its value after reset (R60), and the two ways a step can
stop. Plain data throughout. -/

namespace Sys2Proof.Machine

/-- A node of the arena (10_state.md R47). `left` and `right` are indices of nodes. -/
inductive Node where
  /-- Leaf(freq, sym) -/
  | leaf (freq : Count) (sym : Sym)
  /-- Internal(freq, left, right) -/
  | internal (freq : Count) (left right : Nat)
  deriving DecidableEq, Repr

/-- An entry of CT or DT: a symbol and its code (len, val) (10_state.md R48, R49; 00_scope.md R13). -/
structure Entry where
  sym : Sym
  len : Nat
  val : CodeVal
  deriving DecidableEq, Repr

/-- Whether the last payload byte has been given (10_state.md R53). -/
inductive Phase where
  | OPEN
  | LAST
  deriving DecidableEq, Repr

/-- The error codes of 60_exceptions.md R226. INTERNAL_DEFECT is left out: it is never raised and "a model may omit
it" (41_code_table.md R152; log 4). -/
inductive ErrCode where
  | NONE
  | MISSING_CODE
  | UNDECODABLE
  | CORRUPT_TABLE
  | MALFORMED_CONTAINER
  | ILLEGAL_CMD
  | SEQUENCE
  | CAPACITY
  | FREQ_OVERFLOW
  | CODE_TOO_LONG
  | FIFO_OVERFLOW
  | BUSY_CMD
  | BAD_SYMBOL
  | INDEX_RANGE
  deriving DecidableEq, Repr

/-- A latched command: the word and the snapshots of ARG and ARG2 (10_state.md R55). -/
structure Latched where
  word : Word
  arg : BitVec 64
  arg2 : BitVec 7
  deriving DecidableEq, Repr

/-- One turn of an agent (00_scope.md R16): a host access of the bus, the engine's turn, or an asserted hard reset.
Addresses are bus addresses, so the register at offset `off` is at HCB_BASE + off (20_memory.md R80). -/
inductive Move where
  /-- MemRead(addr, width) -/
  | hostRead (addr width : Nat)
  /-- MemWrite(addr, width, v) -/
  | hostWrite (addr width : Nat) (v : Word)
  /-- the ENGINE takes its turn here -/
  | engine
  /-- the RESET agent asserts the reset input -/
  | hardReset
  deriving DecidableEq, Repr

/-- What the bus answers to a host access (20_memory.md R86, R91). -/
structure BusResp where
  value : Word
  error : Bool
  deriving DecidableEq, Repr

/-- The state. The fields from `ft` to `eopc` are those of 10_state.md R20, in its order; `cfg` holds the parameters;
the last four are the model's own (log 1, 5, 6). NNODE, NCT, NDT and BUSY are computed from `nodes`, `ct`, `dt` and
`pend` (log 3). -/
structure State where
  /-- the block's parameters, constant (00_scope.md R7) -/
  cfg : Config.Params
  /-- FT, the frequency table, in ascending symbol order (R46) -/
  ft : List (Sym × Count)
  /-- TREE_VALID -/
  treeValid : Bool
  /-- NODES, entries 0 to NNODE - 1 (R47) -/
  nodes : List Node
  /-- CT_VALID -/
  ctValid : Bool
  /-- CT, entries 0 to NCT - 1 (R48) -/
  ct : List Entry
  /-- CTMAXLEN -/
  ctMaxLen : Nat
  /-- ACC, the partial output byte (R50) -/
  acc : Byte
  /-- NBITS, the bits held in ACC (R50) -/
  nbits : Nat
  /-- TAIL (R40) -/
  tail : Nat
  /-- OUTQ, oldest first (R51) -/
  outq : List Byte
  /-- DT_VALID -/
  dtValid : Bool
  /-- DT, entries 0 to NDT - 1 (R49) -/
  dt : List Entry
  /-- DTMAXLEN -/
  dtMaxLen : Nat
  /-- W, the window bits since the last match (R52) -/
  w : BitVec 64
  /-- WLEN (R52) -/
  wlen : Nat
  /-- PHASE (R53) -/
  phase : Phase
  /-- DONE (R53) -/
  done : Bool
  /-- SYMQ, oldest first (R54) -/
  symq : List Sym
  /-- ARG = ARG_HI:ARG_LO (R31) -/
  arg : BitVec 64
  /-- ARG2 (R32) -/
  arg2 : BitVec 7
  /-- RES = RES_HI:RES_LO (R33) -/
  res : BitVec 64
  /-- RES_AUX (R34) -/
  resAux : Word
  /-- RES_AUX2 (R35) -/
  resAux2 : Word
  /-- PEND, the latched command or none (R55) -/
  pend : Option Latched
  /-- ERR (R56) -/
  err : Bool
  /-- ECODE (R56) -/
  ecode : ErrCode
  /-- EOPC (R56) -/
  eopc : BitVec 8
  /-- the model's own: the turns the agents will take, next first (log 1) -/
  agenda : List Move
  /-- the model's own: the bus's answer to the last host access (log 5) -/
  resp : BusResp
  /-- the model's own: the recorded fault of the host program, never cleared (20_memory.md R86; log 5) -/
  busFault : Bool
  /-- the model's own: how many unspecified reads have been drawn (log 6) -/
  draws : Nat
  deriving DecidableEq, Repr

/-- The state after reset (10_state.md R60) of a block with parameters `p`, with nothing on the agenda. -/
def State.resetWith (p : Config.Params) : State where
  cfg := p
  ft := []
  treeValid := false
  nodes := []
  ctValid := false
  ct := []
  ctMaxLen := 0
  acc := 0#8
  nbits := 0
  tail := 0
  outq := []
  dtValid := false
  dt := []
  dtMaxLen := 0
  w := 0#64
  wlen := 0
  phase := .OPEN
  done := false
  symq := []
  arg := 0#64
  arg2 := 0#7
  res := 0#64
  resAux := 0#32
  resAux2 := 0#32
  pend := none
  err := false
  ecode := .NONE
  eopc := 0#8
  agenda := []
  resp := { value := 0#32, error := false }
  busFault := false
  draws := 0

/-- The machine right after reset. The parameters are a DESIGN CHOICE (log 2); every other field of the block is the
spec's reset value (10_state.md R60). -/
def State.reset : State := State.resetWith Config.Params.vectors

/-- BUSY = 1 exactly when PEND is not none (10_state.md R55). -/
def State.busy (s : State) : Bool := s.pend.isSome

/-- Why the machine stops. Closed: there is no other reason. -/
inductive Fault where
  /-- raised by a host access whose address is not in the block's window (20_memory.md R89: the rest of the address
  map is the platform's). SAFE: the model stops where the platform goes on, and the block would be unchanged (log 7). -/
  | outsideWindow (addr : Nat)
  deriving DecidableEq, Repr

/-- Why the machine gives no meaning. -/
inductive Refusal where
  /-- raised by an arm of `exec` whose instruction has no meaning yet; SAFE. No arm of this model is so. -/
  | notModelled (mnemonic : String)
  deriving DecidableEq, Repr

/-- What a step answers. -/
abbrev Result := Host.Outcome State Fault Refusal

end Sys2Proof.Machine
end

