-- ==== Sys2Proof/Machine/Operands.lean ====
section
/-! DEFINITION. The operands of the commands (spec/30_encoding.md R102 to R107): which values are legal, the snapshots
of ARG and ARG2, codes as pairs (len, val) (spec/00_scope.md R13), and the bit order of codes and bytes
(spec/20_memory.md R84, R85). -/

namespace Sys2Proof.Machine

/-- `scalar(s)` for any number: a Unicode scalar value (00_scope.md R10). -/
def scalarNat (n : Nat) : Bool :=
  n ≤ 0x10FFFF && !(0xD800 ≤ n && n ≤ 0xDFFF)

/-- `scalar(s)` for a symbol field (00_scope.md R10). -/
def scalar (s : Sym) : Bool := scalarNat s.toNat

/-- A tail count is 1 to 8 (30_encoding.md R106, 44_decoder.md R193). -/
def tailLegal (t : BitVec 4) : Bool :=
  1 ≤ t.toNat && t.toNat ≤ 8

/-- The snapshot a of ARG that the executing command uses (30_encoding.md R107, R111). Only the engine executes
commands, so a command is latched; with none latched the value is that of ARG itself (log 8). -/
def State.snapArg (s : State) : BitVec 64 :=
  match s.pend with
  | some p => p.arg
  | none => s.arg

/-- The snapshot a2 of ARG2 (30_encoding.md R107, R111); with none latched, ARG2 itself (log 8). -/
def State.snapArg2 (s : State) : BitVec 7 :=
  match s.pend with
  | some p => p.arg2
  | none => s.arg2

/-- (len, val) is a code of at most `lMax` bits: 1 ≤ len ≤ L_MAX and val < 2^len (00_scope.md R13). -/
def codeLegal (lMax len : Nat) (val : CodeVal) : Bool :=
  1 ≤ len && len ≤ lMax && val.toNat < 2 ^ len

/-- The bit string of a code, first bit first: val[len-1], ..., val[0] (00_scope.md R13, 20_memory.md R85). -/
def codeBits : Nat → CodeVal → List Bool
  | 0, _ => []
  | n + 1, val => val.getLsbD n :: codeBits n val

/-- The code of `a` is a prefix of the code of `b` (44_decoder.md R184). -/
def Entry.isPrefixOf (a b : Entry) : Bool :=
  a.len ≤ b.len && b.val >>> (b.len - a.len) == a.val

/-- The first `t` bits of a byte, b[7] first (20_memory.md R84, 44_decoder.md R189): all eight for a payload byte, the
top `t` for the last one. -/
def byteBits (b : Byte) (t : Nat) : List Bool :=
  (List.range t).map fun k => b.getLsbD (7 - k)

end Sys2Proof.Machine
end

