-- ==== Sys2Proof/Machine/Ops.lean ====
section
/-! DEFINITION. The operations the meanings share. Failing a command and recording its error, which is what this block
has for taking an exception (spec/60_exceptions.md R220, R225, R234), and clearing it, which is its return (R235);
resets (spec/70_reset_and_hazards.md R254); the helpers of the spec's pseudocode; the frequency table as a finite map
(spec/10_state.md R46); the serializer (spec/42_encoder.md R160); the symbol matcher (spec/44_decoder.md R186). -/

namespace Sys2Proof.Machine

/-! ### Errors -/

/-- `record_error(code, opc)`: the first error since the last clear is kept (60_exceptions.md R225). -/
def State.recordError (s : State) (e : ErrCode) (opc : BitVec 8) : State :=
  if s.err then s else { s with err := true, ecode := e, eopc := opc }

/-- Clearing the error state (45_control.md R212, 60_exceptions.md R235). -/
def State.clearError (s : State) : State :=
  { s with err := false, ecode := .NONE, eopc := 0#8 }

/-- What a command's checks and computing answer: the state it leaves, or the error it raises. -/
abbrev Attempt := Except ErrCode State

/-- The end of a command of opcode `opc` begun in `s` (30_encoding.md R112): on success its writes stand; on failure
none of them does and the error is recorded. Either way the machine goes on. -/
def finish (s : State) (opc : BitVec 8) : Attempt → Result
  | .ok t => .next t
  | .error e => .next (s.recordError e opc)

/-- One check of a command: raise `e` if `bad`, else go on (30_encoding.md R113). -/
def failIf (bad : Bool) (e : ErrCode) (rest : Attempt) : Attempt :=
  if bad then .error e else rest

/-! ### Helpers of the pseudocode, and resets -/

/-- `invalidate_tree()` (40_tree_builder.md R126). -/
def State.invalidateTree (s : State) : State :=
  { s with treeValid := false, nodes := [], ctValid := false, ct := [], ctMaxLen := 0 }

/-- `dec_reset()` (44_decoder.md R185). -/
def State.decReset (s : State) : State :=
  { s with w := 0#64, wlen := 0, phase := .OPEN, done := false, symq := [] }

/-- The encoder stream at the start of a message (45_control.md R212). -/
def State.encReset (s : State) : State :=
  { s with acc := 0#8, nbits := 0, tail := 0, outq := [] }

/-- `hard_reset()` (70_reset_and_hazards.md R254). The parameters are constants (10_state.md R45); the model's own
fields belong to the outside and stay. -/
def State.hardReset (s : State) : State :=
  { s with
    ft := [], treeValid := false, nodes := [], ctValid := false, ct := [], ctMaxLen := 0
    acc := 0#8, nbits := 0, tail := 0, outq := []
    dtValid := false, dt := [], dtMaxLen := 0
    w := 0#64, wlen := 0, phase := .OPEN, done := false, symq := []
    arg := 0#64, arg2 := 0#7, res := 0#64, resAux := 0#32, resAux2 := 0#32
    pend := none, err := false, ecode := .NONE, eopc := 0#8 }

/-- `soft_reset()` has the effect of `hard_reset()`, whatever BUSY and ERR are (70_reset_and_hazards.md R255). -/
def State.softReset (s : State) : State := s.hardReset

/-- The three result registers, which only FT_READ, NODE_READ and CT_READ write (10_state.md R33 to R35). -/
def State.setResult (s : State) (res : BitVec 64) (aux aux2 : Word) : State :=
  { s with res := res, resAux := aux, resAux2 := aux2 }

/-- PEND <- none, and with it BUSY <- 0 (30_encoding.md R112). -/
def State.clearPend (s : State) : State := { s with pend := none }

/-! ### The frequency table -/

/-- s is a key of FT. -/
def ftHas (ft : List (Sym × Count)) (s : Sym) : Bool :=
  ft.any fun p => p.1 == s

/-- FT(s), and 0 for an absent symbol (10_state.md R46). -/
def ftCount : List (Sym × Count) → Sym → Count
  | [], _ => 0#64
  | (k, c) :: rest, s => if k = s then c else ftCount rest s

/-- FT(s) <- c, in ascending symbol order. -/
def ftPut : List (Sym × Count) → Sym → Count → List (Sym × Count)
  | [], s, c => [(s, c)]
  | (k, d) :: rest, s, c =>
    if s = k then (s, c) :: rest
    else if s.toNat < k.toNat then (s, c) :: (k, d) :: rest
    else (k, d) :: ftPut rest s c

/-- Remove s from FT; no change if it is absent (40_tree_builder.md R129). -/
def ftRemove (ft : List (Sym × Count)) (s : Sym) : List (Sym × Count) :=
  ft.filter fun p => p.1 != s

/-- The canonical form of FT (10_state.md R46): symbols strictly ascending, every symbol a scalar value, no count 0.
Equal maps are then equal lists. -/
def ftWf (ft : List (Sym × Count)) : Bool :=
  decide (ft.Pairwise fun p q => p.1.toNat < q.1.toNat) && ft.all fun p => scalar p.1 && p.2 != 0#64

/-! ### Tables -/

/-- The entry of symbol s, the first by index if there were several (42_encoder.md R160). -/
def findSym (t : List Entry) (s : Sym) : Option Entry :=
  t.find? fun e => e.sym == s

/-- The entry whose code is the window's bits (44_decoder.md R186). -/
def findCode (t : List Entry) (len : Nat) (val : CodeVal) : Option Entry :=
  t.find? fun e => e.len == len && e.val == val

/-- The longest code length, or 0 for an empty table (41_code_table.md R147, 44_decoder.md R182). -/
def maxLen : List Entry → Nat
  | [] => 0
  | e :: rest => max e.len (maxLen rest)

/-- Two entries have the same symbol (44_decoder.md R182, check 3). -/
def hasDuplicateSym : List Entry → Bool
  | [] => false
  | e :: rest => rest.any (fun f => f.sym == e.sym) || hasDuplicateSym rest

/-- The code of one entry is a prefix of that of another (44_decoder.md R182, check 4). -/
def hasPrefixPair : List Entry → Bool
  | [] => false
  | e :: rest => rest.any (fun f => e.isPrefixOf f || f.isPrefixOf e) || hasPrefixPair rest

/-! ### The serializer -/

/-- The serializer within one command: ACC, NBITS and the bytes it has emitted. -/
structure Serializer where
  acc : Byte
  nbits : Nat
  out : List Byte
  deriving DecidableEq, Repr

/-- v[i] <- b. -/
def setBit (v : Byte) (i : Nat) (b : Bool) : Byte :=
  (v &&& ~~~(1#8 <<< i)) ||| (if b then 1#8 <<< i else 0#8)

/-- One turn of the loop of ENC_SYMBOL (42_encoder.md R160): ACC[7 - NBITS] <- b, and a full byte is emitted. -/
def Serializer.push (z : Serializer) (b : Bool) : Serializer :=
  let acc := setBit z.acc (7 - z.nbits) b
  if z.nbits + 1 = 8 then { acc := 0#8, nbits := 0, out := z.out ++ [acc] }
  else { z with acc := acc, nbits := z.nbits + 1 }

/-- Append bits, first one first. -/
def Serializer.pushAll (z : Serializer) : List Bool → Serializer
  | [] => z
  | b :: bs => (z.push b).pushAll bs

/-! ### The symbol matcher -/

/-- The matcher within one command: the window W, WLEN and the symbols decoded so far (E in 44_decoder.md R186). -/
structure Matcher where
  w : BitVec 64
  wlen : Nat
  out : List Sym
  deriving DecidableEq, Repr

/-- One bit of push_bits (44_decoder.md R186). -/
def Matcher.push (dt : List Entry) (dtMaxLen : Nat) (m : Matcher) (b : Bool) : Except ErrCode Matcher :=
  let w := (m.w <<< 1) ||| (BitVec.ofBool b).setWidth 64
  let wlen := m.wlen + 1
  match findCode dt wlen w with
  | some e => .ok { w := 0#64, wlen := 0, out := m.out ++ [e.sym] }
  | none => if wlen ≥ dtMaxLen then .error .UNDECODABLE else .ok { m with w := w, wlen := wlen }

/-- All the bits of a command, first one first. -/
def Matcher.pushAll (dt : List Entry) (dtMaxLen : Nat) (m : Matcher) : List Bool → Except ErrCode Matcher
  | [] => .ok m
  | b :: bs =>
    match m.push dt dtMaxLen b with
    | .ok m' => m'.pushAll dt dtMaxLen bs
    | .error e => .error e

/-- `push_bits(bits)` (44_decoder.md R186, R187): match every bit, then check SYMQ's room for all of E at once, then
push E. -/
def State.pushBits (s : State) (bits : List Bool) : Attempt :=
  match Matcher.pushAll s.dt s.dtMaxLen { w := s.w, wlen := s.wlen, out := [] } bits with
  | .error e => .error e
  | .ok m =>
    failIf (s.cfg.symDepth < s.symq.length + m.out.length) .FIFO_OVERFLOW <|
      .ok { s with w := m.w, wlen := m.wlen, symq := s.symq ++ m.out }

end Sys2Proof.Machine
end

