-- ==== Sys2Proof/Machine/Builder.lean ====
section
/-! DEFINITION. The frequency table and the priority-queue tree builder (spec/40_tree_builder.md). -/

namespace Sys2Proof.Machine

/-! ### The frequency table (R125 to R130) -/

/-- FT_CLEAR (R127). -/
def execFtClear (s : State) : Result :=
  finish s 0x10#8 (.ok { s with ft := [] }.invalidateTree)

/-- FT_INC s (R128). -/
def execFtInc (sym : Sym) (s : State) : Result :=
  finish s 0x11#8 <|
    failIf (!scalar sym) .BAD_SYMBOL <|
    failIf (!ftHas s.ft sym && s.ft.length == s.cfg.nSym) .CAPACITY <|
    failIf (ftHas s.ft sym && (ftCount s.ft sym).toNat == 2 ^ 64 - 1) .FREQ_OVERFLOW <|
    .ok { s with ft := ftPut s.ft sym (ftCount s.ft sym + 1#64) }.invalidateTree

/-- FT_SET s, with the count a in the ARG snapshot (R129). -/
def execFtSet (sym : Sym) (s : State) : Result :=
  let a := s.snapArg
  finish s 0x12#8 <|
    failIf (!scalar sym) .BAD_SYMBOL <|
    failIf (a != 0#64 && !ftHas s.ft sym && s.ft.length == s.cfg.nSym) .CAPACITY <|
    .ok { s with ft := if a = 0#64 then ftRemove s.ft sym else ftPut s.ft sym a }.invalidateTree

/-- FT_READ s (R130). -/
def execFtRead (sym : Sym) (s : State) : Result :=
  finish s 0x13#8 <|
    failIf (!scalar sym) .BAD_SYMBOL <|
    .ok (s.setResult (ftCount s.ft sym) 0#32 0#32)

/-! ### The tree (R131 to R139) -/

/-- A node's frequency. -/
def Node.freq : Node → Count
  | .leaf f _ => f
  | .internal f _ _ => f

/-- The key of node `n` at index `i` (R133): (f, 0, s) for a leaf, (f, 1, i) for an internal node. -/
def nodeKey (n : Node) (i : Nat) : Nat × Nat × Nat :=
  match n with
  | .leaf f s => (f.toNat, 0, s.toNat)
  | .internal f _ _ => (f.toNat, 1, i)

/-- Keys are compared lexicographically (R133). -/
def keyLt (a b : Nat × Nat × Nat) : Bool :=
  a.1 < b.1 || (a.1 == b.1 && (a.2.1 < b.2.1 || (a.2.1 == b.2.1 && a.2.2 < b.2.2)))

/-- The priority queue Q (R132): the indices in it, each with its node. -/
abbrev Queue := List (Node × Nat)

/-- The member of least key and the queue without it (R133). `x` is the head of the queue. -/
def extractMin (x : Node × Nat) : Queue → (Node × Nat) × Queue
  | [] => (x, [])
  | y :: ys =>
    if keyLt (nodeKey y.1 y.2) (nodeKey x.1 x.2) then
      ((extractMin y ys).1, x :: (extractMin y ys).2)
    else
      ((extractMin x ys).1, y :: (extractMin x ys).2)

/-- Leaf creation (R131): leaf k holds the k-th symbol of FT in ascending order and its count. -/
def leavesOf (ft : List (Sym × Count)) : List Node :=
  ft.map fun p => .leaf p.2 p.1

/-- The loop of BUILD_TREE (R134, R135): merge the two members of least key until one is left. A merge leaves one
member fewer, so the number of members is fuel enough. -/
def mergeLoop : Nat → List Node → Queue → Except ErrCode (List Node)
  | 0, nodes, _ => .ok nodes
  | fuel + 1, nodes, q =>
    match q with
    | [] => .ok nodes
    | a :: q1 =>
      let x := (extractMin a q1).1
      match (extractMin a q1).2 with
      | [] => .ok nodes
      | b :: q2 =>
        let y := (extractMin b q2).1
        let f := x.1.freq.toNat + y.1.freq.toNat
        if 2 ^ 64 ≤ f then .error .FREQ_OVERFLOW
        else
          let n := Node.internal (BitVec.ofNat 64 f) x.2 y.2
          mergeLoop fuel (nodes ++ [n]) ((extractMin b q2).2 ++ [(n, nodes.length)])

/-- The node arena BUILD_TREE makes of a frequency table (R135, R137), a function of FT alone (R136). -/
def buildNodes (ft : List (Sym × Count)) : Except ErrCode (List Node) :=
  mergeLoop ft.length (leavesOf ft) (leavesOf ft).zipIdx

/-- BUILD_TREE (R135). -/
def execBuildTree (s : State) : Result :=
  finish s 0x20#8 <|
    match buildNodes s.ft with
    | .error e => .error e
    | .ok nodes => .ok { s with treeValid := true, nodes := nodes, ctValid := false, ct := [], ctMaxLen := 0 }

/-- NODE_READ i (R138; the layout of RES_AUX and RES_AUX2 is that of 10_state.md R34, R35). -/
def execNodeRead (idx : BitVec 24) (s : State) : Result :=
  finish s 0x21#8 <|
    failIf (!s.treeValid) .SEQUENCE <|
    match s.nodes[idx.toNat]? with
    | none => .error .INDEX_RANGE
    | some (.leaf f sym) => .ok (s.setResult f (sym.setWidth 32) 0#32)
    | some (.internal f l r) =>
      .ok (s.setResult f (0x80000000#32 ||| (BitVec.ofNat 24 l).setWidth 32) ((BitVec.ofNat 24 r).setWidth 32))

end Sys2Proof.Machine
end

