-- ==== Sys2Proof/Machine/Control.lean ====
section
/-! DEFINITION. The control commands (spec/45_control.md). -/

namespace Sys2Proof.Machine

/-- NOP: do nothing (45_control.md R211). -/
def execNop (s : State) : Result := finish s 0x00#8 (.ok s)

/-- ERR_CLR: clear the error state and abort the encoder and decoder streams; the tables, ARG, ARG2 and the result
registers keep their values (45_control.md R212). -/
def execErrClr (s : State) : Result := finish s 0x01#8 (.ok s.clearError.encReset.decReset)

end Sys2Proof.Machine
end

