-- ==== Sys2Proof/Machine/Decoder.lean ====
section
/-! DEFINITION. The symbol decoder (spec/44_decoder.md). -/

namespace Sys2Proof.Machine

/-- DT_CLEAR (R180). -/
def execDtClear (s : State) : Result :=
  finish s 0x40#8 (.ok { s with dt := [], dtValid := false, dtMaxLen := 0 }.decReset)

/-- DT_LOAD s, with the code value a in the ARG snapshot and the code length a2 in the ARG2 snapshot (R181). -/
def execDtLoad (sym : Sym) (s : State) : Result :=
  let a := s.snapArg
  let a2 := s.snapArg2.toNat
  finish s 0x41#8 <|
    failIf (!scalar sym) .BAD_SYMBOL <|
    failIf s.dtValid .SEQUENCE <|
    failIf (s.dt.length == s.cfg.nSym) .CAPACITY <|
    failIf (!codeLegal s.cfg.lMax a2 a) .CORRUPT_TABLE <|
    .ok { s with dt := s.dt ++ [{ sym := sym, len := a2, val := a }] }

/-- DT_COMMIT (R182). -/
def execDtCommit (s : State) : Result :=
  finish s 0x42#8 <|
    failIf s.dtValid .SEQUENCE <|
    failIf (hasDuplicateSym s.dt) .CORRUPT_TABLE <|
    failIf (hasPrefixPair s.dt) .CORRUPT_TABLE <|
    .ok { s with dtValid := true, dtMaxLen := maxLen s.dt }.decReset

/-- DT_FROM_CT (R183). -/
def execDtFromCt (s : State) : Result :=
  finish s 0x43#8 <|
    failIf (!s.ctValid) .SEQUENCE <|
    .ok { s with dt := s.ct, dtValid := true, dtMaxLen := s.ctMaxLen }.decReset

/-- DEC_BYTE b (R190). -/
def execDecByte (b : Byte) (s : State) : Result :=
  finish s 0x48#8 <|
    failIf (!s.dtValid || s.phase == .LAST) .SEQUENCE <|
    { s with done := false }.pushBits (byteBits b 8)

/-- DEC_LAST b, t (R193): only the top t bits are fed, and the others are ignored (R191). -/
def execDecLast (b : Byte) (t : BitVec 4) (s : State) : Result :=
  finish s 0x49#8 <|
    failIf (!tailLegal t) .MALFORMED_CONTAINER <|
    failIf (!s.dtValid || s.phase == .LAST) .SEQUENCE <|
    match { s with done := false }.pushBits (byteBits b t.toNat) with
    | .error e => .error e
    | .ok u => .ok { u with phase := .LAST }

/-- DEC_END (R194). -/
def execDecEnd (s : State) : Result :=
  finish s 0x4A#8 <|
    failIf (!s.dtValid) .SEQUENCE <|
    failIf (s.wlen != 0) .UNDECODABLE <|
    .ok { s with done := true, phase := .OPEN, w := 0#64 }

end Sys2Proof.Machine
end

