-- ==== Sys2Proof/Machine/Encoder.lean ====
section
/-! DEFINITION. The symbol encoder (spec/42_encoder.md). -/

namespace Sys2Proof.Machine

/-- ENC_SYMBOL s (R160). The room check compares the number of bytes the command pushes, floor((NBITS + len) / 8), with
the free entries of OUTQ before any bit is moved (R161). -/
def execEncSymbol (sym : Sym) (s : State) : Result :=
  finish s 0x30#8 <|
    failIf (!scalar sym) .BAD_SYMBOL <|
    failIf (!s.ctValid) .SEQUENCE <|
    match findSym s.ct sym with
    | none => .error .MISSING_CODE
    | some e =>
      failIf (s.cfg.outDepth < s.outq.length + (s.nbits + e.len) / 8) .FIFO_OVERFLOW <|
        let z := Serializer.pushAll { acc := s.acc, nbits := s.nbits, out := [] } (codeBits e.len e.val)
        .ok { s with acc := z.acc, nbits := z.nbits, outq := s.outq ++ z.out }

/-- ENC_FLUSH (R162). -/
def execEncFlush (s : State) : Result :=
  finish s 0x31#8 <|
    failIf (0 < s.nbits && s.outq.length == s.cfg.outDepth) .FIFO_OVERFLOW <|
    if 0 < s.nbits then .ok { s with outq := s.outq ++ [s.acc], tail := s.nbits, acc := 0#8, nbits := 0 }
    else .ok { s with tail := 8, acc := 0#8, nbits := 0 }

end Sys2Proof.Machine
end

