-- ==== Sys2Proof/Machine/Generator.lean ====
section
/-! DEFINITION. The code-table generator (spec/41_code_table.md). -/

namespace Sys2Proof.Machine

/-- A derived code before it is narrowed to a table entry: a symbol, its length and its exact value. -/
structure RawCode where
  sym : Sym
  len : Nat
  val : Nat
  deriving DecidableEq, Repr

/-- The depth-first walk (R148) from node `i` with the accumulated code (len, val): 0 is appended for the left child, 1
for the right. Children stand below their parent (10_state.md R47), so NNODE is fuel enough. -/
def walk (nodes : List Node) : Nat → Nat → Nat → Nat → List RawCode
  | 0, _, _, _ => []
  | fuel + 1, i, len, val =>
    match nodes[i]? with
    | none => []
    | some (.leaf _ s) => [{ sym := s, len := len, val := val }]
    | some (.internal _ l r) =>
      walk nodes fuel l (len + 1) (2 * val) ++ walk nodes fuel r (len + 1) (2 * val + 1)

/-- `derive(NODES, NNODE)` (R148): nothing for the empty tree, the code (1, 0) for a lone leaf (R146), and otherwise
the walk from the root, which is the last node. -/
def deriveCodes (nodes : List Node) : List RawCode :=
  match nodes with
  | [] => []
  | [.leaf _ s] => [{ sym := s, len := 1, val := 0 }]
  | _ => walk nodes nodes.length (nodes.length - 1) 0 0

/-- The longest length, or 0. -/
def rawMaxLen : List RawCode → Nat
  | [] => 0
  | c :: rest => max c.len (rawMaxLen rest)

/-- Bind a symbol to its code in a table held in ascending symbol order (R149). -/
def insertCode (c : RawCode) : List RawCode → List RawCode
  | [] => [c]
  | d :: rest =>
    if c.sym = d.sym then c :: rest
    else if c.sym.toNat < d.sym.toNat then c :: d :: rest
    else d :: insertCode c rest

/-- The map of symbols to codes, in ascending symbol order (R149). -/
def sortCodes : List RawCode → List RawCode
  | [] => []
  | c :: rest => insertCode c (sortCodes rest)

/-- The table entry of a code. -/
def RawCode.entry (c : RawCode) : Entry :=
  { sym := c.sym, len := c.len, val := BitVec.ofNat 64 c.val }

/-- The code table GEN_TABLE makes of a node arena, or CODE_TOO_LONG (R147). -/
def codeTable (lMax : Nat) (nodes : List Node) : Except ErrCode (List Entry) :=
  let codes := deriveCodes nodes
  if lMax < rawMaxLen codes then .error .CODE_TOO_LONG
  else .ok ((sortCodes codes).map RawCode.entry)

/-- GEN_TABLE (R147). -/
def execGenTable (s : State) : Result :=
  finish s 0x22#8 <|
    failIf (!s.treeValid) .SEQUENCE <|
    match codeTable s.cfg.lMax s.nodes with
    | .error e => .error e
    | .ok ct => .ok { s with ctValid := true, ct := ct, ctMaxLen := maxLen ct }

/-- CT_READ i (R151): RES_AUX[30:24] is the length and RES_AUX[20:0] the symbol. -/
def execCtRead (idx : BitVec 24) (s : State) : Result :=
  finish s 0x23#8 <|
    failIf (!s.ctValid) .SEQUENCE <|
    match s.ct[idx.toNat]? with
    | none => .error .INDEX_RANGE
    | some e => .ok (s.setResult e.val (((BitVec.ofNat 7 e.len).setWidth 32 <<< 24) ||| e.sym.setWidth 32) 0#32)

end Sys2Proof.Machine
end

