-- ==== Sys2Proof/Machine/Dispatch.lean ====
section
/-! DEFINITION. From a command to its meaning, one arm per constructor (spec/30_encoding.md R108, R112). -/

namespace Sys2Proof.Machine

def exec (i : Instr) (s : State) : Host.Outcome State Fault Refusal :=
  match i with
  | .nop => Sys2Proof.Machine.execNop s
  | .errClr => Sys2Proof.Machine.execErrClr s
  | .ftClear => Sys2Proof.Machine.execFtClear s
  | .ftInc sym => Sys2Proof.Machine.execFtInc sym s
  | .ftSet sym => Sys2Proof.Machine.execFtSet sym s
  | .ftRead sym => Sys2Proof.Machine.execFtRead sym s
  | .buildTree => Sys2Proof.Machine.execBuildTree s
  | .nodeRead idx => Sys2Proof.Machine.execNodeRead idx s
  | .genTable => Sys2Proof.Machine.execGenTable s
  | .ctRead idx => Sys2Proof.Machine.execCtRead idx s
  | .encSymbol sym => Sys2Proof.Machine.execEncSymbol sym s
  | .encFlush => Sys2Proof.Machine.execEncFlush s
  | .dtClear => Sys2Proof.Machine.execDtClear s
  | .dtLoad sym => Sys2Proof.Machine.execDtLoad sym s
  | .dtCommit => Sys2Proof.Machine.execDtCommit s
  | .dtFromCt => Sys2Proof.Machine.execDtFromCt s
  | .decByte byte => Sys2Proof.Machine.execDecByte byte s
  | .decLast byte tailn => Sys2Proof.Machine.execDecLast byte tailn s
  | .decEnd => Sys2Proof.Machine.execDecEnd s

end Sys2Proof.Machine
end

