-- ==== Sys2Proof/Machine/Flags.lean ====
section
/-! DEFINITION. The flags of the block, that is the fields of STATUS (spec/10_state.md R23, R28), and the error word
ERRCODE (R29) with the numbers of the error codes (spec/60_exceptions.md R226). -/

namespace Sys2Proof.Machine

/-- A flag as one bit. -/
def bit (b : Bool) : BitVec 1 := BitVec.ofBool b

/-- A number in a field of `n` bits of a register whose other bits read 0 (10_state.md R25). -/
def field (n v : Nat) : Word := (BitVec.ofNat n v).setWidth 32

/-- The number of an error code (60_exceptions.md R226). -/
def ErrCode.code : ErrCode → BitVec 8
  | .NONE => 0x00#8
  | .MISSING_CODE => 0x01#8
  | .UNDECODABLE => 0x02#8
  | .CORRUPT_TABLE => 0x03#8
  | .MALFORMED_CONTAINER => 0x04#8
  | .ILLEGAL_CMD => 0x10#8
  | .SEQUENCE => 0x11#8
  | .CAPACITY => 0x12#8
  | .FREQ_OVERFLOW => 0x13#8
  | .CODE_TOO_LONG => 0x14#8
  | .FIFO_OVERFLOW => 0x15#8
  | .BUSY_CMD => 0x16#8
  | .BAD_SYMBOL => 0x17#8
  | .INDEX_RANGE => 0x18#8

/-- LAST: 1 if PHASE = LAST (10_state.md R28). -/
def State.lastFlag (s : State) : Bool := s.phase == .LAST

/-- STATUS, from bit 31 down (10_state.md R28): reserved, DEC_WLEN, reserved, ENC_NBITS, reserved, DONE, LAST,
DT_VALID, CT_VALID, TREE_VALID, ERR, BUSY. -/
def State.status (s : State) : Word :=
  (0#9 ++ BitVec.ofNat 7 s.wlen ++ 0#5 ++ BitVec.ofNat 3 s.nbits ++ 0#1 ++ bit s.done ++ bit s.lastFlag ++
    bit s.dtValid ++ bit s.ctValid ++ bit s.treeValid ++ bit s.err ++ bit s.busy : BitVec 32)

/-- ERRCODE = zext_32(EOPC || ECODE) (10_state.md R29). -/
def State.errcode (s : State) : Word := (s.eopc ++ s.ecode.code).setWidth 32

end Sys2Proof.Machine
end

