-- ==== Sys2Proof/Machine/Window.lean ====
section
/-! DEFINITION. The register window (spec/10_state.md R24 to R45, R57) and the host's accesses of it
(spec/20_memory.md R86, R91, R92, R94), with the submission of a command (spec/30_encoding.md R111). -/

namespace Sys2Proof.Machine

/-- The registers of the window (10_state.md R24). -/
inductive Reg where
  | ID | CTRL | STATUS | ERRCODE | CMD | ARG_LO | ARG_HI | ARG2 | RES_LO | RES_HI | RES_AUX | RES_AUX2
  | NSYM | NNODE | NCT | CTMAXLEN | NDT | DTMAXLEN | TAIL | OUT_DATA | OUT_LEVEL | SYM_DATA | SYM_LEVEL
  | CAP_NSYM | CAP_LMAX | CAP_OUTD | CAP_SYMD
  deriving DecidableEq, Repr

/-- The register map (10_state.md R24). -/
def Reg.offset : Reg → Nat
  | .ID => 0x000
  | .CTRL => 0x004
  | .STATUS => 0x008
  | .ERRCODE => 0x00C
  | .CMD => 0x010
  | .ARG_LO => 0x014
  | .ARG_HI => 0x018
  | .ARG2 => 0x01C
  | .RES_LO => 0x020
  | .RES_HI => 0x024
  | .RES_AUX => 0x028
  | .RES_AUX2 => 0x02C
  | .NSYM => 0x030
  | .NNODE => 0x034
  | .NCT => 0x038
  | .CTMAXLEN => 0x03C
  | .NDT => 0x040
  | .DTMAXLEN => 0x044
  | .TAIL => 0x048
  | .OUT_DATA => 0x04C
  | .OUT_LEVEL => 0x050
  | .SYM_DATA => 0x054
  | .SYM_LEVEL => 0x058
  | .CAP_NSYM => 0x05C
  | .CAP_LMAX => 0x060
  | .CAP_OUTD => 0x064
  | .CAP_SYMD => 0x068

/-- Every register, in the order of the map. -/
def Reg.all : List Reg :=
  [.ID, .CTRL, .STATUS, .ERRCODE, .CMD, .ARG_LO, .ARG_HI, .ARG2, .RES_LO, .RES_HI, .RES_AUX, .RES_AUX2, .NSYM,
    .NNODE, .NCT, .CTMAXLEN, .NDT, .DTMAXLEN, .TAIL, .OUT_DATA, .OUT_LEVEL, .SYM_DATA, .SYM_LEVEL, .CAP_NSYM,
    .CAP_LMAX, .CAP_OUTD, .CAP_SYMD]

/-- The register at an aligned offset; none for the unmapped offsets 0x06C to 0xFFC (20_memory.md R94). -/
def Reg.at (off : Nat) : Option Reg := Reg.all.find? fun r => r.offset == off

/-- What a register reads while BUSY = 0, with no side effect counted (10_state.md R26 to R45). For OUT_DATA and
SYM_DATA that is the oldest entry under VALID, or 0 if there is none (R41, R43). -/
def Reg.value (s : State) : Reg → Word
  | .ID => 0x48434231#32
  | .CTRL => 0#32
  | .STATUS => s.status
  | .ERRCODE => s.errcode
  | .CMD => 0#32
  | .ARG_LO => s.arg.extractLsb' 0 32
  | .ARG_HI => s.arg.extractLsb' 32 32
  | .ARG2 => s.arg2.setWidth 32
  | .RES_LO => s.res.extractLsb' 0 32
  | .RES_HI => s.res.extractLsb' 32 32
  | .RES_AUX => s.resAux
  | .RES_AUX2 => s.resAux2
  | .NSYM => field 22 s.ft.length
  | .NNODE => field 22 s.nodes.length
  | .NCT => field 22 s.ct.length
  | .CTMAXLEN => field 7 s.ctMaxLen
  | .NDT => field 22 s.dt.length
  | .DTMAXLEN => field 7 s.dtMaxLen
  | .TAIL => field 4 s.tail
  | .OUT_DATA =>
    match s.outq with
    | [] => 0#32
    | b :: _ => 0x80000000#32 ||| b.setWidth 32
  | .OUT_LEVEL => field 16 s.outq.length
  | .SYM_DATA =>
    match s.symq with
    | [] => 0#32
    | c :: _ => 0x80000000#32 ||| c.setWidth 32
  | .SYM_LEVEL => field 16 s.symq.length
  | .CAP_NSYM => BitVec.ofNat 32 s.cfg.nSym
  | .CAP_LMAX => BitVec.ofNat 32 s.cfg.lMax
  | .CAP_OUTD => BitVec.ofNat 32 s.cfg.outDepth
  | .CAP_SYMD => BitVec.ofNat 32 s.cfg.symDepth

/-- The registers that read as usual while BUSY = 1 (10_state.md R57). -/
def Reg.steadyWhileBusy : Reg → Bool
  | .ID | .CTRL | .CMD | .ARG_LO | .ARG_HI | .ARG2 | .CAP_NSYM | .CAP_LMAX | .CAP_OUTD | .CAP_SYMD => true
  | _ => false

/-- A read while BUSY = 1 (10_state.md R57, 20_memory.md R91): the steady registers as usual, the FIFO registers 0 with
nothing popped, and every other a free draw, with bit 0 = 1 in STATUS (log 6). -/
def readBusy (r : Reg) (s : State) : Word × State :=
  if r.steadyWhileBusy then (r.value s, s)
  else if r = .OUT_DATA ∨ r = .SYM_DATA then (0#32, s)
  else
    let d := Config.freeWord s.draws
    (if r = .STATUS then d ||| 1#32 else d, { s with draws := s.draws + 1 })

/-- A read while BUSY = 0: OUT_DATA and SYM_DATA pop the entry they return (10_state.md R41, R43), and no other read
has an effect (20_memory.md R88). -/
def readIdle (r : Reg) (s : State) : Word × State :=
  match r with
  | .OUT_DATA => (r.value s, { s with outq := s.outq.tail })
  | .SYM_DATA => (r.value s, { s with symq := s.symq.tail })
  | _ => (r.value s, s)

/-- MemRead(HCB_BASE + off, 4) at an aligned offset (20_memory.md R91, R94). -/
def memRead (off : Nat) (s : State) : Word × State :=
  match Reg.at off with
  | none => (0#32, s)
  | some r => if s.busy then readBusy r s else readIdle r s

/-- `submit(w)` (30_encoding.md R111). -/
def submit (w : Word) (s : State) : State :=
  if s.busy then s.recordError .BUSY_CMD (w.extractLsb' 24 8)
  else if s.err && !(w.extractLsb' 24 8 == 0x00#8 || w.extractLsb' 24 8 == 0x01#8) then s
  else { s with pend := some { word := w, arg := s.arg, arg2 := s.arg2 } }

/-- MemWrite(HCB_BASE + off, 4, v) at an aligned offset (20_memory.md R92, R94). -/
def memWrite (off : Nat) (v : Word) (s : State) : State :=
  match Reg.at off with
  | some .CTRL => if v.getLsbD 0 then s.softReset else s
  | some .CMD => submit v s
  | some .ARG_LO => { s with arg := s.arg.extractLsb' 32 32 ++ v }
  | some .ARG_HI => { s with arg := v ++ s.arg.extractLsb' 0 32 }
  | some .ARG2 => { s with arg2 := v.extractLsb' 0 7 }
  | _ => s

/-- The address is in the block's window (20_memory.md R80). -/
def State.inWindow (s : State) (addr : Nat) : Bool :=
  s.cfg.base ≤ addr && addr < s.cfg.base + Config.windowSize

/-- The access is 4 bytes wide at a multiple of 4 (20_memory.md R86). -/
def accessLegal (off width : Nat) : Bool :=
  width == 4 && off % 4 == 0

/-- A bus error (20_memory.md R86): the answer is 0 with the error, no state of the block changes, and the fault of the
host program is recorded (log 5). -/
def State.busError (s : State) : State :=
  { s with resp := { value := 0#32, error := true }, busFault := true }

/-- The bus answers an access with `v` and no error. -/
def State.answer (s : State) (v : Word) : State :=
  { s with resp := { value := v, error := false } }

/-- One read by the host (20_memory.md R86, R91). -/
def hostRead (addr width : Nat) (s : State) : Result :=
  if !s.inWindow addr then .fault (.outsideWindow addr)
  else
    let off := addr - s.cfg.base
    if accessLegal off width then .next ((memRead off s).2.answer (memRead off s).1)
    else .next s.busError

/-- One write by the host (20_memory.md R86, R92). -/
def hostWrite (addr width : Nat) (v : Word) (s : State) : Result :=
  if !s.inWindow addr then .fault (.outsideWindow addr)
  else
    let off := addr - s.cfg.base
    if accessLegal off width then .next ((memWrite off v s).answer 0#32)
    else .next s.busError

end Sys2Proof.Machine
end

