-- ==== Sys2Proof/Machine/Engine.lean ====
section
/-! DEFINITION. The engine step (spec/30_encoding.md R112) and one turn of each agent (spec/00_scope.md R16). -/

namespace Sys2Proof.Machine

/-- PEND <- none after the command, on success and on failure alike (30_encoding.md R112). -/
def retire : Result → Result
  | .next t => .next t.clearPend
  | .fault f => .fault f
  | .refused r => .refused r

/-- `engine_step()` (30_encoding.md R112). With BUSY = 0 it is not enabled, and the turn passes with no change. A word
that decodes to `Illegal` raises ILLEGAL_CMD. -/
def engineStep (s : State) : Result :=
  match s.pend with
  | none => .next s
  | some p =>
    match decode p.word with
    | .ok i => retire (exec i s)
    | .error _ => retire (.next (s.recordError .ILLEGAL_CMD (opcField p.word)))

/-- One turn of an agent. -/
def act (m : Move) (s : State) : Result :=
  match m with
  | .hostRead addr width => hostRead addr width s
  | .hostWrite addr width v => hostWrite addr width v s
  | .engine => engineStep s
  | .hardReset => .next s.hardReset

/-- The next turn (20_memory.md R95): the first of the agenda; with nothing listed, the engine's, which is enabled while
BUSY = 1 (70_reset_and_hazards.md R264), and while BUSY = 0 the block waits (R251; log 1). -/
def turn (s : State) : Result :=
  match s.agenda with
  | [] => act .engine s
  | m :: rest => act m { s with agenda := rest }

end Sys2Proof.Machine
end

