-- ==== Sys2Proof/Machine/Step.lean ====
section
/-! DEFINITION. One step of the machine: one atomic turn of one agent (spec/20_memory.md R95). -/

namespace Sys2Proof.Machine

/-- One step. -/
def step (s : State) : Host.Outcome State Fault Refusal := turn s

/-- `s` with the word `w` latched as the command the engine executes next, with the snapshots a write of CMD would take
now (30_encoding.md R111), and the engine's turn first on the agenda. The bits above `nbits` are 0 (log 9). -/
def State.withFetchWord (s : State) (nbits w : Nat) : State :=
  { s with
    pend := some { word := BitVec.ofNat 32 (w % 2 ^ nbits), arg := s.arg, arg2 := s.arg2 }
    agenda := .engine :: s.agenda }

end Sys2Proof.Machine
end

