-- ==== Sys2Proof/Machine/Container.lean ====
section
/-! DEFINITION. The container the host builds around the block's outputs, and its parsing (spec/43_container.md R170 to
R175). The block itself never sees a container. -/

namespace Sys2Proof.Machine

/-- The error types of the host procedures (60_exceptions.md R236). IOFailure is the file system's and is out of scope
(00_scope.md R6). -/
inductive HostError where
  | MissingCode
  | UndecodableSequence
  | SerializationFailure
  | MalformedContainer
  | ResourceLimit
  | HostProtocolError
  deriving DecidableEq, Repr

/-- The `n` bytes of x, least significant first: u32le for n = 4, u64le for n = 8 (R170, R172). -/
def leBytes : Nat → Nat → List Byte
  | 0, _ => []
  | n + 1, x => BitVec.ofNat 8 x :: leBytes n (x / 256)

/-- The number of a little-endian byte string. -/
def leNat : List Byte → Nat
  | [] => 0
  | b :: bs => b.toNat + 256 * leNat bs

/-- The number of a big-endian byte string. -/
def beNat (bs : List Byte) : Nat := leNat bs.reverse

/-- ceil(len / 8): the bytes a code of `len` bits takes (R172). -/
def codeByteCount (len : Nat) : Nat := (len + 7) / 8

/-- CODEBYTES: the code's bits from bit 7 of the first byte on, zero-padded (R172). -/
def codeBytes (e : Entry) : List Byte :=
  (leBytes (codeByteCount e.len) (e.val.toNat * 2 ^ (8 * codeByteCount e.len - e.len))).reverse

/-- ENTRY = u32le(sym) || u8(len) || CODEBYTES (R172). -/
def serializeEntry (e : Entry) : List Byte :=
  leBytes 4 e.sym.toNat ++ leBytes 1 e.len ++ codeBytes e

/-- TABLE = u32le(NENT) || ENTRY_0 || ... (R172). -/
def serializeTable (t : List Entry) : List Byte :=
  leBytes 4 t.length ++ t.flatMap serializeEntry

/-- container = u64le(table_len) || TABLE || PAYLOAD || tail (R170, R171). -/
def container (table payload : List Byte) (tail : Nat) : List Byte :=
  leBytes 8 table.length ++ table ++ payload ++ leBytes 1 tail

/-- The loop of parse_table (R175): `n` entries still to read, the symbol before, and the bytes left. -/
def parseEntries (lMax : Nat) : Nat → Option Nat → List Byte → Except HostError (List Entry)
  | 0, _, rest => if rest = [] then .ok [] else .error .SerializationFailure
  | n + 1, prev, rest =>
    if rest.length < 5 then .error .SerializationFailure
    else
      let s := leNat (rest.take 4)
      let len := leNat ((rest.drop 4).take 1)
      let body := rest.drop 5
      let nb := codeByteCount len
      let x := beNat (body.take nb)
      if !scalarNat s || len < 1 || lMax < len then .error .SerializationFailure
      else if body.length < nb then .error .SerializationFailure
      else if x % 2 ^ (8 * nb - len) ≠ 0 then .error .SerializationFailure
      else if prev.any (fun p => s ≤ p) then .error .SerializationFailure
      else
        match parseEntries lMax n (some s) (body.drop nb) with
        | .error e => .error e
        | .ok es =>
          .ok ({ sym := BitVec.ofNat 21 s, len := len, val := BitVec.ofNat 64 (x / 2 ^ (8 * nb - len)) } :: es)

/-- parse_table (R175). CORRUPT_TABLE is the host's SerializationFailure (60_exceptions.md R230, R236). -/
def parseTable (lMax : Nat) (tbl : List Byte) : Except HostError (List Entry) :=
  if tbl.length < 4 then .error .SerializationFailure
  else parseEntries lMax (leNat (tbl.take 4)) none (tbl.drop 4)

/-- parse (R175): the table's entries, the payload and the tail count; the checks are made in the rule's order. -/
def parse (lMax : Nat) (c : List Byte) : Except HostError (List Entry × List Byte × Nat) :=
  let n := c.length
  if n < 9 then .error .MalformedContainer
  else
    let l := leNat (c.take 8)
    if n < 8 + l + 1 then .error .MalformedContainer
    else
      let tbl := (c.drop 8).take l
      let payload := (c.drop (8 + l)).take (n - 1 - (8 + l))
      let t := leNat (c.drop (n - 1))
      if t < 1 ∨ 8 < t then .error .MalformedContainer
      else if payload = [] ∧ t ≠ 8 then .error .MalformedContainer
      else
        match parseTable lMax tbl with
        | .error e => .error e
        | .ok es => .ok (es, payload, t)

end Sys2Proof.Machine
end

