-- ==== Sys2Proof/Machine/HostProc.lean ====
section
/-! DEFINITION. The host's side: the lines and pseudo-commands of spec/30_encoding.md R114, R115 and the procedures of
spec/43_container.md R176, R177, as programs over the machine's own turns. When the engine takes its turn is open
(70_reset_and_hazards.md R264, R265): `polls`, given from outside, says for each WAIT how many reads of STATUS come before
the engine's turn, for each command line of a procedure a count of its own, so that every schedule is covered
(log 10). -/

namespace Sys2Proof.Machine

/-- A host program: it acts on the machine and learns what the bus answers. -/
abbrev HostM := StateM State

/-- An agent's turn. No access of a host procedure leaves the window and no command stops, so no turn taken here stops
the machine; a stop would leave the state as it is. -/
def take (m : Move) : HostM Unit := fun s =>
  match act m s with
  | .next t => ((), t)
  | .fault _ => ((), s)
  | .refused _ => ((), s)

/-- `WR reg, value` (R114). -/
def wr (r : Reg) (v : Word) : HostM Unit := do
  take (.hostWrite ((← get).cfg.base + r.offset) 4 v)

/-- `RD reg` (R114). -/
def rd (r : Reg) : HostM Word := do
  take (.hostRead ((← get).cfg.base + r.offset) 4)
  return (← get).resp.value

/-- `WAIT` (R114): `RD STATUS` repeated until bit 0 reads 0; the last word read. While BUSY = 1 the engine's turn comes
after `polls` reads (R264 leaves open how many; log 10), and the read that follows it finds BUSY = 0, because every engine
turn ends with no command latched. With BUSY = 0 the first read ends the WAIT, whatever `polls` is: an engine turn
before it passes with no change. -/
def wait : Nat → HostM Word
  | 0 => do
    take .engine
    rd .STATUS
  | polls + 1 => do
    let v ← rd .STATUS
    if v.getLsbD 0 then wait polls else return v

/-- A command line ending in `!` (R114): the word is written to CMD, and there is no WAIT. The engine's turn, enabled
while BUSY = 1, comes in the program wherever the schedule has it, as `take .engine`. -/
def commandNoWait (i : Instr) : HostM Unit := wr .CMD (encode i)

/-- A command line (R114): the word is written to CMD, and a WAIT follows, also when the word was dropped. -/
def command (polls : Nat) (i : Instr) : HostM Unit := do
  commandNoWait i
  let _ ← wait polls

/-- The schedule of a procedure: `polls j k` is how many reads of STATUS come before the engine's turn in the WAIT of the
`k`-th run of the procedure's `j`-th command line, both counted from 0 (log 10). No two lines need have the same. -/
abbrev Schedule := Nat → Nat → Nat

/-- `SETARG v` (R115). -/
def setArg (v : BitVec 64) : HostM Unit := do
  wr .ARG_LO (v.extractLsb' 0 32)
  wr .ARG_HI (v.extractLsb' 32 32)

/-- `FT_SETV sym, v` (R115). -/
def ftSetV (polls : Nat) (s : Sym) (v : Count) : HostM Unit := do
  setArg v
  command polls (.ftSet s)

/-- `DT_LOADC sym, bits` with the code (len, val) of the bits (R115). -/
def dtLoadC (polls : Nat) (e : Entry) : HostM Unit := do
  setArg e.val
  wr .ARG2 (BitVec.ofNat 32 e.len)
  command polls (.dtLoad e.sym)

/-- `FT_INC c` for every character of the text, in order. -/
def countAll (polls : Nat → Nat) : List Sym → HostM Unit
  | [] => pure ()
  | c :: rest => do
    command (polls 0) (.ftInc c)
    countAll (fun k => polls (k + 1)) rest

/-- `COUNT_TEXT t` (R115). -/
def countText (polls : Nat → Nat) (text : List Sym) : HostM Unit := do
  command (polls 0) .ftClear
  countAll (fun k => polls (k + 1)) text

/-- `RD OUT_DATA` repeated until VALID = 0, at most `fuel` times: the bytes read. -/
def drainOut : Nat → HostM (List Byte)
  | 0 => pure []
  | fuel + 1 => do
    let v ← rd .OUT_DATA
    if v.getLsbD 31 then
      let rest ← drainOut fuel
      return v.extractLsb' 0 8 :: rest
    else return []

/-- `DRAIN_SYMS` (R115): `RD SYM_DATA` repeated until VALID = 0, at most `fuel` times. -/
def drainSyms : Nat → HostM (List Sym)
  | 0 => pure []
  | fuel + 1 => do
    let v ← rd .SYM_DATA
    if v.getLsbD 31 then
      let rest ← drainSyms fuel
      return v.extractLsb' 0 21 :: rest
    else return []

/-- All of OUTQ, and the read that finds it empty. -/
def drainAllOut : HostM (List Byte) := do drainOut ((← get).outq.length + 1)

/-- All of SYMQ, and the read that finds it empty. -/
def drainAllSyms : HostM (List Sym) := do drainSyms ((← get).symq.length + 1)

/-- `ENC_TEXT t` (R115): the payload bytes that come out on the way. -/
def encText (polls : Nat → Nat) : List Sym → HostM (List Byte)
  | [] => pure []
  | c :: rest => do
    command (polls 0) (.encSymbol c)
    let bytes ← drainAllOut
    return bytes ++ (← encText (fun k => polls (k + 1)) rest)

/-- `CT_READ i`, and the entry its result registers show (R176; the fields are those of 10_state.md R34). -/
def readEntry (polls : Nat) (i : Nat) : HostM Entry := do
  command polls (.ctRead (BitVec.ofNat 24 i))
  let lo ← rd .RES_LO
  let hi ← rd .RES_HI
  let aux ← rd .RES_AUX
  return { sym := aux.extractLsb' 0 21, len := (aux.extractLsb' 24 7).toNat, val := hi ++ lo }

/-- The entries with the given indices, in order. -/
def readEntries (polls : Nat → Nat) : List Nat → HostM (List Entry)
  | [] => pure []
  | i :: rest => do
    let e ← readEntry (polls 0) i
    return e :: (← readEntries (fun k => polls (k + 1)) rest)

/-- The host's error for a code read from ERRCODE (60_exceptions.md R236). -/
def hostErrorOf (code : BitVec 8) : HostError :=
  if code = ErrCode.MISSING_CODE.code then .MissingCode
  else if code = ErrCode.UNDECODABLE.code then .UndecodableSequence
  else if code = ErrCode.CORRUPT_TABLE.code then .SerializationFailure
  else if code = ErrCode.MALFORMED_CONTAINER.code then .MalformedContainer
  else if code = ErrCode.CAPACITY.code ∨ code = ErrCode.FREQ_OVERFLOW.code ∨ code = ErrCode.CODE_TOO_LONG.code then
    .ResourceLimit
  else .HostProtocolError

/-- The host reads ERRCODE (60_exceptions.md R223) and reports its error. -/
def reportError {α : Type} : HostM (Except HostError α) := do
  let ec ← rd .ERRCODE
  return .error (hostErrorOf (ec.extractLsb' 0 8))

/-- Host `encode(text)` (R176), under any schedule of the engine's turns (log 10). The bound NCT of the CT_READ loop is
read from the register NCT once, after GEN_TABLE: R176 has no line for how the host learns it, and the read is the
model's choice (DESIGN CHOICE, log 13). -/
def hostEncode (polls : Schedule) (text : List Sym) : HostM (Except HostError (List Byte)) := do
  countText (polls 0) text
  command (polls 1 0) .buildTree
  command (polls 2 0) .genTable
  let nct ← rd .NCT
  let entries ← readEntries (polls 3) (List.range nct.toNat)
  let body ← encText (polls 4) text
  command (polls 5 0) .encFlush
  let last ← drainAllOut
  let tail ← rd .TAIL
  let st ← rd .STATUS
  if st.getLsbD 1 then reportError
  else return .ok (container (serializeTable entries) (body ++ last) tail.toNat)

/-- `DT_LOADC` for every entry, in order (R177). -/
def loadAll (polls : Nat → Nat) : List Entry → HostM Unit
  | [] => pure ()
  | e :: rest => do
    dtLoadC (polls 0) e
    loadAll (fun k => polls (k + 1)) rest

/-- The payload, fed byte by byte and drained after each: `DEC_BYTE` for all but the last, `DEC_LAST` for that one
(R177). -/
def feed (polls : Nat → Nat) (tail : Nat) : List Byte → HostM (List Sym)
  | [] => pure []
  | [b] => do
    command (polls 0) (.decLast b (BitVec.ofNat 4 tail))
    drainAllSyms
  | b :: rest => do
    command (polls 0) (.decByte b)
    let syms ← drainAllSyms
    return syms ++ (← feed (fun k => polls (k + 1)) tail rest)

/-- Host `decode(container)` (R177), under any schedule of the engine's turns (log 10). L_MAX is read from CAP_LMAX
before the parse: R177 has no line for how the host learns it, and the read is the model's choice (DESIGN CHOICE,
log 13). -/
def hostDecode (polls : Schedule) (c : List Byte) : HostM (Except HostError (List Sym)) := do
  let lMax ← rd .CAP_LMAX
  match parse lMax.toNat c with
  | .error e => return .error e
  | .ok (entries, payload, tail) =>
    command (polls 0 0) .dtClear
    loadAll (polls 1) entries
    command (polls 2 0) .dtCommit
    let text ← feed (polls 3) tail payload
    command (polls 4 0) .decEnd
    let st ← rd .STATUS
    if !st.getLsbD 1 && st.getLsbD 6 then return .ok text
    else reportError

end Sys2Proof.Machine
end

