-- ==== Sys2Proof/Safety.lean ====
section
/-! DEFINITION. What the spec promises of every state a run reaches (spec/10_state.md), and what a safe run of a host
program is (spec/60_exceptions.md R224). -/

namespace Sys2Proof.Machine

/-! ### The bits in flight -/

/-- The bits the encoder has produced and the host has not read: those of OUTQ, then the NBITS held in ACC
(20_memory.md R84, 10_state.md R50). -/
def State.encodedBits (s : State) : List Bool :=
  s.outq.flatMap (fun b => byteBits b 8) ++ byteBits s.acc s.nbits

/-- The bits in the decoder's window, first bit first (10_state.md R52). -/
def State.windowBits (s : State) : List Bool := codeBits s.wlen s.w

/-- The bit string of an entry's code. -/
def Entry.bits (e : Entry) : List Bool := codeBits e.len e.val

/-- The bit string of a sequence of entries: the concatenation of their codes. -/
def bitsOf (es : List Entry) : List Bool := es.flatMap Entry.bits

/-- The bit string of a payload whose last byte has `tail` valid bits (44_decoder.md R189). -/
def unpackBits (tail : Nat) : List Byte → List Bool
  | [] => []
  | [b] => byteBits b tail
  | b :: rest => byteBits b 8 ++ unpackBits tail rest

/-- The number a bit string stands for, first bit most significant (00_scope.md R13). -/
def bitsValue (bits : List Bool) : Nat := bits.foldl (fun v b => 2 * v + b.toNat) 0

/-! ### What every reachable state has -/

/-- The builder: FT in canonical form within its capacity (10_state.md R46); while TREE_VALID = 1, NODES holds the tree
of the current FT (R20), and otherwise no node (40_tree_builder.md R126). -/
structure State.BuilderInv (s : State) : Prop where
  ftForm : ftWf s.ft = true
  ftRoom : s.ft.length ≤ s.cfg.nSym
  tree : s.treeValid = true → buildNodes s.ft = .ok s.nodes
  noTree : s.treeValid = false → s.nodes = []

/-- The generator: while CT_VALID = 1, CT holds the code table of the current tree and CTMAXLEN its longest length
(10_state.md R20, R48), and otherwise no entry and 0. -/
structure State.GeneratorInv (s : State) : Prop where
  table : s.ctValid = true →
    s.treeValid = true ∧ codeTable s.cfg.lMax s.nodes = .ok s.ct ∧ s.ctMaxLen = maxLen s.ct
  noTable : s.ctValid = false → s.ct = [] ∧ s.ctMaxLen = 0

/-- The encoder: NBITS is 0 to 7, the bits of ACC below the held ones are 0 (10_state.md R50), TAIL is 0 to 8 (R40),
and OUTQ is within its capacity (R51). -/
structure State.EncoderInv (s : State) : Prop where
  nbitsRange : s.nbits < 8
  accPadding : ∀ i, i + s.nbits < 8 → s.acc.getLsbD i = false
  tailRange : s.tail ≤ 8
  outqRoom : s.outq.length ≤ s.cfg.outDepth

/-- The decoder: the entries of DT are legal codes of scalar symbols within the capacity (10_state.md R49); while
DT_VALID = 1 the symbols are distinct, the codes are prefix-free and DTMAXLEN is the longest length (R49); W holds
exactly WLEN bits, and WLEN < DTMAXLEN or WLEN = 0 (R52); no code has been completed in the window (44_decoder.md R186);
SYMQ holds scalar symbols within its capacity (R54). The clauses about DT_VALID = 0 and about DONE are read off the
commands that set them. -/
structure State.DecoderInv (s : State) : Prop where
  dtRoom : s.dt.length ≤ s.cfg.nSym
  dtEntries : ∀ e ∈ s.dt, scalar e.sym = true ∧ codeLegal s.cfg.lMax e.len e.val = true
  committed : s.dtValid = true →
    hasDuplicateSym s.dt = false ∧ hasPrefixPair s.dt = false ∧ s.dtMaxLen = maxLen s.dt
  loading : s.dtValid = false → s.dtMaxLen = 0 ∧ s.wlen = 0 ∧ s.phase = .OPEN ∧ s.done = false
  windowBits : s.w.toNat < 2 ^ s.wlen
  windowShort : s.wlen = 0 ∨ s.wlen < s.dtMaxLen
  windowOpen : ∀ e ∈ s.dt, ¬ e.bits <+: s.windowBits
  doneClean : s.done = true → s.phase = .OPEN ∧ s.wlen = 0
  symqRoom : s.symq.length ≤ s.cfg.symDepth
  symqScalar : ∀ c ∈ s.symq, scalar c = true

/-- The error state: ECODE = EOPC = 0 whenever ERR = 0 (10_state.md R56), and a recorded error has a code other than
NONE (60_exceptions.md R226). -/
structure State.ErrorInv (s : State) : Prop where
  quiet : s.err = false → s.ecode = .NONE ∧ s.eopc = 0#8
  raised : s.err = true → s.ecode ≠ .NONE

/-- What every step keeps: parameters within their bounds (00_scope.md R7) and the five groups above. -/
structure State.Inv (s : State) : Prop where
  params : s.cfg.wf = true
  builder : s.BuilderInv
  generator : s.GeneratorInv
  encoder : s.EncoderInv
  decoder : s.DecoderInv
  error : s.ErrorInv

/-- A safe state of a host program: it has made no bus error, and the block reports no error (60_exceptions.md R224). -/
def State.safe (s : State) : Bool := !s.busFault && !s.err

/-! ### What the generator's walk finds (41_code_table.md R148) -/

/-- Following `bits` from node `i`, 0 to the left child and 1 to the right, one comes to the leaf of symbol `s`. -/
inductive CodePath (nodes : List Node) : Nat → List Bool → Sym → Prop where
  | leaf {i : Nat} {f : Count} {s : Sym} (h : nodes[i]? = some (.leaf f s)) : CodePath nodes i [] s
  | left {i l r : Nat} {f : Count} {bits : List Bool} {s : Sym} (h : nodes[i]? = some (.internal f l r))
      (p : CodePath nodes l bits s) : CodePath nodes i (false :: bits) s
  | right {i l r : Nat} {f : Count} {bits : List Bool} {s : Sym} (h : nodes[i]? = some (.internal f l r))
      (p : CodePath nodes r bits s) : CodePath nodes i (true :: bits) s

/-! ### What the builder's queue holds (40_tree_builder.md R132 to R134) -/

/-- Node `j` is a child of node `m`. -/
def isChildOf (nodes : List Node) (j m : Nat) : Prop :=
  ∃ f l r, nodes[m]? = some (.internal f l r) ∧ (j = l ∨ j = r)

/-- Node `j` is in the queue when node `m` is made: it exists and is no node's child yet. -/
def inQueue (nodes : List Node) (m j : Nat) : Prop :=
  j < m ∧ ∀ k, k < m → ¬ isChildOf nodes j k

/-- The key of the node at index `i`. -/
def keyAt (nodes : List Node) (i : Nat) : Nat × Nat × Nat :=
  match nodes[i]? with
  | some n => nodeKey n i
  | none => (0, 0, 0)

/-- The frequency of the node at index `i`. -/
def freqAt (nodes : List Node) (i : Nat) : Nat :=
  match nodes[i]? with
  | some n => n.freq.toNat
  | none => 0

/-- The sum of the counts of a frequency table: the number of characters of the text it counts. -/
def ftTotal (ft : List (Sym × Count)) : Nat := (ft.map fun p => p.2.toNat).sum

/-- The frequency table of a text: FT_INC once per character, in order (40_tree_builder.md R125). -/
def ftOfText (text : List Sym) : List (Sym × Count) :=
  text.foldl (fun ft c => ftPut ft c (ftCount ft c + 1#64)) []

/-! ### Command words and latched commands -/

/-- A latched word `w` makes the engine fail with ILLEGAL_CMD (30_encoding.md R109, R112). -/
def WordIllegal (w : Word) : Prop :=
  ∀ (s : State) (a : BitVec 64) (a2 : BitVec 7), s.pend = some { word := w, arg := a, arg2 := a2 } →
    engineStep s = .next (s.recordError .ILLEGAL_CMD (opcField w)).clearPend

/-- A latched word `w` makes the engine execute the command `i` and free the latch (30_encoding.md R112). -/
def WordRuns (w : Word) (i : Instr) : Prop :=
  ∀ (s t : State) (a : BitVec 64) (a2 : BitVec 7), s.pend = some { word := w, arg := a, arg2 := a2 } →
    exec i s = .next t → engineStep s = .next t.clearPend

/-- Opcode `opc` has format N and is the command `i` (30_encoding.md R102, R108). -/
def HasFormatN (opc : BitVec 8) (i : Instr) : Prop :=
  ∀ w, opcField w = opc → (opndField w = 0#24 → WordRuns w i) ∧ (opndField w ≠ 0#24 → WordIllegal w)

/-- Opcode `opc` has format S and is the command `mk SYM` (30_encoding.md R103, R108). -/
def HasFormatS (opc : BitVec 8) (mk : Sym → Instr) : Prop :=
  ∀ w, opcField w = opc →
    (w.extractLsb' 21 3 = 0#3 → WordRuns w (mk (w.extractLsb' 0 21))) ∧
      (w.extractLsb' 21 3 ≠ 0#3 → WordIllegal w)

/-- Opcode `opc` has format I and is the command `mk IDX` (30_encoding.md R104, R108). -/
def HasFormatI (opc : BitVec 8) (mk : BitVec 24 → Instr) : Prop :=
  ∀ w, opcField w = opc → WordRuns w (mk (w.extractLsb' 0 24))

/-- Opcode `opc` has format B and is the command `mk BYTE` (30_encoding.md R105, R108). -/
def HasFormatB (opc : BitVec 8) (mk : Byte → Instr) : Prop :=
  ∀ w, opcField w = opc →
    (w.extractLsb' 8 16 = 0#16 → WordRuns w (mk (w.extractLsb' 0 8))) ∧
      (w.extractLsb' 8 16 ≠ 0#16 → WordIllegal w)

/-- Opcode `opc` has format T and is the command `mk BYTE TAILN` (30_encoding.md R106, R108). -/
def HasFormatT (opc : BitVec 8) (mk : Byte → BitVec 4 → Instr) : Prop :=
  ∀ w, opcField w = opc →
    (w.extractLsb' 12 12 = 0#12 → WordRuns w (mk (w.extractLsb' 0 8) (w.extractLsb' 8 4))) ∧
      (w.extractLsb' 12 12 ≠ 0#12 → WordIllegal w)

/-! ### Sequences of commands, as one host issues them with nothing in between -/

/-- A command written to CMD and then executed, if it was latched (30_encoding.md R111, R112). -/
def issue (i : Instr) (s : State) : Result := engineStep (submit (encode i) s)

/-- Commands issued one after another. -/
def issueAll : List Instr → State → Result
  | [], s => .next s
  | i :: rest, s =>
    match issue i s with
    | .next t => issueAll rest t
    | .fault f => .fault f
    | .refused r => .refused r

/-- The commands that feed a payload to the decoder and end the message (44_decoder.md R192). -/
def feedCommands (tail : Nat) : List Byte → List Instr
  | [] => [.decEnd]
  | [b] => [.decLast b (BitVec.ofNat 4 tail), .decEnd]
  | b :: rest => .decByte b :: feedCommands tail rest

/-- The bit string of a text: the codes of its characters in a table, in order (42_encoder.md R163). A character with
no entry adds nothing. -/
def textBits (t : List Entry) (text : List Sym) : List Bool :=
  text.flatMap fun c => match findSym t c with
    | some e => e.bits
    | none => []

end Sys2Proof.Machine
end

