-- ==== Sys2Proof/WellFormed.lean ====
section
/-! DEFINITION. When a command's operands are legal values (spec/30_encoding.md R103, R106). Every term of `Instr` has
an encoding; an ill-formed one is "a legal encoding with an illegal value", and its command raises BAD_SYMBOL or
MALFORMED_CONTAINER. -/

namespace Sys2Proof

/-- The operands in the command word are legal values. -/
def Instr.wellFormed : Instr → Bool
  | .nop => true
  | .errClr => true
  | .ftClear => true
  | .ftInc s => Machine.scalar s
  | .ftSet s => Machine.scalar s
  | .ftRead s => Machine.scalar s
  | .buildTree => true
  | .nodeRead _ => true
  | .genTable => true
  | .ctRead _ => true
  | .encSymbol s => Machine.scalar s
  | .encFlush => true
  | .dtClear => true
  | .dtLoad s => Machine.scalar s
  | .dtCommit => true
  | .dtFromCt => true
  | .decByte _ => true
  | .decLast _ t => Machine.tailLegal t
  | .decEnd => true

end Sys2Proof
end

