-- ==== Sys2Proof/Certificates/Slice0/Obligations.lean ====
section
/-! DEFINITION. The statements for the provers. Each docstring says which rule of spec/ it formalises. An equation
`exec i s = .next { s with … }` says the result and the frame at once: every field not written after `with` is
unchanged, and the block has no memory besides its fields (spec/20_memory.md R80). -/

open Sys2Proof Sys2Proof.Machine

/-! ### Encoding -/

/-- 30_encoding.md R102 to R106, R110, R116: decoding the encoding of any command, with every operand at every value,
gives the command back. -/
def Obligations.DecodeOfEncodeIsTheCommand : Prop :=
  ∀ i : Instr, decode (encode i) = .ok i

/-- 30_encoding.md R102 to R106, R110: a word that decodes to a command is that command's encoding, so no two words
decode to the same command and no bit is ignored. -/
def Obligations.EncodeOfDecodeIsTheWord : Prop :=
  ∀ (w : Word) (i : Instr), decode w = .ok i → encode i = w

/-- 30_encoding.md R109: a latched word with an opcode outside the map of R108, or with a must-be-0 bit that is not 0,
fails with ILLEGAL_CMD and has no other effect but freeing the latch. -/
def Obligations.ReservedOpcodesAndBitsAreIllegal : Prop :=
  ∀ w : Word,
    (opcField w ∉ [0x00#8, 0x01#8, 0x10#8, 0x11#8, 0x12#8, 0x13#8, 0x20#8, 0x21#8, 0x22#8, 0x23#8, 0x30#8, 0x31#8,
        0x40#8, 0x41#8, 0x42#8, 0x43#8, 0x48#8, 0x49#8, 0x4A#8] → WordIllegal w) ∧
    (opcField w ∈ [0x00#8, 0x01#8, 0x10#8, 0x20#8, 0x22#8, 0x31#8, 0x40#8, 0x42#8, 0x43#8, 0x4A#8] →
      w.extractLsb' 0 24 ≠ 0#24 → WordIllegal w) ∧
    (opcField w ∈ [0x11#8, 0x12#8, 0x13#8, 0x30#8, 0x41#8] → w.extractLsb' 21 3 ≠ 0#3 → WordIllegal w) ∧
    (opcField w = 0x48#8 → w.extractLsb' 8 16 ≠ 0#16 → WordIllegal w) ∧
    (opcField w = 0x49#8 → w.extractLsb' 12 12 ≠ 0#12 → WordIllegal w)

/-- 30_encoding.md R116: the rule's own example words, both ways, and its two Illegal words. -/
def Obligations.ExampleWordsOfTheSpecDecode : Prop :=
  decode 0x11000061#32 = .ok (.ftInc 0x61#21) ∧ encode (.ftInc 0x61#21) = 0x11000061#32 ∧
  decode 0x3010FFFF#32 = .ok (.encSymbol 0x10FFFF#21) ∧ encode (.encSymbol 0x10FFFF#21) = 0x3010FFFF#32 ∧
  decode 0x2100000E#32 = .ok (.nodeRead 14#24) ∧ encode (.nodeRead 14#24) = 0x2100000E#32 ∧
  decode 0x48000096#32 = .ok (.decByte 0x96#8) ∧ encode (.decByte 0x96#8) = 0x48000096#32 ∧
  decode 0x49000340#32 = .ok (.decLast 0x40#8 3#4) ∧ encode (.decLast 0x40#8 3#4) = 0x49000340#32 ∧
  decode 0x4A000000#32 = .ok .decEnd ∧ encode .decEnd = 0x4A000000#32 ∧
  decode 0x20000000#32 = .ok .buildTree ∧ encode .buildTree = 0x20000000#32 ∧
  decode 0x10000001#32 = .error .nonzeroMustBeZero ∧ decode 0x02000000#32 = .error .reservedOpcode

/-! ### Submitting and executing a command -/

/-- 30_encoding.md R111: a write of CMD. While BUSY = 1 it records BUSY_CMD and leaves the latch; otherwise, while
ERR = 1, every word but those of opcodes 0x00 and 0x01 is dropped; otherwise the word is latched with the values of ARG
and ARG2, and BUSY is 1. The bus answers with no error (with which value is left open: it is the model's, log 5). -/
def Obligations.CmdWriteSubmitsTheWord : Prop :=
  ∀ (s : State) (w : Word),
    (s.busy = true → ∃ v, hostWrite (s.cfg.base + 0x010) 4 w s =
      .next ((s.recordError .BUSY_CMD (w.extractLsb' 24 8)).answer v)) ∧
    (s.busy = false → s.err = true → w.extractLsb' 24 8 ∉ [0x00#8, 0x01#8] →
      ∃ v, hostWrite (s.cfg.base + 0x010) 4 w s = .next (s.answer v)) ∧
    (s.busy = false → (s.err = false ∨ w.extractLsb' 24 8 ∈ [0x00#8, 0x01#8]) →
      ∃ t v, hostWrite (s.cfg.base + 0x010) 4 w s = .next t ∧ t.busy = true ∧
        t = { s with
          pend := some { word := w, arg := s.arg, arg2 := s.arg2 }, resp := { value := v, error := false } })

/-- 30_encoding.md R112: when the latched word decodes to a command i, the engine's turn executes i and frees the latch.
The list of turns is the model's choice, and so is that the engine moves when none is listed (log 1). The first step
after `withFetchWord`, which is the model's choice too (log 9), does the same. A listed host access is what step
performs (20_memory.md R95), with the rest of the list left. -/
def Obligations.EngineTurnRunsTheDecodedCommand : Prop :=
  (∀ (s t : State) (p : Latched) (i : Instr) (rest : List Move), s.pend = some p → decode p.word = .ok i →
    (s.agenda = .engine :: rest → exec i { s with agenda := rest } = .next t → step s = .next t.clearPend) ∧
    (s.agenda = [] → exec i s = .next t → step s = .next t.clearPend)) ∧
  (∀ (s t : State) (i : Instr),
    exec i { s with pend := some { word := encode i, arg := s.arg, arg2 := s.arg2 } } = .next t →
    step (s.withFetchWord 32 (encode i).toNat) = .next t.clearPend) ∧
  (∀ (s : State) (addr width : Nat) (v : Word) (rest : List Move),
    (s.agenda = .hostRead addr width :: rest → step s = hostRead addr width { s with agenda := rest }) ∧
    (s.agenda = .hostWrite addr width v :: rest → step s = hostWrite addr width v { s with agenda := rest }))

/-- 60_exceptions.md R222: every command terminates, completed or failed, and an engine turn with BUSY = 1 always takes
place and leaves BUSY = 0. -/
def Obligations.EveryCommandTerminates : Prop :=
  (∀ (i : Instr) (s : State), ∃ t, exec i s = .next t) ∧
  (∀ s : State, s.busy = true → ∃ t, engineStep s = .next t ∧ t.busy = false)

/-- 30_encoding.md R112: a failed command changes only ERR, ECODE and EOPC, which record its error and its opcode; a
command that succeeds leaves the error state alone, but for ERR_CLR. -/
def Obligations.FailedCommandChangesOnlyTheErrorState : Prop :=
  ∀ (i : Instr) (s t : State), exec i s = .next t →
    (∃ e, e ≠ ErrCode.NONE ∧ t = s.recordError e i.opcode) ∨
    (i = .errClr ∧ t.err = false ∧ t.ecode = .NONE ∧ t.eopc = 0#8) ∨
    (t.err = s.err ∧ t.ecode = s.ecode ∧ t.eopc = s.eopc)

/-- The engine writes no interface register but the three results, and only FT_READ, NODE_READ and CT_READ write those
(10_state.md R31, R33 to R35); the parameters never change (R45), and the agenda, the bus's answer, the host's recorded
fault and the count of draws belong to the other agents. -/
def Obligations.CommandsKeepArgumentsParametersAndResults : Prop :=
  ∀ (i : Instr) (s t : State), exec i s = .next t →
    t.arg = s.arg ∧ t.arg2 = s.arg2 ∧ t.pend = s.pend ∧ t.cfg = s.cfg ∧ t.agenda = s.agenda ∧ t.resp = s.resp ∧
    t.busFault = s.busFault ∧ t.draws = s.draws ∧
    ((∀ c, i ≠ .ftRead c) → (∀ n, i ≠ .nodeRead n) → (∀ n, i ≠ .ctRead n) →
      t.res = s.res ∧ t.resAux = s.resAux ∧ t.resAux2 = s.resAux2)

/-- A latched command uses its snapshots: a write of ARG or ARG2 made while BUSY = 1 cannot change it (20_memory.md R99,
70_reset_and_hazards.md R261). -/
def Obligations.LatchedCommandIgnoresLaterArguments : Prop :=
  ∀ (i : Instr) (s t : State) (v : BitVec 64) (v2 : BitVec 7), s.busy = true → exec i s = .next t →
    exec i { s with arg := v, arg2 := v2 } = .next { t with arg := v, arg2 := v2 }

/-! ### The error state -/

/-- 60_exceptions.md R225: the first error since the last clear is recorded with its opcode, and a later one changes
nothing. -/
def Obligations.FirstErrorIsKept : Prop :=
  ∀ (s : State) (e : ErrCode) (opc : BitVec 8),
    (s.err = false → s.recordError e opc = { s with err := true, ecode := e, eopc := opc }) ∧
    (s.err = true → s.recordError e opc = s)

/-- ERR is sticky (10_state.md R56): a step that clears it is a hard reset, a write of CTRL with bit 0 = 1, or the
engine's turn on a latched ERR_CLR; every other step keeps the recorded error. -/
def Obligations.ErrorIsClearedOnlyByErrClrOrReset : Prop :=
  ∀ s t : State, step s = .next t → s.err = true →
    (t.err = true ∧ t.ecode = s.ecode ∧ t.eopc = s.eopc) ∨
    (t.err = false ∧ t.ecode = .NONE ∧ t.eopc = 0#8 ∧
      ((∃ rest, s.agenda = .hardReset :: rest) ∨
       (∃ v rest, s.agenda = .hostWrite (s.cfg.base + 0x004) 4 v :: rest ∧ v.getLsbD 0 = true) ∨
       (∃ p, s.pend = some p ∧ decode p.word = .ok .errClr ∧
         (s.agenda = [] ∨ ∃ rest, s.agenda = .engine :: rest))))

/-- 60_exceptions.md R231: the state preconditions. With the operand checks passed, each of the ten commands fails with
SEQUENCE when its precondition does not hold. -/
def Obligations.SequencePreconditions : Prop :=
  ∀ (s : State) (c : Sym) (n : BitVec 24) (b : Byte) (t : BitVec 4), scalar c = true → tailLegal t = true →
    (s.treeValid = false →
      exec (.nodeRead n) s = .next (s.recordError .SEQUENCE 0x21#8) ∧
      exec .genTable s = .next (s.recordError .SEQUENCE 0x22#8)) ∧
    (s.ctValid = false →
      exec (.ctRead n) s = .next (s.recordError .SEQUENCE 0x23#8) ∧
      exec (.encSymbol c) s = .next (s.recordError .SEQUENCE 0x30#8) ∧
      exec .dtFromCt s = .next (s.recordError .SEQUENCE 0x43#8)) ∧
    (s.dtValid = true →
      exec (.dtLoad c) s = .next (s.recordError .SEQUENCE 0x41#8) ∧
      exec .dtCommit s = .next (s.recordError .SEQUENCE 0x42#8)) ∧
    (s.dtValid = false ∨ s.phase = .LAST →
      exec (.decByte b) s = .next (s.recordError .SEQUENCE 0x48#8) ∧
      exec (.decLast b t) s = .next (s.recordError .SEQUENCE 0x49#8)) ∧
    (s.dtValid = false → exec .decEnd s = .next (s.recordError .SEQUENCE 0x4A#8))

/-- 60_exceptions.md R227: a format-S command whose SYM is above 0x10FFFF or in 0xD800 to 0xDFFF fails with BAD_SYMBOL
in every state. -/
def Obligations.NonScalarSymbolIsBadSymbol : Prop :=
  ∀ (s : State) (c : Sym), (0x10FFFF < c.toNat ∨ (0xD800 ≤ c.toNat ∧ c.toNat ≤ 0xDFFF)) →
    exec (.ftInc c) s = .next (s.recordError .BAD_SYMBOL 0x11#8) ∧
    exec (.ftSet c) s = .next (s.recordError .BAD_SYMBOL 0x12#8) ∧
    exec (.ftRead c) s = .next (s.recordError .BAD_SYMBOL 0x13#8) ∧
    exec (.encSymbol c) s = .next (s.recordError .BAD_SYMBOL 0x30#8) ∧
    exec (.dtLoad c) s = .next (s.recordError .BAD_SYMBOL 0x41#8)

/-! ### Control -/

/-- 45_control.md R211: NOP, the word 0x00000000, changes nothing but the latch. -/
def Obligations.NopChangesNothing : Prop :=
  HasFormatN 0x00#8 .nop ∧ decode 0x00000000#32 = .ok .nop ∧ ∀ s : State, exec .nop s = .next s

/-- 45_control.md R212: ERR_CLR clears the error state and aborts both streams, with ERR = 0 and with ERR = 1 alike, and
keeps the tables, the arguments and the results. -/
def Obligations.ErrClrClearsErrorAndStreams : Prop :=
  HasFormatN 0x01#8 .errClr ∧ ∀ s : State, exec .errClr s = .next { s with
    err := false, ecode := .NONE, eopc := 0#8
    acc := 0#8, nbits := 0, tail := 0, outq := []
    w := 0#64, wlen := 0, phase := .OPEN, done := false, symq := [] }

/-! ### The frequency table -/

/-- 40_tree_builder.md R127 (with R126): FT_CLEAR empties FT and invalidates the tree and the table. -/
def Obligations.FtClearEmptiesFt : Prop :=
  HasFormatN 0x10#8 .ftClear ∧ ∀ s : State, exec .ftClear s = .next { s with
    ft := [], treeValid := false, nodes := [], ctValid := false, ct := [], ctMaxLen := 0 }

/-- 40_tree_builder.md R128 (with R126): FT_INC s adds 1 to the count of s and to no other, and invalidates; its three
errors come in the order BAD_SYMBOL, CAPACITY, FREQ_OVERFLOW. -/
def Obligations.FtIncCountsOneOccurrence : Prop :=
  HasFormatS 0x11#8 .ftInc ∧ ∀ (s : State) (c : Sym),
    (scalar c = false → exec (.ftInc c) s = .next (s.recordError .BAD_SYMBOL 0x11#8)) ∧
    (scalar c = true → ftHas s.ft c = false → s.ft.length = s.cfg.nSym →
      exec (.ftInc c) s = .next (s.recordError .CAPACITY 0x11#8)) ∧
    (scalar c = true → ftHas s.ft c = true → ftCount s.ft c = 0xFFFFFFFFFFFFFFFF#64 →
      exec (.ftInc c) s = .next (s.recordError .FREQ_OVERFLOW 0x11#8)) ∧
    (scalar c = true → (ftHas s.ft c = true → ftCount s.ft c ≠ 0xFFFFFFFFFFFFFFFF#64) →
      (ftHas s.ft c = false → s.ft.length ≠ s.cfg.nSym) →
      ∃ ft : List (Sym × Count), exec (.ftInc c) s = .next { s with
          ft := ft, treeValid := false, nodes := [], ctValid := false, ct := [], ctMaxLen := 0 } ∧
        (∀ x, ftCount ft x = if x = c then ftCount s.ft c + 1#64 else ftCount s.ft x) ∧
        (∀ x, ftHas ft x = (x == c || ftHas s.ft x)) ∧
        (ftWf s.ft = true → ft.length = if ftHas s.ft c then s.ft.length else s.ft.length + 1))

/-- 40_tree_builder.md R129 (with R126): FT_SET s sets the count of s to the snapshot of ARG, removes s when that is 0,
and invalidates, also when FT keeps its value. -/
def Obligations.FtSetSetsTheCount : Prop :=
  HasFormatS 0x12#8 .ftSet ∧ ∀ (s : State) (c : Sym),
    (scalar c = false → exec (.ftSet c) s = .next (s.recordError .BAD_SYMBOL 0x12#8)) ∧
    (scalar c = true → s.snapArg ≠ 0#64 → ftHas s.ft c = false → s.ft.length = s.cfg.nSym →
      exec (.ftSet c) s = .next (s.recordError .CAPACITY 0x12#8)) ∧
    (scalar c = true → (s.snapArg = 0#64 ∨ ftHas s.ft c = true ∨ s.ft.length ≠ s.cfg.nSym) →
      ∃ ft : List (Sym × Count), exec (.ftSet c) s = .next { s with
          ft := ft, treeValid := false, nodes := [], ctValid := false, ct := [], ctMaxLen := 0 } ∧
        (∀ x, ftCount ft x = if x = c then s.snapArg else ftCount s.ft x) ∧
        (∀ x, ftHas ft x = if x = c then s.snapArg != 0#64 else ftHas s.ft x))

/-- 40_tree_builder.md R130: FT_READ s puts the count of s (0 if absent) in RES and 0 in RES_AUX and RES_AUX2. -/
def Obligations.FtReadReadsTheCount : Prop :=
  HasFormatS 0x13#8 .ftRead ∧ ∀ (s : State) (c : Sym),
    (scalar c = false → exec (.ftRead c) s = .next (s.recordError .BAD_SYMBOL 0x13#8)) ∧
    (scalar c = true → ftHas s.ft c = false →
      exec (.ftRead c) s = .next { s with res := 0#64, resAux := 0#32, resAux2 := 0#32 }) ∧
    (∀ n, scalar c = true → ftWf s.ft = true → (c, n) ∈ s.ft →
      exec (.ftRead c) s = .next { s with res := n, resAux := 0#32, resAux2 := 0#32 })

/-! ### The tree -/

/-- 40_tree_builder.md R131 to R137: from an FT in canonical form whose counts sum below 2^64, BUILD_TREE completes. The
first n nodes are the leaves in ascending symbol order; each later node is internal, its left child has the least key of
the queue, its right child the least of the rest, and its frequency is their sum; there are 2n - 1 nodes (none for
n = 0), and every node but the last is the child of exactly one node. -/
def Obligations.BuildTreeMergesLeastKeys : Prop :=
  HasFormatN 0x20#8 .buildTree ∧ ∀ s : State, ftWf s.ft = true → ftTotal s.ft < 2 ^ 64 →
    ∃ nodes : List Node, exec .buildTree s = .next { s with
        treeValid := true, nodes := nodes, ctValid := false, ct := [], ctMaxLen := 0 } ∧
      nodes.length = 2 * s.ft.length - 1 ∧
      (∀ (k : Nat) (c : Sym) (n : Count), s.ft[k]? = some (c, n) → nodes[k]? = some (Node.leaf n c)) ∧
      (∀ m : Nat, s.ft.length ≤ m → m < nodes.length → ∃ (f : Count) (l r : Nat),
        nodes[m]? = some (Node.internal f l r) ∧
        f.toNat = freqAt nodes l + freqAt nodes r ∧
        inQueue nodes m l ∧ inQueue nodes m r ∧ l ≠ r ∧
        (∀ j, inQueue nodes m j → j ≠ l → keyLt (keyAt nodes l) (keyAt nodes j) = true) ∧
        (∀ j, inQueue nodes m j → j ≠ l → j ≠ r → keyLt (keyAt nodes r) (keyAt nodes j) = true)) ∧
      (∀ j, j + 1 < nodes.length → ∃ m, isChildOf nodes j m ∧ ∀ m', isChildOf nodes j m' → m' = m)

/-- When the counts of an FT in canonical form sum to 2^64 or more, some merge sum of BUILD_TREE reaches 2^64, and the
command fails whole with FREQ_OVERFLOW (40_tree_builder.md R134, R135, R139). -/
def Obligations.BuildTreeOverflowFailsWhole : Prop :=
  ∀ s : State, ftWf s.ft = true → 2 ^ 64 ≤ ftTotal s.ft →
    exec .buildTree s = .next (s.recordError .FREQ_OVERFLOW 0x20#8)

/-- 40_tree_builder.md R138: NODE_READ i. The children of a node have smaller indices (10_state.md R47), and an arena has
fewer than 2^22 nodes, so their indices are below 2^24. -/
def Obligations.NodeReadReadsTheNode : Prop :=
  HasFormatI 0x21#8 .nodeRead ∧ ∀ (s : State) (i : BitVec 24),
    (s.treeValid = false → exec (.nodeRead i) s = .next (s.recordError .SEQUENCE 0x21#8)) ∧
    (s.treeValid = true → s.nodes.length ≤ i.toNat →
      exec (.nodeRead i) s = .next (s.recordError .INDEX_RANGE 0x21#8)) ∧
    (∀ f c, s.treeValid = true → s.nodes[i.toNat]? = some (.leaf f c) →
      exec (.nodeRead i) s = .next { s with res := f, resAux := c.setWidth 32, resAux2 := 0#32 }) ∧
    (∀ f l r, s.treeValid = true → s.nodes[i.toNat]? = some (.internal f l r) → l < 2 ^ 24 → r < 2 ^ 24 →
      exec (.nodeRead i) s = .next { s with
        res := f, resAux := 0x80000000#32 ||| BitVec.ofNat 32 l, resAux2 := BitVec.ofNat 32 r })

/-! ### The code table -/

/-- 41_code_table.md R146 to R148: GEN_TABLE. With no tree it fails with SEQUENCE. From the empty tree it makes the
empty table, from a lone leaf the code (1, 0). Otherwise an entry of the table is the path from the root to a leaf, 0
for left and 1 for right; the entries ascend by symbol; if some path is longer than L_MAX the command fails with
CODE_TOO_LONG. TREE_VALID keeps its value. -/
def Obligations.GenTableBindsLeavesToPaths : Prop :=
  HasFormatN 0x22#8 .genTable ∧ ∀ s : State,
    (s.treeValid = false → exec .genTable s = .next (s.recordError .SEQUENCE 0x22#8)) ∧
    (s.treeValid = true → s.nodes = [] →
      exec .genTable s = .next { s with ctValid := true, ct := [], ctMaxLen := 0 }) ∧
    (∀ f c, s.treeValid = true → s.nodes = [.leaf f c] → 1 ≤ s.cfg.lMax →
      exec .genTable s = .next { s with
        ctValid := true, ct := [{ sym := c, len := 1, val := 0#64 }], ctMaxLen := 1 }) ∧
    (s.BuilderInv → s.treeValid = true → 2 ≤ s.nodes.length →
      (∃ bits c, CodePath s.nodes (s.nodes.length - 1) bits c ∧ s.cfg.lMax < bits.length) →
      exec .genTable s = .next (s.recordError .CODE_TOO_LONG 0x22#8)) ∧
    (s.BuilderInv → s.cfg.lMax ≤ 64 → s.treeValid = true → 2 ≤ s.nodes.length →
      (∀ bits c, CodePath s.nodes (s.nodes.length - 1) bits c → bits.length ≤ s.cfg.lMax) →
      ∃ ct : List Entry, exec .genTable s = .next { s with ctValid := true, ct := ct, ctMaxLen := maxLen ct } ∧
        ct.Pairwise (fun a b => a.sym.toNat < b.sym.toNat) ∧
        (∀ e, e ∈ ct ↔ ∃ bits, CodePath s.nodes (s.nodes.length - 1) bits e.sym ∧
          e.len = bits.length ∧ e.val.toNat = bitsValue bits))

/-- 41_code_table.md R149: the entries of CT ascend by symbol, in the order of the leaves. -/
def Obligations.CodeTableAscendsLikeTheLeaves : Prop :=
  ∀ s : State, s.Inv → s.ctValid = true →
    s.ct.Pairwise (fun a b => a.sym.toNat < b.sym.toNat) ∧
    ∀ (k : Nat) (e : Entry), s.ct[k]? = some e → ∃ f, s.nodes[k]? = some (.leaf f e.sym)

/-- 41_code_table.md R150: while CT_VALID = 1, the symbols of CT are distinct and are those of FT; the codes are
prefix-free and distinct; for n ≥ 2 every length is 1 to n - 1 and the code is complete (the Kraft sum is 1); for n = 1
the Kraft sum is 1/2; and with L_MAX ≥ N_SYM - 1, GEN_TABLE never raises CODE_TOO_LONG. -/
def Obligations.CodeTableIsCompleteAndPrefixFree : Prop :=
  ∀ s : State, s.Inv →
    (s.ctValid = true →
      s.ct.Pairwise (fun a b => a.sym ≠ b.sym) ∧
      (∀ c, (∃ e ∈ s.ct, e.sym = c) ↔ ftHas s.ft c = true) ∧
      s.ct.Pairwise (fun a b => ¬ a.bits <+: b.bits ∧ ¬ b.bits <+: a.bits) ∧
      s.ct.Pairwise (fun a b => a.bits ≠ b.bits) ∧
      (2 ≤ s.ct.length → (∀ e ∈ s.ct, 1 ≤ e.len ∧ e.len ≤ s.ct.length - 1) ∧
        (s.ct.map fun e => 2 ^ (s.ctMaxLen - e.len)).sum = 2 ^ s.ctMaxLen) ∧
      (s.ct.length = 1 → 2 * (s.ct.map fun e => 2 ^ (s.ctMaxLen - e.len)).sum = 2 ^ s.ctMaxLen)) ∧
    (s.treeValid = true → s.cfg.nSym - 1 ≤ s.cfg.lMax →
      ∃ ct : List Entry, exec .genTable s = .next { s with ctValid := true, ct := ct, ctMaxLen := maxLen ct })

/-- 41_code_table.md R151: CT_READ i. -/
def Obligations.CtReadReadsTheEntry : Prop :=
  HasFormatI 0x23#8 .ctRead ∧ ∀ (s : State) (i : BitVec 24),
    (s.ctValid = false → exec (.ctRead i) s = .next (s.recordError .SEQUENCE 0x23#8)) ∧
    (s.ctValid = true → s.ct.length ≤ i.toNat →
      exec (.ctRead i) s = .next (s.recordError .INDEX_RANGE 0x23#8)) ∧
    (∀ e, s.ctValid = true → s.ct[i.toNat]? = some e →
      ∃ aux, exec (.ctRead i) s = .next { s with res := e.val, resAux := aux, resAux2 := 0#32 } ∧
        aux.extractLsb' 0 21 = e.sym ∧ aux.extractLsb' 24 7 = BitVec.ofNat 7 e.len ∧
        aux.extractLsb' 21 3 = 0#3 ∧ aux.getLsbD 31 = false)

/-! ### The encoder -/

/-- 42_encoder.md R160, R161: ENC_SYMBOL s. Its errors come in the order BAD_SYMBOL, SEQUENCE, MISSING_CODE,
FIFO_OVERFLOW, the last exactly when the bytes it would push exceed the room of OUTQ. Otherwise the bits produced so far
grow by the bits of the code, first bit first; floor((NBITS + len) / 8) bytes are pushed, NBITS becomes
(NBITS + len) mod 8, and the bits of ACC below the held ones stay 0. -/
def Obligations.EncSymbolAppendsTheCode : Prop :=
  HasFormatS 0x30#8 .encSymbol ∧ ∀ (s : State) (c : Sym),
    (scalar c = false → exec (.encSymbol c) s = .next (s.recordError .BAD_SYMBOL 0x30#8)) ∧
    (scalar c = true → s.ctValid = false → exec (.encSymbol c) s = .next (s.recordError .SEQUENCE 0x30#8)) ∧
    (scalar c = true → s.ctValid = true → (∀ e ∈ s.ct, e.sym ≠ c) →
      exec (.encSymbol c) s = .next (s.recordError .MISSING_CODE 0x30#8)) ∧
    (∀ e, scalar c = true → s.ctValid = true → findSym s.ct c = some e →
      s.cfg.outDepth < s.outq.length + (s.nbits + e.len) / 8 →
      exec (.encSymbol c) s = .next (s.recordError .FIFO_OVERFLOW 0x30#8)) ∧
    (∀ e, scalar c = true → s.ctValid = true → findSym s.ct c = some e → s.nbits < 8 →
      s.outq.length + (s.nbits + e.len) / 8 ≤ s.cfg.outDepth →
      ∃ acc out, exec (.encSymbol c) s = .next { s with
          acc := acc, nbits := (s.nbits + e.len) % 8, outq := s.outq ++ out } ∧
        out.length = (s.nbits + e.len) / 8 ∧
        ({ s with acc := acc, nbits := (s.nbits + e.len) % 8, outq := s.outq ++ out } : State).encodedBits =
          s.encodedBits ++ e.bits ∧
        ((∀ i, i + s.nbits < 8 → s.acc.getLsbD i = false) →
          ∀ i, i + (s.nbits + e.len) % 8 < 8 → acc.getLsbD i = false))

/-- 42_encoder.md R162: ENC_FLUSH pushes the held bits as a zero-padded byte and sets TAIL to their number, or pushes
nothing and sets TAIL to 8. It does not need CT_VALID. -/
def Obligations.EncFlushEndsTheMessage : Prop :=
  HasFormatN 0x31#8 .encFlush ∧ ∀ s : State,
    (0 < s.nbits → s.outq.length = s.cfg.outDepth →
      exec .encFlush s = .next (s.recordError .FIFO_OVERFLOW 0x31#8)) ∧
    (0 < s.nbits → s.outq.length ≠ s.cfg.outDepth →
      exec .encFlush s = .next { s with outq := s.outq ++ [s.acc], tail := s.nbits, acc := 0#8, nbits := 0 }) ∧
    (s.nbits = 0 → exec .encFlush s = .next { s with tail := 8, acc := 0#8, nbits := 0 }) ∧
    (s.EncoderInv → ∀ k, s.nbits ≤ k → k < 8 → s.acc.getLsbD (7 - k) = false)

/-- 42_encoder.md R163: a message encoded from NBITS = 0, every command of it succeeding, pushes pack(B) for the
concatenation B of its codes: B's bits in order, then zeros up to a whole byte; ceil(|B| / 8) bytes; and TAIL is 8 if
|B| is a multiple of 8, else |B| mod 8. -/
def Obligations.EncodedMessageIsThePackedCodes : Prop :=
  ∀ (s t : State) (text : List Sym), s.EncoderInv → s.nbits = 0 → s.pend = none → s.err = false →
    issueAll (text.map Instr.encSymbol ++ [.encFlush]) s = .next t → t.err = false →
    ∃ out, t = { s with
        outq := s.outq ++ out, acc := 0#8, nbits := 0
        tail := if (textBits s.ct text).length % 8 = 0 then 8 else (textBits s.ct text).length % 8 } ∧
      out.length = ((textBits s.ct text).length + 7) / 8 ∧
      out.flatMap (fun b => byteBits b 8) =
        textBits s.ct text ++ List.replicate (8 * out.length - (textBits s.ct text).length) false

/-! ### The decode table -/

/-- 44_decoder.md R180 (with R185): DT_CLEAR. -/
def Obligations.DtClearEmptiesDt : Prop :=
  HasFormatN 0x40#8 .dtClear ∧ ∀ s : State, exec .dtClear s = .next { s with
    dt := [], dtValid := false, dtMaxLen := 0
    w := 0#64, wlen := 0, phase := .OPEN, done := false, symq := [] }

/-- 44_decoder.md R181: DT_LOAD s appends (s, a2, a), with the snapshots a of ARG and a2 of ARG2; its errors come in the
order of the rule's checks. -/
def Obligations.DtLoadAppendsTheEntry : Prop :=
  HasFormatS 0x41#8 .dtLoad ∧ ∀ (s : State) (c : Sym),
    (scalar c = false → exec (.dtLoad c) s = .next (s.recordError .BAD_SYMBOL 0x41#8)) ∧
    (scalar c = true → s.dtValid = true → exec (.dtLoad c) s = .next (s.recordError .SEQUENCE 0x41#8)) ∧
    (scalar c = true → s.dtValid = false → s.dt.length = s.cfg.nSym →
      exec (.dtLoad c) s = .next (s.recordError .CAPACITY 0x41#8)) ∧
    (scalar c = true → s.dtValid = false → s.dt.length ≠ s.cfg.nSym →
      (s.snapArg2.toNat < 1 ∨ s.cfg.lMax < s.snapArg2.toNat ∨ 2 ^ s.snapArg2.toNat ≤ s.snapArg.toNat) →
      exec (.dtLoad c) s = .next (s.recordError .CORRUPT_TABLE 0x41#8)) ∧
    (scalar c = true → s.dtValid = false → s.dt.length ≠ s.cfg.nSym → 1 ≤ s.snapArg2.toNat →
      s.snapArg2.toNat ≤ s.cfg.lMax → s.snapArg.toNat < 2 ^ s.snapArg2.toNat →
      exec (.dtLoad c) s = .next { s with
        dt := s.dt ++ [{ sym := c, len := s.snapArg2.toNat, val := s.snapArg }] })

/-- 44_decoder.md R182 (with R184, R185): DT_COMMIT refuses a table with a symbol twice or with one code a prefix of
another, and otherwise makes it the active one, with the longest length in DTMAXLEN and the stream reset. -/
def Obligations.DtCommitValidatesTheTable : Prop :=
  HasFormatN 0x42#8 .dtCommit ∧ ∀ s : State,
    (s.dtValid = true → exec .dtCommit s = .next (s.recordError .SEQUENCE 0x42#8)) ∧
    (∀ (j k : Nat) (a b : Entry), s.dtValid = false → s.dt[j]? = some a → s.dt[k]? = some b → j ≠ k →
      (a.sym = b.sym ∨ (a.len ≤ b.len ∧ b.val >>> (b.len - a.len) = a.val)) →
      exec .dtCommit s = .next (s.recordError .CORRUPT_TABLE 0x42#8)) ∧
    (s.dtValid = false →
      (∀ (j k : Nat) (a b : Entry), s.dt[j]? = some a → s.dt[k]? = some b → j ≠ k →
        a.sym ≠ b.sym ∧ ¬ (a.len ≤ b.len ∧ b.val >>> (b.len - a.len) = a.val)) →
      ∃ n, exec .dtCommit s = .next { s with
          dtValid := true, dtMaxLen := n, w := 0#64, wlen := 0, phase := .OPEN, done := false, symq := [] } ∧
        (∀ e ∈ s.dt, e.len ≤ n) ∧ (s.dt = [] → n = 0) ∧ (s.dt ≠ [] → ∃ e ∈ s.dt, e.len = n))

/-- 44_decoder.md R183 (with R185): DT_FROM_CT copies CT to DT and commits it, whatever DT_VALID is. -/
def Obligations.DtFromCtCopiesTheTable : Prop :=
  HasFormatN 0x43#8 .dtFromCt ∧ ∀ s : State,
    (s.ctValid = false → exec .dtFromCt s = .next (s.recordError .SEQUENCE 0x43#8)) ∧
    (s.ctValid = true → exec .dtFromCt s = .next { s with
      dt := s.ct, dtValid := true, dtMaxLen := s.ctMaxLen
      w := 0#64, wlen := 0, phase := .OPEN, done := false, symq := [] })

/-- 44_decoder.md R184: the prefix test on (len, val) pairs is the ordinary prefix relation of their bit strings, and
equal codes are prefixes of each other. -/
def Obligations.PrefixTestIsThePrefixRelation : Prop :=
  ∀ a b : Entry, a.len ≤ 64 → b.len ≤ 64 → a.val.toNat < 2 ^ a.len → b.val.toNat < 2 ^ b.len →
    (a.isPrefixOf b = true ↔ a.len ≤ b.len ∧ b.val >>> (b.len - a.len) = a.val) ∧
    (a.isPrefixOf b = true ↔ a.bits <+: b.bits) ∧
    (a.len = b.len → a.val = b.val → a.isPrefixOf b = true ∧ b.isPrefixOf a = true)

/-! ### The decoder -/

/-- 44_decoder.md R190 (with R186, R187, R189): DEC_BYTE b. The bits held in the window and then the eight bits of b,
b[7] first, are read as whole codes and a rest no code has been completed in: then the codes' symbols are pushed and the
rest is the new window, unless SYMQ has no room for all of them, which is FIFO_OVERFLOW. If they cannot be read so, the
command fails with UNDECODABLE. -/
def Obligations.DecByteDecodesEightBits : Prop :=
  HasFormatB 0x48#8 .decByte ∧ ∀ (s : State) (b : Byte), s.cfg.wf = true → s.DecoderInv →
    (s.dtValid = false ∨ s.phase = .LAST →
      exec (.decByte b) s = .next (s.recordError .SEQUENCE 0x48#8)) ∧
    (∀ (es : List Entry) (rest : List Bool), s.dtValid = true → s.phase = .OPEN → (∀ e ∈ es, e ∈ s.dt) →
      s.windowBits ++ byteBits b 8 = bitsOf es ++ rest → (∀ e ∈ s.dt, ¬ e.bits <+: rest) →
      (rest = [] ∨ rest.length < s.dtMaxLen) →
      (s.symq.length + es.length ≤ s.cfg.symDepth → exec (.decByte b) s = .next { s with
        done := false, w := BitVec.ofNat 64 (bitsValue rest), wlen := rest.length
        symq := s.symq ++ es.map Entry.sym }) ∧
      (s.cfg.symDepth < s.symq.length + es.length →
        exec (.decByte b) s = .next (s.recordError .FIFO_OVERFLOW 0x48#8))) ∧
    (s.dtValid = true → s.phase = .OPEN →
      (¬ ∃ (es : List Entry) (rest : List Bool), (∀ e ∈ es, e ∈ s.dt) ∧
        s.windowBits ++ byteBits b 8 = bitsOf es ++ rest ∧ (∀ e ∈ s.dt, ¬ e.bits <+: rest) ∧
        (rest = [] ∨ rest.length < s.dtMaxLen)) →
      exec (.decByte b) s = .next (s.recordError .UNDECODABLE 0x48#8))

/-- 44_decoder.md R193 (with R186, R187, R189, R191): DEC_LAST b, t reads only the top t bits of b, in the way of
DEC_BYTE, and then PHASE is LAST; a tail count outside 1 to 8 is MALFORMED_CONTAINER in every state. -/
def Obligations.DecLastDecodesTheTailBits : Prop :=
  HasFormatT 0x49#8 .decLast ∧ ∀ (s : State) (b : Byte) (n : BitVec 4),
    (n.toNat < 1 ∨ 8 < n.toNat → exec (.decLast b n) s = .next (s.recordError .MALFORMED_CONTAINER 0x49#8)) ∧
    (1 ≤ n.toNat → n.toNat ≤ 8 → s.cfg.wf = true → s.DecoderInv →
      (s.dtValid = false ∨ s.phase = .LAST →
        exec (.decLast b n) s = .next (s.recordError .SEQUENCE 0x49#8)) ∧
      (∀ (es : List Entry) (rest : List Bool), s.dtValid = true → s.phase = .OPEN → (∀ e ∈ es, e ∈ s.dt) →
        s.windowBits ++ byteBits b n.toNat = bitsOf es ++ rest → (∀ e ∈ s.dt, ¬ e.bits <+: rest) →
        (rest = [] ∨ rest.length < s.dtMaxLen) →
        (s.symq.length + es.length ≤ s.cfg.symDepth → exec (.decLast b n) s = .next { s with
          phase := .LAST, done := false, w := BitVec.ofNat 64 (bitsValue rest), wlen := rest.length
          symq := s.symq ++ es.map Entry.sym }) ∧
        (s.cfg.symDepth < s.symq.length + es.length →
          exec (.decLast b n) s = .next (s.recordError .FIFO_OVERFLOW 0x49#8))) ∧
      (s.dtValid = true → s.phase = .OPEN →
        (¬ ∃ (es : List Entry) (rest : List Bool), (∀ e ∈ es, e ∈ s.dt) ∧
          s.windowBits ++ byteBits b n.toNat = bitsOf es ++ rest ∧ (∀ e ∈ s.dt, ¬ e.bits <+: rest) ∧
          (rest = [] ∨ rest.length < s.dtMaxLen)) →
        exec (.decLast b n) s = .next (s.recordError .UNDECODABLE 0x49#8)))

/-- 44_decoder.md R194: DEC_END. -/
def Obligations.DecEndChecksTheWindow : Prop :=
  HasFormatN 0x4A#8 .decEnd ∧ ∀ s : State,
    (s.dtValid = false → exec .decEnd s = .next (s.recordError .SEQUENCE 0x4A#8)) ∧
    (s.dtValid = true → s.wlen ≠ 0 → exec .decEnd s = .next (s.recordError .UNDECODABLE 0x4A#8)) ∧
    (s.dtValid = true → s.wlen = 0 →
      exec .decEnd s = .next { s with done := true, phase := .OPEN, w := 0#64 })

/-- 44_decoder.md R195: a message fed from the start of a stream with no draining on the way, with room in SYMQ for every
bit to be a symbol. When
its bit string is a concatenation of codes of DT, the commands succeed and push exactly the symbols of those codes, in
order, and no other sequence of entries has that bit string; when it is not, UNDECODABLE is recorded. -/
def Obligations.DecodedMessageIsTheParse : Prop :=
  ∀ (s : State) (payload : List Byte) (tail : Nat), s.cfg.wf = true → s.DecoderInv → s.dtValid = true →
    s.phase = .OPEN → s.wlen = 0 → s.pend = none → s.err = false → 1 ≤ tail → tail ≤ 8 →
    s.symq.length + 8 * payload.length ≤ s.cfg.symDepth →
    (∀ es : List Entry, (∀ e ∈ es, e ∈ s.dt) → unpackBits tail payload = bitsOf es →
      issueAll (feedCommands tail payload) s = .next { s with
        done := true, phase := .OPEN, w := 0#64, symq := s.symq ++ es.map Entry.sym } ∧
      ∀ es' : List Entry, (∀ e ∈ es', e ∈ s.dt) → unpackBits tail payload = bitsOf es' → es' = es) ∧
    ((¬ ∃ es : List Entry, (∀ e ∈ es, e ∈ s.dt) ∧ unpackBits tail payload = bitsOf es) →
      ∃ t, issueAll (feedCommands tail payload) s = .next t ∧ t.err = true ∧ t.ecode = .UNDECODABLE)

/-! ### The register window -/

/-- 20_memory.md R86: an access in the window of another width than 4, or not at a multiple of 4, is answered with an
error, a read by 0, changes no state of the block, and is recorded; and no step ever clears the record. -/
def Obligations.BusErrorIsRecordedAndHarmless : Prop :=
  (∀ (s : State) (off width : Nat) (v : Word), off < 4096 → (width ≠ 4 ∨ off % 4 ≠ 0) →
    hostRead (s.cfg.base + off) width s =
      .next { s with resp := { value := 0#32, error := true }, busFault := true } ∧
    ∃ r, hostWrite (s.cfg.base + off) width v s =
      .next { s with resp := { value := r, error := true }, busFault := true }) ∧
  (∀ s t : State, step s = .next t → s.busFault = true → t.busFault = true)

/-- While BUSY = 0 a read of any register but OUT_DATA and SYM_DATA answers the register's value and changes nothing
else (20_memory.md R88, R91, R93). -/
def Obligations.IdleReadHasNoSideEffect : Prop :=
  ∀ (s : State) (r : Reg), s.busy = false → r ≠ .OUT_DATA → r ≠ .SYM_DATA →
    hostRead (s.cfg.base + r.offset) 4 s = .next { s with resp := { value := r.value s, error := false } }

/-- What the registers show (10_state.md R26, R31 to R40, R42, R44, R45), within the bounds of 00_scope.md R7. -/
def Obligations.RegistersShowTheState : Prop :=
  ∀ s : State, s.Inv →
    Reg.ID.value s = 0x48434231#32 ∧ Reg.CTRL.value s = 0#32 ∧ Reg.CMD.value s = 0#32 ∧
    Reg.ARG_HI.value s ++ Reg.ARG_LO.value s = s.arg ∧ (Reg.ARG2.value s).toNat = s.arg2.toNat ∧
    Reg.RES_HI.value s ++ Reg.RES_LO.value s = s.res ∧
    Reg.RES_AUX.value s = s.resAux ∧ Reg.RES_AUX2.value s = s.resAux2 ∧
    (Reg.NSYM.value s).toNat = s.ft.length ∧ (Reg.NNODE.value s).toNat = s.nodes.length ∧
    (Reg.NCT.value s).toNat = s.ct.length ∧ (Reg.CTMAXLEN.value s).toNat = s.ctMaxLen ∧
    (Reg.NDT.value s).toNat = s.dt.length ∧ (Reg.DTMAXLEN.value s).toNat = s.dtMaxLen ∧
    (Reg.TAIL.value s).toNat = s.tail ∧
    (Reg.OUT_LEVEL.value s).toNat = s.outq.length ∧ (Reg.SYM_LEVEL.value s).toNat = s.symq.length ∧
    (Reg.CAP_NSYM.value s).toNat = s.cfg.nSym ∧ (Reg.CAP_LMAX.value s).toNat = s.cfg.lMax ∧
    (Reg.CAP_OUTD.value s).toNat = s.cfg.outDepth ∧ (Reg.CAP_SYMD.value s).toNat = s.cfg.symDepth

/-- The fields of STATUS (10_state.md R28). While BUSY = 1 a read of it has bit 0 = 1 and is otherwise a fresh free
value: the model follows R57, which leaves the whole word open, and R28 only bits 22:1 (log 6). -/
def Obligations.StatusShowsTheFlags : Prop :=
  ∀ s : State,
    (s.busy = false → hostRead (s.cfg.base + 0x008) 4 s =
      .next { s with resp := { value := s.status, error := false } }) ∧
    (s.busy = true → hostRead (s.cfg.base + 0x008) 4 s =
      .next { s with
        resp := { value := Config.freeWord s.draws ||| 1#32, error := false }, draws := s.draws + 1 }) ∧
    s.status.getLsbD 0 = s.busy ∧ s.status.getLsbD 1 = s.err ∧ s.status.getLsbD 2 = s.treeValid ∧
    s.status.getLsbD 3 = s.ctValid ∧ s.status.getLsbD 4 = s.dtValid ∧
    s.status.getLsbD 5 = decide (s.phase = .LAST) ∧ s.status.getLsbD 6 = s.done ∧ s.status.getLsbD 7 = false ∧
    (s.nbits < 8 → (s.status.extractLsb' 8 3).toNat = s.nbits) ∧ s.status.extractLsb' 11 5 = 0#5 ∧
    (s.wlen ≤ 64 → (s.status.extractLsb' 16 7).toNat = s.wlen) ∧ s.status.extractLsb' 23 9 = 0#9

/-- 10_state.md R29, R56 and 60_exceptions.md R226: the fields of ERRCODE, and that it reads 0 while ERR = 0. -/
def Obligations.ErrcodeShowsCodeAndOpcode : Prop :=
  ∀ s : State,
    s.errcode.extractLsb' 0 8 = s.ecode.code ∧ s.errcode.extractLsb' 8 8 = s.eopc ∧
    s.errcode.extractLsb' 16 16 = 0#16 ∧ (s.ErrorInv → s.err = false → s.errcode = 0#32)

/-- 10_state.md R41: OUT_DATA, a read, and its value after reset. -/
def Obligations.OutDataPopsOneByte : Prop :=
  ∀ s : State,
    (∀ b rest, s.busy = false → s.outq = b :: rest → hostRead (s.cfg.base + 0x04C) 4 s =
      .next { s with outq := rest, resp := { value := 0x80000000#32 ||| b.setWidth 32, error := false } }) ∧
    ((s.outq = [] ∨ s.busy = true) → hostRead (s.cfg.base + 0x04C) 4 s =
      .next { s with resp := { value := 0#32, error := false } }) ∧
    ∀ p, (State.resetWith p).outq = [] ∧ Reg.OUT_DATA.value (State.resetWith p) = 0#32

/-- 10_state.md R43: SYM_DATA, a read, and its value after reset. -/
def Obligations.SymDataPopsOneSymbol : Prop :=
  ∀ s : State,
    (∀ c rest, s.busy = false → s.symq = c :: rest → hostRead (s.cfg.base + 0x054) 4 s =
      .next { s with symq := rest, resp := { value := 0x80000000#32 ||| c.setWidth 32, error := false } }) ∧
    ((s.symq = [] ∨ s.busy = true) → hostRead (s.cfg.base + 0x054) 4 s =
      .next { s with resp := { value := 0#32, error := false } }) ∧
    ∀ p, (State.resetWith p).symq = [] ∧ Reg.SYM_DATA.value (State.resetWith p) = 0#32

/-- 10_state.md R57: reads while BUSY = 1. ID, CTRL, CMD, ARG_LO, ARG_HI, ARG2 and the CAP registers return their usual
values, OUT_DATA and SYM_DATA return 0 without popping, and every other register a fresh free value, in STATUS with bit
0 = 1. That a fresh free value is `Config.freeWord` at the count of draws is the model's choice of form, and that
bits 31:23 of STATUS are free too, where R28 frees bits 22:1, is its reading (log 6). -/
def Obligations.BusyReadsAreFreeDraws : Prop :=
  ∀ (s : State) (r : Reg), s.busy = true →
    (r ∈ [.ID, .CTRL, .CMD, .ARG_LO, .ARG_HI, .ARG2, .CAP_NSYM, .CAP_LMAX, .CAP_OUTD, .CAP_SYMD] →
      hostRead (s.cfg.base + r.offset) 4 s = .next { s with resp := { value := r.value s, error := false } }) ∧
    (r ∈ [.OUT_DATA, .SYM_DATA] →
      hostRead (s.cfg.base + r.offset) 4 s = .next { s with resp := { value := 0#32, error := false } }) ∧
    (r ∉ [.ID, .CTRL, .CMD, .ARG_LO, .ARG_HI, .ARG2, .CAP_NSYM, .CAP_LMAX, .CAP_OUTD, .CAP_SYMD, .OUT_DATA,
        .SYM_DATA] →
      ∃ v, hostRead (s.cfg.base + r.offset) 4 s =
          .next { s with resp := { value := v, error := false }, draws := s.draws + 1 } ∧
        (r = .STATUS → v = Config.freeWord s.draws ||| 1#32) ∧ (r ≠ .STATUS → v = Config.freeWord s.draws))

/-- 20_memory.md R94: the unmapped offsets read 0, ignore writes, and are no bus error. -/
def Obligations.UnmappedOffsetsReadZero : Prop :=
  ∀ (s : State) (off : Nat) (v : Word), 0x06C ≤ off → off ≤ 0xFFC → off % 4 = 0 →
    hostRead (s.cfg.base + off) 4 s = .next { s with resp := { value := 0#32, error := false } } ∧
    ∃ r, hostWrite (s.cfg.base + off) 4 v s = .next { s with resp := { value := r, error := false } }

/-- 20_memory.md R92 (with 10_state.md R31, R32), but for CMD and CTRL, which have statements of their own: writes of
ARG_LO, ARG_HI and ARG2 change that part of the argument whatever BUSY and ERR are, and writes of every other register
change nothing. The value the bus answers to a write is left open (log 5). -/
def Obligations.WritesReachOnlyTheArguments : Prop :=
  ∀ (s : State) (v : Word),
    (∃ a r, hostWrite (s.cfg.base + 0x014) 4 v s =
        .next { s with arg := a, resp := { value := r, error := false } } ∧
      a.extractLsb' 0 32 = v ∧ a.extractLsb' 32 32 = s.arg.extractLsb' 32 32) ∧
    (∃ a r, hostWrite (s.cfg.base + 0x018) 4 v s =
        .next { s with arg := a, resp := { value := r, error := false } } ∧
      a.extractLsb' 32 32 = v ∧ a.extractLsb' 0 32 = s.arg.extractLsb' 0 32) ∧
    (∃ r, hostWrite (s.cfg.base + 0x01C) 4 v s =
      .next { s with arg2 := v.extractLsb' 0 7, resp := { value := r, error := false } }) ∧
    (∀ x, x ∉ [Reg.CTRL, .CMD, .ARG_LO, .ARG_HI, .ARG2] → ∃ r, hostWrite (s.cfg.base + x.offset) 4 v s =
      .next { s with resp := { value := r, error := false } })

/-! ### Reset, and what every step keeps -/

/-- 70_reset_and_hazards.md R254 and 10_state.md R60: an asserted hard reset is one step that leaves the reset state.
The agenda goes on; the host's recorded fault is never cleared (20_memory.md R86); what the model's bus last answered
and its count of draws are not the block's and are left open (log 5, 6). -/
def Obligations.HardResetLeavesTheResetState : Prop :=
  ∀ (s : State) (rest : List Move), s.agenda = .hardReset :: rest →
    ∃ r d, step s = .next { State.resetWith s.cfg with
      agenda := rest, resp := r, busFault := s.busFault, draws := d }

/-- 70_reset_and_hazards.md R255 (with 10_state.md R27): a write of CTRL with bit 0 = 1 resets the block in that step,
whatever BUSY and ERR are, and the latched command is discarded; with bit 0 = 0 it has no effect. The value the bus
answers is left open (log 5). -/
def Obligations.CtrlWriteIsSoftReset : Prop :=
  ∀ (s : State) (v : Word),
    (v.getLsbD 0 = true → ∃ r d, hostWrite (s.cfg.base + 0x004) 4 v s = .next { State.resetWith s.cfg with
      agenda := s.agenda, resp := { value := r, error := false }, busFault := s.busFault, draws := d }) ∧
    (v.getLsbD 0 = false → ∃ r, hostWrite (s.cfg.base + 0x004) 4 v s =
      .next { s with resp := { value := r, error := false } })

/-- 10_state.md R24, the reset column: after reset ID and the CAP registers read their constants and every other
register reads 0. -/
def Obligations.RegistersReadTheirResetValues : Prop :=
  ∀ p : Config.Params,
    Reg.ID.value (State.resetWith p) = 0x48434231#32 ∧
    Reg.CAP_NSYM.value (State.resetWith p) = BitVec.ofNat 32 p.nSym ∧
    Reg.CAP_LMAX.value (State.resetWith p) = BitVec.ofNat 32 p.lMax ∧
    Reg.CAP_OUTD.value (State.resetWith p) = BitVec.ofNat 32 p.outDepth ∧
    Reg.CAP_SYMD.value (State.resetWith p) = BitVec.ofNat 32 p.symDepth ∧
    ∀ r, r ∉ [Reg.ID, .CAP_NSYM, .CAP_LMAX, .CAP_OUTD, .CAP_SYMD] → r.value (State.resetWith p) = 0#32

/-- The state after reset meets the invariant, whatever the parameters within their bounds; and so does `State.reset`,
whose parameters are the model's choice (log 2). -/
def Obligations.ResetStateMeetsTheInvariant : Prop :=
  (∀ p : Config.Params, p.wf = true → (State.resetWith p).Inv) ∧ State.reset.Inv

/-- Every step of every agent keeps the invariant (10_state.md R20, R40, R46 to R54, R56): the parameters' bounds, FT's
canonical form, the tree and the table being those of FT, the serializer's padding, the window's bound, the FIFOs'
capacities, and the committed decode table being prefix-free. -/
def Obligations.EveryStepKeepsTheInvariant : Prop :=
  ∀ s t : State, s.Inv → step s = .next t → t.Inv

/-- No step changes the block's parameters, so the CAP registers read the same for ever (10_state.md R45). -/
def Obligations.EveryStepKeepsTheParameters : Prop :=
  ∀ s t : State, step s = .next t → t.cfg = s.cfg

/-- How often the host polls STATUS before the engine takes its turn makes no difference to the block, only to the count
of free draws (70_reset_and_hazards.md R264, R265). A WAIT, with a command latched or not, ends after the engine's turn
with a read of STATUS that finds BUSY = 0, and changes nothing else of the block; a command line is the write of CMD and
a WAIT, and a line ending in ! the write alone (30_encoding.md R114). How the schedule is given is the model's choice
(log 10). -/
def Obligations.PollingDoesNotChangeTheCommand : Prop :=
  ∀ (n : Nat) (i : Instr) (s : State), ∃ d,
    ((command n i).run s).2 = { ((command 0 i).run s).2 with draws := d } ∧
    (∃ u d', engineStep s = .next u ∧ u.busy = false ∧ u.status.getLsbD 0 = false ∧
      (wait n).run s = (u.status, { u with resp := { value := u.status, error := false }, draws := d' })) ∧
    (∀ t, hostWrite (s.cfg.base + 0x010) 4 (encode i) s = .next t →
      ((commandNoWait i).run s).2 = t ∧ ((command n i).run s).2 = ((wait n).run t).2)

/-! ### The container and the host procedures -/

/-- The parse of R175 gives back what R170 and R172 put in: entries in ascending symbol order with legal codes, the
payload and the tail count. -/
def Obligations.ParseOfContainerGivesItBack : Prop :=
  ∀ (lMax : Nat) (es : List Entry) (payload : List Byte) (tail : Nat), lMax ≤ 64 →
    es.Pairwise (fun a b => a.sym.toNat < b.sym.toNat) →
    (∀ e ∈ es, scalar e.sym = true ∧ codeLegal lMax e.len e.val = true) →
    1 ≤ tail → tail ≤ 8 → (payload = [] → tail = 8) →
    parse lMax (container (serializeTable es) payload tail) = .ok (es, payload, tail)

/-- 43_container.md R174: the container of the empty text, and its parse. -/
def Obligations.EmptyTextContainer : Prop :=
  container (serializeTable []) [] 8 = [4#8, 0#8, 0#8, 0#8, 0#8, 0#8, 0#8, 0#8, 0#8, 0#8, 0#8, 0#8, 8#8] ∧
  ∀ lMax, parse lMax (container (serializeTable []) [] 8) = .ok ([], [], 8)

/-- The error types of the host procedures (60_exceptions.md R236). -/
def Obligations.HostErrorsFollowTheCodes : Prop :=
  hostErrorOf ErrCode.MISSING_CODE.code = .MissingCode ∧
  hostErrorOf ErrCode.UNDECODABLE.code = .UndecodableSequence ∧
  hostErrorOf ErrCode.CORRUPT_TABLE.code = .SerializationFailure ∧
  hostErrorOf ErrCode.MALFORMED_CONTAINER.code = .MalformedContainer ∧
  (∀ e ∈ [ErrCode.CAPACITY, .FREQ_OVERFLOW, .CODE_TOO_LONG], hostErrorOf e.code = .ResourceLimit) ∧
  (∀ e ∈ [ErrCode.ILLEGAL_CMD, .SEQUENCE, .FIFO_OVERFLOW, .BUSY_CMD, .BAD_SYMBOL, .INDEX_RANGE],
    hostErrorOf e.code = .HostProtocolError)

/-- 43_container.md R178: for every text of scalar symbols within the block's limits (at most N_SYM distinct symbols,
fewer than 2^64 characters, no code longer than L_MAX), host `encode` makes a container and host `decode`, on a block of
the same parameters, gives the text back with no error; under every schedule of the engine's turns
(70_reset_and_hazards.md R265), each command line with a number of polls of its own. -/
def Obligations.DecodeOfEncodedTextIsTheText : Prop :=
  ∀ (p : Config.Params) (enc dec : Schedule) (text : List Sym), p.wf = true → (∀ c ∈ text, scalar c = true) →
    text.dedup.length ≤ p.nSym → text.length < 2 ^ 64 →
    (∀ nodes, buildNodes (ftOfText text) = .ok nodes → ∃ ct, codeTable p.lMax nodes = .ok ct) →
    ∃ c, ((hostEncode enc text).run (State.resetWith p)).1 = .ok c ∧
      ((hostDecode dec c).run (State.resetWith p)).1 = .ok text
end

