-- ==== Sys2Proof/Laws/State.lean ====
section
/-! SUPPORT. One lemma per field per update of the state, each true by unfolding the update, so that no later proof
unfolds one. -/

namespace Sys2Proof.Machine

/-! ### clearError -/

@[simp] theorem State.clearError_cfg (s : State) : (s.clearError).cfg = s.cfg := rfl
@[simp] theorem State.clearError_ft (s : State) : (s.clearError).ft = s.ft := rfl
@[simp] theorem State.clearError_treeValid (s : State) : (s.clearError).treeValid = s.treeValid := rfl
@[simp] theorem State.clearError_nodes (s : State) : (s.clearError).nodes = s.nodes := rfl
@[simp] theorem State.clearError_ctValid (s : State) : (s.clearError).ctValid = s.ctValid := rfl
@[simp] theorem State.clearError_ct (s : State) : (s.clearError).ct = s.ct := rfl
@[simp] theorem State.clearError_ctMaxLen (s : State) : (s.clearError).ctMaxLen = s.ctMaxLen := rfl
@[simp] theorem State.clearError_acc (s : State) : (s.clearError).acc = s.acc := rfl
@[simp] theorem State.clearError_nbits (s : State) : (s.clearError).nbits = s.nbits := rfl
@[simp] theorem State.clearError_tail (s : State) : (s.clearError).tail = s.tail := rfl
@[simp] theorem State.clearError_outq (s : State) : (s.clearError).outq = s.outq := rfl
@[simp] theorem State.clearError_dtValid (s : State) : (s.clearError).dtValid = s.dtValid := rfl
@[simp] theorem State.clearError_dt (s : State) : (s.clearError).dt = s.dt := rfl
@[simp] theorem State.clearError_dtMaxLen (s : State) : (s.clearError).dtMaxLen = s.dtMaxLen := rfl
@[simp] theorem State.clearError_w (s : State) : (s.clearError).w = s.w := rfl
@[simp] theorem State.clearError_wlen (s : State) : (s.clearError).wlen = s.wlen := rfl
@[simp] theorem State.clearError_phase (s : State) : (s.clearError).phase = s.phase := rfl
@[simp] theorem State.clearError_done (s : State) : (s.clearError).done = s.done := rfl
@[simp] theorem State.clearError_symq (s : State) : (s.clearError).symq = s.symq := rfl
@[simp] theorem State.clearError_arg (s : State) : (s.clearError).arg = s.arg := rfl
@[simp] theorem State.clearError_arg2 (s : State) : (s.clearError).arg2 = s.arg2 := rfl
@[simp] theorem State.clearError_res (s : State) : (s.clearError).res = s.res := rfl
@[simp] theorem State.clearError_resAux (s : State) : (s.clearError).resAux = s.resAux := rfl
@[simp] theorem State.clearError_resAux2 (s : State) : (s.clearError).resAux2 = s.resAux2 := rfl
@[simp] theorem State.clearError_pend (s : State) : (s.clearError).pend = s.pend := rfl
@[simp] theorem State.clearError_err (s : State) : (s.clearError).err = false := rfl
@[simp] theorem State.clearError_ecode (s : State) : (s.clearError).ecode = .NONE := rfl
@[simp] theorem State.clearError_eopc (s : State) : (s.clearError).eopc = 0#8 := rfl
@[simp] theorem State.clearError_agenda (s : State) : (s.clearError).agenda = s.agenda := rfl
@[simp] theorem State.clearError_resp (s : State) : (s.clearError).resp = s.resp := rfl
@[simp] theorem State.clearError_busFault (s : State) : (s.clearError).busFault = s.busFault := rfl
@[simp] theorem State.clearError_draws (s : State) : (s.clearError).draws = s.draws := rfl
@[simp] theorem State.clearError_busy (s : State) : (s.clearError).busy = s.busy := rfl

/-! ### invalidateTree -/

@[simp] theorem State.invalidateTree_cfg (s : State) : (s.invalidateTree).cfg = s.cfg := rfl
@[simp] theorem State.invalidateTree_ft (s : State) : (s.invalidateTree).ft = s.ft := rfl
@[simp] theorem State.invalidateTree_treeValid (s : State) : (s.invalidateTree).treeValid = false := rfl
@[simp] theorem State.invalidateTree_nodes (s : State) : (s.invalidateTree).nodes = [] := rfl
@[simp] theorem State.invalidateTree_ctValid (s : State) : (s.invalidateTree).ctValid = false := rfl
@[simp] theorem State.invalidateTree_ct (s : State) : (s.invalidateTree).ct = [] := rfl
@[simp] theorem State.invalidateTree_ctMaxLen (s : State) : (s.invalidateTree).ctMaxLen = 0 := rfl
@[simp] theorem State.invalidateTree_acc (s : State) : (s.invalidateTree).acc = s.acc := rfl
@[simp] theorem State.invalidateTree_nbits (s : State) : (s.invalidateTree).nbits = s.nbits := rfl
@[simp] theorem State.invalidateTree_tail (s : State) : (s.invalidateTree).tail = s.tail := rfl
@[simp] theorem State.invalidateTree_outq (s : State) : (s.invalidateTree).outq = s.outq := rfl
@[simp] theorem State.invalidateTree_dtValid (s : State) : (s.invalidateTree).dtValid = s.dtValid := rfl
@[simp] theorem State.invalidateTree_dt (s : State) : (s.invalidateTree).dt = s.dt := rfl
@[simp] theorem State.invalidateTree_dtMaxLen (s : State) : (s.invalidateTree).dtMaxLen = s.dtMaxLen := rfl
@[simp] theorem State.invalidateTree_w (s : State) : (s.invalidateTree).w = s.w := rfl
@[simp] theorem State.invalidateTree_wlen (s : State) : (s.invalidateTree).wlen = s.wlen := rfl
@[simp] theorem State.invalidateTree_phase (s : State) : (s.invalidateTree).phase = s.phase := rfl
@[simp] theorem State.invalidateTree_done (s : State) : (s.invalidateTree).done = s.done := rfl
@[simp] theorem State.invalidateTree_symq (s : State) : (s.invalidateTree).symq = s.symq := rfl
@[simp] theorem State.invalidateTree_arg (s : State) : (s.invalidateTree).arg = s.arg := rfl
@[simp] theorem State.invalidateTree_arg2 (s : State) : (s.invalidateTree).arg2 = s.arg2 := rfl
@[simp] theorem State.invalidateTree_res (s : State) : (s.invalidateTree).res = s.res := rfl
@[simp] theorem State.invalidateTree_resAux (s : State) : (s.invalidateTree).resAux = s.resAux := rfl
@[simp] theorem State.invalidateTree_resAux2 (s : State) : (s.invalidateTree).resAux2 = s.resAux2 := rfl
@[simp] theorem State.invalidateTree_pend (s : State) : (s.invalidateTree).pend = s.pend := rfl
@[simp] theorem State.invalidateTree_err (s : State) : (s.invalidateTree).err = s.err := rfl
@[simp] theorem State.invalidateTree_ecode (s : State) : (s.invalidateTree).ecode = s.ecode := rfl
@[simp] theorem State.invalidateTree_eopc (s : State) : (s.invalidateTree).eopc = s.eopc := rfl
@[simp] theorem State.invalidateTree_agenda (s : State) : (s.invalidateTree).agenda = s.agenda := rfl
@[simp] theorem State.invalidateTree_resp (s : State) : (s.invalidateTree).resp = s.resp := rfl
@[simp] theorem State.invalidateTree_busFault (s : State) : (s.invalidateTree).busFault = s.busFault := rfl
@[simp] theorem State.invalidateTree_draws (s : State) : (s.invalidateTree).draws = s.draws := rfl
@[simp] theorem State.invalidateTree_busy (s : State) : (s.invalidateTree).busy = s.busy := rfl

/-! ### decReset -/

@[simp] theorem State.decReset_cfg (s : State) : (s.decReset).cfg = s.cfg := rfl
@[simp] theorem State.decReset_ft (s : State) : (s.decReset).ft = s.ft := rfl
@[simp] theorem State.decReset_treeValid (s : State) : (s.decReset).treeValid = s.treeValid := rfl
@[simp] theorem State.decReset_nodes (s : State) : (s.decReset).nodes = s.nodes := rfl
@[simp] theorem State.decReset_ctValid (s : State) : (s.decReset).ctValid = s.ctValid := rfl
@[simp] theorem State.decReset_ct (s : State) : (s.decReset).ct = s.ct := rfl
@[simp] theorem State.decReset_ctMaxLen (s : State) : (s.decReset).ctMaxLen = s.ctMaxLen := rfl
@[simp] theorem State.decReset_acc (s : State) : (s.decReset).acc = s.acc := rfl
@[simp] theorem State.decReset_nbits (s : State) : (s.decReset).nbits = s.nbits := rfl
@[simp] theorem State.decReset_tail (s : State) : (s.decReset).tail = s.tail := rfl
@[simp] theorem State.decReset_outq (s : State) : (s.decReset).outq = s.outq := rfl
@[simp] theorem State.decReset_dtValid (s : State) : (s.decReset).dtValid = s.dtValid := rfl
@[simp] theorem State.decReset_dt (s : State) : (s.decReset).dt = s.dt := rfl
@[simp] theorem State.decReset_dtMaxLen (s : State) : (s.decReset).dtMaxLen = s.dtMaxLen := rfl
@[simp] theorem State.decReset_w (s : State) : (s.decReset).w = 0#64 := rfl
@[simp] theorem State.decReset_wlen (s : State) : (s.decReset).wlen = 0 := rfl
@[simp] theorem State.decReset_phase (s : State) : (s.decReset).phase = .OPEN := rfl
@[simp] theorem State.decReset_done (s : State) : (s.decReset).done = false := rfl
@[simp] theorem State.decReset_symq (s : State) : (s.decReset).symq = [] := rfl
@[simp] theorem State.decReset_arg (s : State) : (s.decReset).arg = s.arg := rfl
@[simp] theorem State.decReset_arg2 (s : State) : (s.decReset).arg2 = s.arg2 := rfl
@[simp] theorem State.decReset_res (s : State) : (s.decReset).res = s.res := rfl
@[simp] theorem State.decReset_resAux (s : State) : (s.decReset).resAux = s.resAux := rfl
@[simp] theorem State.decReset_resAux2 (s : State) : (s.decReset).resAux2 = s.resAux2 := rfl
@[simp] theorem State.decReset_pend (s : State) : (s.decReset).pend = s.pend := rfl
@[simp] theorem State.decReset_err (s : State) : (s.decReset).err = s.err := rfl
@[simp] theorem State.decReset_ecode (s : State) : (s.decReset).ecode = s.ecode := rfl
@[simp] theorem State.decReset_eopc (s : State) : (s.decReset).eopc = s.eopc := rfl
@[simp] theorem State.decReset_agenda (s : State) : (s.decReset).agenda = s.agenda := rfl
@[simp] theorem State.decReset_resp (s : State) : (s.decReset).resp = s.resp := rfl
@[simp] theorem State.decReset_busFault (s : State) : (s.decReset).busFault = s.busFault := rfl
@[simp] theorem State.decReset_draws (s : State) : (s.decReset).draws = s.draws := rfl
@[simp] theorem State.decReset_busy (s : State) : (s.decReset).busy = s.busy := rfl

/-! ### encReset -/

@[simp] theorem State.encReset_cfg (s : State) : (s.encReset).cfg = s.cfg := rfl
@[simp] theorem State.encReset_ft (s : State) : (s.encReset).ft = s.ft := rfl
@[simp] theorem State.encReset_treeValid (s : State) : (s.encReset).treeValid = s.treeValid := rfl
@[simp] theorem State.encReset_nodes (s : State) : (s.encReset).nodes = s.nodes := rfl
@[simp] theorem State.encReset_ctValid (s : State) : (s.encReset).ctValid = s.ctValid := rfl
@[simp] theorem State.encReset_ct (s : State) : (s.encReset).ct = s.ct := rfl
@[simp] theorem State.encReset_ctMaxLen (s : State) : (s.encReset).ctMaxLen = s.ctMaxLen := rfl
@[simp] theorem State.encReset_acc (s : State) : (s.encReset).acc = 0#8 := rfl
@[simp] theorem State.encReset_nbits (s : State) : (s.encReset).nbits = 0 := rfl
@[simp] theorem State.encReset_tail (s : State) : (s.encReset).tail = 0 := rfl
@[simp] theorem State.encReset_outq (s : State) : (s.encReset).outq = [] := rfl
@[simp] theorem State.encReset_dtValid (s : State) : (s.encReset).dtValid = s.dtValid := rfl
@[simp] theorem State.encReset_dt (s : State) : (s.encReset).dt = s.dt := rfl
@[simp] theorem State.encReset_dtMaxLen (s : State) : (s.encReset).dtMaxLen = s.dtMaxLen := rfl
@[simp] theorem State.encReset_w (s : State) : (s.encReset).w = s.w := rfl
@[simp] theorem State.encReset_wlen (s : State) : (s.encReset).wlen = s.wlen := rfl
@[simp] theorem State.encReset_phase (s : State) : (s.encReset).phase = s.phase := rfl
@[simp] theorem State.encReset_done (s : State) : (s.encReset).done = s.done := rfl
@[simp] theorem State.encReset_symq (s : State) : (s.encReset).symq = s.symq := rfl
@[simp] theorem State.encReset_arg (s : State) : (s.encReset).arg = s.arg := rfl
@[simp] theorem State.encReset_arg2 (s : State) : (s.encReset).arg2 = s.arg2 := rfl
@[simp] theorem State.encReset_res (s : State) : (s.encReset).res = s.res := rfl
@[simp] theorem State.encReset_resAux (s : State) : (s.encReset).resAux = s.resAux := rfl
@[simp] theorem State.encReset_resAux2 (s : State) : (s.encReset).resAux2 = s.resAux2 := rfl
@[simp] theorem State.encReset_pend (s : State) : (s.encReset).pend = s.pend := rfl
@[simp] theorem State.encReset_err (s : State) : (s.encReset).err = s.err := rfl
@[simp] theorem State.encReset_ecode (s : State) : (s.encReset).ecode = s.ecode := rfl
@[simp] theorem State.encReset_eopc (s : State) : (s.encReset).eopc = s.eopc := rfl
@[simp] theorem State.encReset_agenda (s : State) : (s.encReset).agenda = s.agenda := rfl
@[simp] theorem State.encReset_resp (s : State) : (s.encReset).resp = s.resp := rfl
@[simp] theorem State.encReset_busFault (s : State) : (s.encReset).busFault = s.busFault := rfl
@[simp] theorem State.encReset_draws (s : State) : (s.encReset).draws = s.draws := rfl
@[simp] theorem State.encReset_busy (s : State) : (s.encReset).busy = s.busy := rfl

/-! ### hardReset -/

@[simp] theorem State.hardReset_cfg (s : State) : (s.hardReset).cfg = s.cfg := rfl
@[simp] theorem State.hardReset_ft (s : State) : (s.hardReset).ft = [] := rfl
@[simp] theorem State.hardReset_treeValid (s : State) : (s.hardReset).treeValid = false := rfl
@[simp] theorem State.hardReset_nodes (s : State) : (s.hardReset).nodes = [] := rfl
@[simp] theorem State.hardReset_ctValid (s : State) : (s.hardReset).ctValid = false := rfl
@[simp] theorem State.hardReset_ct (s : State) : (s.hardReset).ct = [] := rfl
@[simp] theorem State.hardReset_ctMaxLen (s : State) : (s.hardReset).ctMaxLen = 0 := rfl
@[simp] theorem State.hardReset_acc (s : State) : (s.hardReset).acc = 0#8 := rfl
@[simp] theorem State.hardReset_nbits (s : State) : (s.hardReset).nbits = 0 := rfl
@[simp] theorem State.hardReset_tail (s : State) : (s.hardReset).tail = 0 := rfl
@[simp] theorem State.hardReset_outq (s : State) : (s.hardReset).outq = [] := rfl
@[simp] theorem State.hardReset_dtValid (s : State) : (s.hardReset).dtValid = false := rfl
@[simp] theorem State.hardReset_dt (s : State) : (s.hardReset).dt = [] := rfl
@[simp] theorem State.hardReset_dtMaxLen (s : State) : (s.hardReset).dtMaxLen = 0 := rfl
@[simp] theorem State.hardReset_w (s : State) : (s.hardReset).w = 0#64 := rfl
@[simp] theorem State.hardReset_wlen (s : State) : (s.hardReset).wlen = 0 := rfl
@[simp] theorem State.hardReset_phase (s : State) : (s.hardReset).phase = .OPEN := rfl
@[simp] theorem State.hardReset_done (s : State) : (s.hardReset).done = false := rfl
@[simp] theorem State.hardReset_symq (s : State) : (s.hardReset).symq = [] := rfl
@[simp] theorem State.hardReset_arg (s : State) : (s.hardReset).arg = 0#64 := rfl
@[simp] theorem State.hardReset_arg2 (s : State) : (s.hardReset).arg2 = 0#7 := rfl
@[simp] theorem State.hardReset_res (s : State) : (s.hardReset).res = 0#64 := rfl
@[simp] theorem State.hardReset_resAux (s : State) : (s.hardReset).resAux = 0#32 := rfl
@[simp] theorem State.hardReset_resAux2 (s : State) : (s.hardReset).resAux2 = 0#32 := rfl
@[simp] theorem State.hardReset_pend (s : State) : (s.hardReset).pend = none := rfl
@[simp] theorem State.hardReset_err (s : State) : (s.hardReset).err = false := rfl
@[simp] theorem State.hardReset_ecode (s : State) : (s.hardReset).ecode = .NONE := rfl
@[simp] theorem State.hardReset_eopc (s : State) : (s.hardReset).eopc = 0#8 := rfl
@[simp] theorem State.hardReset_agenda (s : State) : (s.hardReset).agenda = s.agenda := rfl
@[simp] theorem State.hardReset_resp (s : State) : (s.hardReset).resp = s.resp := rfl
@[simp] theorem State.hardReset_busFault (s : State) : (s.hardReset).busFault = s.busFault := rfl
@[simp] theorem State.hardReset_draws (s : State) : (s.hardReset).draws = s.draws := rfl
@[simp] theorem State.hardReset_busy (s : State) : (s.hardReset).busy = false := rfl

/-! ### setResult -/

@[simp] theorem State.setResult_cfg (s : State) (r : BitVec 64) (a b : Word) : (s.setResult r a b).cfg = s.cfg := rfl
@[simp] theorem State.setResult_ft (s : State) (r : BitVec 64) (a b : Word) : (s.setResult r a b).ft = s.ft := rfl
@[simp] theorem State.setResult_treeValid (s : State) (r : BitVec 64) (a b : Word) : (s.setResult r a b).treeValid = s.treeValid := rfl
@[simp] theorem State.setResult_nodes (s : State) (r : BitVec 64) (a b : Word) : (s.setResult r a b).nodes = s.nodes := rfl
@[simp] theorem State.setResult_ctValid (s : State) (r : BitVec 64) (a b : Word) : (s.setResult r a b).ctValid = s.ctValid := rfl
@[simp] theorem State.setResult_ct (s : State) (r : BitVec 64) (a b : Word) : (s.setResult r a b).ct = s.ct := rfl
@[simp] theorem State.setResult_ctMaxLen (s : State) (r : BitVec 64) (a b : Word) : (s.setResult r a b).ctMaxLen = s.ctMaxLen := rfl
@[simp] theorem State.setResult_acc (s : State) (r : BitVec 64) (a b : Word) : (s.setResult r a b).acc = s.acc := rfl
@[simp] theorem State.setResult_nbits (s : State) (r : BitVec 64) (a b : Word) : (s.setResult r a b).nbits = s.nbits := rfl
@[simp] theorem State.setResult_tail (s : State) (r : BitVec 64) (a b : Word) : (s.setResult r a b).tail = s.tail := rfl
@[simp] theorem State.setResult_outq (s : State) (r : BitVec 64) (a b : Word) : (s.setResult r a b).outq = s.outq := rfl
@[simp] theorem State.setResult_dtValid (s : State) (r : BitVec 64) (a b : Word) : (s.setResult r a b).dtValid = s.dtValid := rfl
@[simp] theorem State.setResult_dt (s : State) (r : BitVec 64) (a b : Word) : (s.setResult r a b).dt = s.dt := rfl
@[simp] theorem State.setResult_dtMaxLen (s : State) (r : BitVec 64) (a b : Word) : (s.setResult r a b).dtMaxLen = s.dtMaxLen := rfl
@[simp] theorem State.setResult_w (s : State) (r : BitVec 64) (a b : Word) : (s.setResult r a b).w = s.w := rfl
@[simp] theorem State.setResult_wlen (s : State) (r : BitVec 64) (a b : Word) : (s.setResult r a b).wlen = s.wlen := rfl
@[simp] theorem State.setResult_phase (s : State) (r : BitVec 64) (a b : Word) : (s.setResult r a b).phase = s.phase := rfl
@[simp] theorem State.setResult_done (s : State) (r : BitVec 64) (a b : Word) : (s.setResult r a b).done = s.done := rfl
@[simp] theorem State.setResult_symq (s : State) (r : BitVec 64) (a b : Word) : (s.setResult r a b).symq = s.symq := rfl
@[simp] theorem State.setResult_arg (s : State) (r : BitVec 64) (a b : Word) : (s.setResult r a b).arg = s.arg := rfl
@[simp] theorem State.setResult_arg2 (s : State) (r : BitVec 64) (a b : Word) : (s.setResult r a b).arg2 = s.arg2 := rfl
@[simp] theorem State.setResult_res (s : State) (r : BitVec 64) (a b : Word) : (s.setResult r a b).res = r := rfl
@[simp] theorem State.setResult_resAux (s : State) (r : BitVec 64) (a b : Word) : (s.setResult r a b).resAux = a := rfl
@[simp] theorem State.setResult_resAux2 (s : State) (r : BitVec 64) (a b : Word) : (s.setResult r a b).resAux2 = b := rfl
@[simp] theorem State.setResult_pend (s : State) (r : BitVec 64) (a b : Word) : (s.setResult r a b).pend = s.pend := rfl
@[simp] theorem State.setResult_err (s : State) (r : BitVec 64) (a b : Word) : (s.setResult r a b).err = s.err := rfl
@[simp] theorem State.setResult_ecode (s : State) (r : BitVec 64) (a b : Word) : (s.setResult r a b).ecode = s.ecode := rfl
@[simp] theorem State.setResult_eopc (s : State) (r : BitVec 64) (a b : Word) : (s.setResult r a b).eopc = s.eopc := rfl
@[simp] theorem State.setResult_agenda (s : State) (r : BitVec 64) (a b : Word) : (s.setResult r a b).agenda = s.agenda := rfl
@[simp] theorem State.setResult_resp (s : State) (r : BitVec 64) (a b : Word) : (s.setResult r a b).resp = s.resp := rfl
@[simp] theorem State.setResult_busFault (s : State) (r : BitVec 64) (a b : Word) : (s.setResult r a b).busFault = s.busFault := rfl
@[simp] theorem State.setResult_draws (s : State) (r : BitVec 64) (a b : Word) : (s.setResult r a b).draws = s.draws := rfl
@[simp] theorem State.setResult_busy (s : State) (r : BitVec 64) (a b : Word) : (s.setResult r a b).busy = s.busy := rfl

/-! ### clearPend -/

@[simp] theorem State.clearPend_cfg (s : State) : (s.clearPend).cfg = s.cfg := rfl
@[simp] theorem State.clearPend_ft (s : State) : (s.clearPend).ft = s.ft := rfl
@[simp] theorem State.clearPend_treeValid (s : State) : (s.clearPend).treeValid = s.treeValid := rfl
@[simp] theorem State.clearPend_nodes (s : State) : (s.clearPend).nodes = s.nodes := rfl
@[simp] theorem State.clearPend_ctValid (s : State) : (s.clearPend).ctValid = s.ctValid := rfl
@[simp] theorem State.clearPend_ct (s : State) : (s.clearPend).ct = s.ct := rfl
@[simp] theorem State.clearPend_ctMaxLen (s : State) : (s.clearPend).ctMaxLen = s.ctMaxLen := rfl
@[simp] theorem State.clearPend_acc (s : State) : (s.clearPend).acc = s.acc := rfl
@[simp] theorem State.clearPend_nbits (s : State) : (s.clearPend).nbits = s.nbits := rfl
@[simp] theorem State.clearPend_tail (s : State) : (s.clearPend).tail = s.tail := rfl
@[simp] theorem State.clearPend_outq (s : State) : (s.clearPend).outq = s.outq := rfl
@[simp] theorem State.clearPend_dtValid (s : State) : (s.clearPend).dtValid = s.dtValid := rfl
@[simp] theorem State.clearPend_dt (s : State) : (s.clearPend).dt = s.dt := rfl
@[simp] theorem State.clearPend_dtMaxLen (s : State) : (s.clearPend).dtMaxLen = s.dtMaxLen := rfl
@[simp] theorem State.clearPend_w (s : State) : (s.clearPend).w = s.w := rfl
@[simp] theorem State.clearPend_wlen (s : State) : (s.clearPend).wlen = s.wlen := rfl
@[simp] theorem State.clearPend_phase (s : State) : (s.clearPend).phase = s.phase := rfl
@[simp] theorem State.clearPend_done (s : State) : (s.clearPend).done = s.done := rfl
@[simp] theorem State.clearPend_symq (s : State) : (s.clearPend).symq = s.symq := rfl
@[simp] theorem State.clearPend_arg (s : State) : (s.clearPend).arg = s.arg := rfl
@[simp] theorem State.clearPend_arg2 (s : State) : (s.clearPend).arg2 = s.arg2 := rfl
@[simp] theorem State.clearPend_res (s : State) : (s.clearPend).res = s.res := rfl
@[simp] theorem State.clearPend_resAux (s : State) : (s.clearPend).resAux = s.resAux := rfl
@[simp] theorem State.clearPend_resAux2 (s : State) : (s.clearPend).resAux2 = s.resAux2 := rfl
@[simp] theorem State.clearPend_pend (s : State) : (s.clearPend).pend = none := rfl
@[simp] theorem State.clearPend_err (s : State) : (s.clearPend).err = s.err := rfl
@[simp] theorem State.clearPend_ecode (s : State) : (s.clearPend).ecode = s.ecode := rfl
@[simp] theorem State.clearPend_eopc (s : State) : (s.clearPend).eopc = s.eopc := rfl
@[simp] theorem State.clearPend_agenda (s : State) : (s.clearPend).agenda = s.agenda := rfl
@[simp] theorem State.clearPend_resp (s : State) : (s.clearPend).resp = s.resp := rfl
@[simp] theorem State.clearPend_busFault (s : State) : (s.clearPend).busFault = s.busFault := rfl
@[simp] theorem State.clearPend_draws (s : State) : (s.clearPend).draws = s.draws := rfl
@[simp] theorem State.clearPend_busy (s : State) : (s.clearPend).busy = false := rfl

/-! ### busError -/

@[simp] theorem State.busError_cfg (s : State) : (s.busError).cfg = s.cfg := rfl
@[simp] theorem State.busError_ft (s : State) : (s.busError).ft = s.ft := rfl
@[simp] theorem State.busError_treeValid (s : State) : (s.busError).treeValid = s.treeValid := rfl
@[simp] theorem State.busError_nodes (s : State) : (s.busError).nodes = s.nodes := rfl
@[simp] theorem State.busError_ctValid (s : State) : (s.busError).ctValid = s.ctValid := rfl
@[simp] theorem State.busError_ct (s : State) : (s.busError).ct = s.ct := rfl
@[simp] theorem State.busError_ctMaxLen (s : State) : (s.busError).ctMaxLen = s.ctMaxLen := rfl
@[simp] theorem State.busError_acc (s : State) : (s.busError).acc = s.acc := rfl
@[simp] theorem State.busError_nbits (s : State) : (s.busError).nbits = s.nbits := rfl
@[simp] theorem State.busError_tail (s : State) : (s.busError).tail = s.tail := rfl
@[simp] theorem State.busError_outq (s : State) : (s.busError).outq = s.outq := rfl
@[simp] theorem State.busError_dtValid (s : State) : (s.busError).dtValid = s.dtValid := rfl
@[simp] theorem State.busError_dt (s : State) : (s.busError).dt = s.dt := rfl
@[simp] theorem State.busError_dtMaxLen (s : State) : (s.busError).dtMaxLen = s.dtMaxLen := rfl
@[simp] theorem State.busError_w (s : State) : (s.busError).w = s.w := rfl
@[simp] theorem State.busError_wlen (s : State) : (s.busError).wlen = s.wlen := rfl
@[simp] theorem State.busError_phase (s : State) : (s.busError).phase = s.phase := rfl
@[simp] theorem State.busError_done (s : State) : (s.busError).done = s.done := rfl
@[simp] theorem State.busError_symq (s : State) : (s.busError).symq = s.symq := rfl
@[simp] theorem State.busError_arg (s : State) : (s.busError).arg = s.arg := rfl
@[simp] theorem State.busError_arg2 (s : State) : (s.busError).arg2 = s.arg2 := rfl
@[simp] theorem State.busError_res (s : State) : (s.busError).res = s.res := rfl
@[simp] theorem State.busError_resAux (s : State) : (s.busError).resAux = s.resAux := rfl
@[simp] theorem State.busError_resAux2 (s : State) : (s.busError).resAux2 = s.resAux2 := rfl
@[simp] theorem State.busError_pend (s : State) : (s.busError).pend = s.pend := rfl
@[simp] theorem State.busError_err (s : State) : (s.busError).err = s.err := rfl
@[simp] theorem State.busError_ecode (s : State) : (s.busError).ecode = s.ecode := rfl
@[simp] theorem State.busError_eopc (s : State) : (s.busError).eopc = s.eopc := rfl
@[simp] theorem State.busError_agenda (s : State) : (s.busError).agenda = s.agenda := rfl
@[simp] theorem State.busError_resp (s : State) : (s.busError).resp = { value := 0#32, error := true } := rfl
@[simp] theorem State.busError_busFault (s : State) : (s.busError).busFault = true := rfl
@[simp] theorem State.busError_draws (s : State) : (s.busError).draws = s.draws := rfl
@[simp] theorem State.busError_busy (s : State) : (s.busError).busy = s.busy := rfl

/-! ### answer -/

@[simp] theorem State.answer_cfg (s : State) (v : Word) : (s.answer v).cfg = s.cfg := rfl
@[simp] theorem State.answer_ft (s : State) (v : Word) : (s.answer v).ft = s.ft := rfl
@[simp] theorem State.answer_treeValid (s : State) (v : Word) : (s.answer v).treeValid = s.treeValid := rfl
@[simp] theorem State.answer_nodes (s : State) (v : Word) : (s.answer v).nodes = s.nodes := rfl
@[simp] theorem State.answer_ctValid (s : State) (v : Word) : (s.answer v).ctValid = s.ctValid := rfl
@[simp] theorem State.answer_ct (s : State) (v : Word) : (s.answer v).ct = s.ct := rfl
@[simp] theorem State.answer_ctMaxLen (s : State) (v : Word) : (s.answer v).ctMaxLen = s.ctMaxLen := rfl
@[simp] theorem State.answer_acc (s : State) (v : Word) : (s.answer v).acc = s.acc := rfl
@[simp] theorem State.answer_nbits (s : State) (v : Word) : (s.answer v).nbits = s.nbits := rfl
@[simp] theorem State.answer_tail (s : State) (v : Word) : (s.answer v).tail = s.tail := rfl
@[simp] theorem State.answer_outq (s : State) (v : Word) : (s.answer v).outq = s.outq := rfl
@[simp] theorem State.answer_dtValid (s : State) (v : Word) : (s.answer v).dtValid = s.dtValid := rfl
@[simp] theorem State.answer_dt (s : State) (v : Word) : (s.answer v).dt = s.dt := rfl
@[simp] theorem State.answer_dtMaxLen (s : State) (v : Word) : (s.answer v).dtMaxLen = s.dtMaxLen := rfl
@[simp] theorem State.answer_w (s : State) (v : Word) : (s.answer v).w = s.w := rfl
@[simp] theorem State.answer_wlen (s : State) (v : Word) : (s.answer v).wlen = s.wlen := rfl
@[simp] theorem State.answer_phase (s : State) (v : Word) : (s.answer v).phase = s.phase := rfl
@[simp] theorem State.answer_done (s : State) (v : Word) : (s.answer v).done = s.done := rfl
@[simp] theorem State.answer_symq (s : State) (v : Word) : (s.answer v).symq = s.symq := rfl
@[simp] theorem State.answer_arg (s : State) (v : Word) : (s.answer v).arg = s.arg := rfl
@[simp] theorem State.answer_arg2 (s : State) (v : Word) : (s.answer v).arg2 = s.arg2 := rfl
@[simp] theorem State.answer_res (s : State) (v : Word) : (s.answer v).res = s.res := rfl
@[simp] theorem State.answer_resAux (s : State) (v : Word) : (s.answer v).resAux = s.resAux := rfl
@[simp] theorem State.answer_resAux2 (s : State) (v : Word) : (s.answer v).resAux2 = s.resAux2 := rfl
@[simp] theorem State.answer_pend (s : State) (v : Word) : (s.answer v).pend = s.pend := rfl
@[simp] theorem State.answer_err (s : State) (v : Word) : (s.answer v).err = s.err := rfl
@[simp] theorem State.answer_ecode (s : State) (v : Word) : (s.answer v).ecode = s.ecode := rfl
@[simp] theorem State.answer_eopc (s : State) (v : Word) : (s.answer v).eopc = s.eopc := rfl
@[simp] theorem State.answer_agenda (s : State) (v : Word) : (s.answer v).agenda = s.agenda := rfl
@[simp] theorem State.answer_resp (s : State) (v : Word) : (s.answer v).resp = { value := v, error := false } := rfl
@[simp] theorem State.answer_busFault (s : State) (v : Word) : (s.answer v).busFault = s.busFault := rfl
@[simp] theorem State.answer_draws (s : State) (v : Word) : (s.answer v).draws = s.draws := rfl
@[simp] theorem State.answer_busy (s : State) (v : Word) : (s.answer v).busy = s.busy := rfl

/-! ### softReset and recordError -/

@[simp] theorem State.softReset_eq (s : State) : s.softReset = s.hardReset := rfl

theorem State.recordError_of_err {s : State} (h : s.err = true) (e : ErrCode) (opc : BitVec 8) :
    s.recordError e opc = s := by simp [State.recordError, h]

theorem State.recordError_of_quiet {s : State} (h : s.err = false) (e : ErrCode) (opc : BitVec 8) :
    s.recordError e opc = { s with err := true, ecode := e, eopc := opc } := by simp [State.recordError, h]

@[simp] theorem State.recordError_err (s : State) (e : ErrCode) (opc : BitVec 8) :
    (s.recordError e opc).err = true := by unfold State.recordError; split <;> simp_all

@[simp] theorem State.recordError_cfg (s : State) (e : ErrCode) (opc : BitVec 8) :
    (s.recordError e opc).cfg = s.cfg := by unfold State.recordError; split <;> rfl
@[simp] theorem State.recordError_ft (s : State) (e : ErrCode) (opc : BitVec 8) :
    (s.recordError e opc).ft = s.ft := by unfold State.recordError; split <;> rfl
@[simp] theorem State.recordError_treeValid (s : State) (e : ErrCode) (opc : BitVec 8) :
    (s.recordError e opc).treeValid = s.treeValid := by unfold State.recordError; split <;> rfl
@[simp] theorem State.recordError_nodes (s : State) (e : ErrCode) (opc : BitVec 8) :
    (s.recordError e opc).nodes = s.nodes := by unfold State.recordError; split <;> rfl
@[simp] theorem State.recordError_ctValid (s : State) (e : ErrCode) (opc : BitVec 8) :
    (s.recordError e opc).ctValid = s.ctValid := by unfold State.recordError; split <;> rfl
@[simp] theorem State.recordError_ct (s : State) (e : ErrCode) (opc : BitVec 8) :
    (s.recordError e opc).ct = s.ct := by unfold State.recordError; split <;> rfl
@[simp] theorem State.recordError_ctMaxLen (s : State) (e : ErrCode) (opc : BitVec 8) :
    (s.recordError e opc).ctMaxLen = s.ctMaxLen := by unfold State.recordError; split <;> rfl
@[simp] theorem State.recordError_acc (s : State) (e : ErrCode) (opc : BitVec 8) :
    (s.recordError e opc).acc = s.acc := by unfold State.recordError; split <;> rfl
@[simp] theorem State.recordError_nbits (s : State) (e : ErrCode) (opc : BitVec 8) :
    (s.recordError e opc).nbits = s.nbits := by unfold State.recordError; split <;> rfl
@[simp] theorem State.recordError_tail (s : State) (e : ErrCode) (opc : BitVec 8) :
    (s.recordError e opc).tail = s.tail := by unfold State.recordError; split <;> rfl
@[simp] theorem State.recordError_outq (s : State) (e : ErrCode) (opc : BitVec 8) :
    (s.recordError e opc).outq = s.outq := by unfold State.recordError; split <;> rfl
@[simp] theorem State.recordError_dtValid (s : State) (e : ErrCode) (opc : BitVec 8) :
    (s.recordError e opc).dtValid = s.dtValid := by unfold State.recordError; split <;> rfl
@[simp] theorem State.recordError_dt (s : State) (e : ErrCode) (opc : BitVec 8) :
    (s.recordError e opc).dt = s.dt := by unfold State.recordError; split <;> rfl
@[simp] theorem State.recordError_dtMaxLen (s : State) (e : ErrCode) (opc : BitVec 8) :
    (s.recordError e opc).dtMaxLen = s.dtMaxLen := by unfold State.recordError; split <;> rfl
@[simp] theorem State.recordError_w (s : State) (e : ErrCode) (opc : BitVec 8) :
    (s.recordError e opc).w = s.w := by unfold State.recordError; split <;> rfl
@[simp] theorem State.recordError_wlen (s : State) (e : ErrCode) (opc : BitVec 8) :
    (s.recordError e opc).wlen = s.wlen := by unfold State.recordError; split <;> rfl
@[simp] theorem State.recordError_phase (s : State) (e : ErrCode) (opc : BitVec 8) :
    (s.recordError e opc).phase = s.phase := by unfold State.recordError; split <;> rfl
@[simp] theorem State.recordError_done (s : State) (e : ErrCode) (opc : BitVec 8) :
    (s.recordError e opc).done = s.done := by unfold State.recordError; split <;> rfl
@[simp] theorem State.recordError_symq (s : State) (e : ErrCode) (opc : BitVec 8) :
    (s.recordError e opc).symq = s.symq := by unfold State.recordError; split <;> rfl
@[simp] theorem State.recordError_arg (s : State) (e : ErrCode) (opc : BitVec 8) :
    (s.recordError e opc).arg = s.arg := by unfold State.recordError; split <;> rfl
@[simp] theorem State.recordError_arg2 (s : State) (e : ErrCode) (opc : BitVec 8) :
    (s.recordError e opc).arg2 = s.arg2 := by unfold State.recordError; split <;> rfl
@[simp] theorem State.recordError_res (s : State) (e : ErrCode) (opc : BitVec 8) :
    (s.recordError e opc).res = s.res := by unfold State.recordError; split <;> rfl
@[simp] theorem State.recordError_resAux (s : State) (e : ErrCode) (opc : BitVec 8) :
    (s.recordError e opc).resAux = s.resAux := by unfold State.recordError; split <;> rfl
@[simp] theorem State.recordError_resAux2 (s : State) (e : ErrCode) (opc : BitVec 8) :
    (s.recordError e opc).resAux2 = s.resAux2 := by unfold State.recordError; split <;> rfl
@[simp] theorem State.recordError_pend (s : State) (e : ErrCode) (opc : BitVec 8) :
    (s.recordError e opc).pend = s.pend := by unfold State.recordError; split <;> rfl
@[simp] theorem State.recordError_agenda (s : State) (e : ErrCode) (opc : BitVec 8) :
    (s.recordError e opc).agenda = s.agenda := by unfold State.recordError; split <;> rfl
@[simp] theorem State.recordError_resp (s : State) (e : ErrCode) (opc : BitVec 8) :
    (s.recordError e opc).resp = s.resp := by unfold State.recordError; split <;> rfl
@[simp] theorem State.recordError_busFault (s : State) (e : ErrCode) (opc : BitVec 8) :
    (s.recordError e opc).busFault = s.busFault := by unfold State.recordError; split <;> rfl
@[simp] theorem State.recordError_draws (s : State) (e : ErrCode) (opc : BitVec 8) :
    (s.recordError e opc).draws = s.draws := by unfold State.recordError; split <;> rfl
@[simp] theorem State.recordError_busy (s : State) (e : ErrCode) (opc : BitVec 8) :
    (s.recordError e opc).busy = s.busy := by unfold State.recordError; split <;> rfl

end Sys2Proof.Machine
end

