-- ==== Sys2Proof/Laws/Ops.lean ====
section
/-! SUPPORT. For each shared operation, what it can do, said once; later proofs cite these and do not unfold. -/

namespace Sys2Proof.Machine

/-! ### Ending a command -/

/-- A command ends in a next state, whatever it answered (30_encoding.md R112). -/
theorem finish_next (s : State) (opc : BitVec 8) (a : Attempt) : ∃ t, finish s opc a = .next t := by
  cases a <;> exact ⟨_, rfl⟩

/-- The two ends of a command: its writes, or the recorded error and nothing else. -/
theorem finish_cases {s t : State} {opc : BitVec 8} {a : Attempt} (h : finish s opc a = .next t) :
    a = .ok t ∨ ∃ e, a = .error e ∧ t = s.recordError e opc := by
  cases a with
  | ok u => exact .inl (by simpa [finish] using h)
  | error e => exact .inr ⟨e, rfl, by simpa [finish, eq_comm] using h⟩

@[simp] theorem finish_ok (s t : State) (opc : BitVec 8) : finish s opc (.ok t) = .next t := rfl

@[simp] theorem finish_error (s : State) (opc : BitVec 8) (e : ErrCode) :
    finish s opc (.error e) = .next (s.recordError e opc) := rfl

@[simp] theorem failIf_true (e : ErrCode) (a : Attempt) : failIf true e a = .error e := rfl

@[simp] theorem failIf_false (e : ErrCode) (a : Attempt) : failIf false e a = a := rfl

/-- A check passes: it was not bad, and the rest answered. -/
theorem failIf_ok_iff {bad : Bool} {e : ErrCode} {a : Attempt} {t : State} :
    failIf bad e a = .ok t ↔ bad = false ∧ a = .ok t := by
  cases bad <;> simp [failIf]

/-- A check fails: it was bad, or a later one was. -/
theorem failIf_error_iff {bad : Bool} {e f : ErrCode} {a : Attempt} :
    failIf bad e a = .error f ↔ (bad = true ∧ e = f) ∨ (bad = false ∧ a = .error f) := by
  cases bad <;> simp [failIf]

@[simp] theorem retire_next (t : State) : retire (.next t) = .next t.clearPend := rfl

theorem retire_eq_next {r : Result} {t : State} (h : retire r = .next t) : ∃ u, r = .next u ∧ t = u.clearPend := by
  cases r with
  | next u => exact ⟨u, rfl, by simpa [retire, eq_comm] using h⟩
  | fault f => simp [retire] at h
  | refused f => simp [retire] at h

/-! ### The frequency table -/

@[simp] theorem ftHas_nil (s : Sym) : ftHas [] s = false := rfl

@[simp] theorem ftCount_nil (s : Sym) : ftCount [] s = 0#64 := rfl

theorem ftHas_cons (k : Sym) (c : Count) (rest : List (Sym × Count)) (s : Sym) :
    ftHas ((k, c) :: rest) s = (k == s || ftHas rest s) := rfl

theorem ftCount_cons (k : Sym) (c : Count) (rest : List (Sym × Count)) (s : Sym) :
    ftCount ((k, c) :: rest) s = if k = s then c else ftCount rest s := rfl

theorem ftHas_iff {ft : List (Sym × Count)} {s : Sym} : ftHas ft s = true ↔ ∃ c, (s, c) ∈ ft := by
  simp [ftHas]

/-- An absent symbol has count 0 (10_state.md R46). -/
theorem ftCount_of_not_has {ft : List (Sym × Count)} {s : Sym} (h : ftHas ft s = false) : ftCount ft s = 0#64 := by
  induction ft with
  | nil => rfl
  | cons p rest ih =>
    obtain ⟨k, c⟩ := p
    simp only [ftHas_cons, Bool.or_eq_false_iff, beq_eq_false_iff_ne] at h
    simp [ftCount_cons, h.1, ih h.2]

/-- Read after write. -/
theorem ftCount_ftPut (ft : List (Sym × Count)) (s : Sym) (c : Count) (x : Sym) :
    ftCount (ftPut ft s c) x = if x = s then c else ftCount ft x := by
  induction ft with
  | nil => simp [ftPut, ftCount_cons, eq_comm]
  | cons p rest ih =>
    obtain ⟨k, d⟩ := p
    simp only [ftPut]
    split
    · subst k
      simp only [ftCount_cons, eq_comm (a := x)]
      split <;> rfl
    · split
      · simp only [ftCount_cons, eq_comm (a := x)]
      · rw [ftCount_cons, ih, ftCount_cons]
        by_cases h : x = s <;> by_cases hk : k = x <;> simp_all

theorem ftHas_ftPut (ft : List (Sym × Count)) (s : Sym) (c : Count) (x : Sym) :
    ftHas (ftPut ft s c) x = (x == s || ftHas ft x) := by
  induction ft with
  | nil => simp [ftPut, ftHas_cons, BEq.comm]
  | cons p rest ih =>
    obtain ⟨k, d⟩ := p
    simp only [ftPut]
    split
    · subst k; by_cases h : x = s <;> simp [ftHas_cons, h, BEq.comm]
    · split
      · simp [ftHas_cons, BEq.comm]
      · rw [ftHas_cons, ih, ftHas_cons]
        cases k == x <;> cases x == s <;> rfl

/-- Removing a symbol leaves every other count alone. -/
theorem ftCount_ftRemove (ft : List (Sym × Count)) (s x : Sym) :
    ftCount (ftRemove ft s) x = if x = s then 0#64 else ftCount ft x := by
  induction ft with
  | nil => simp [ftRemove]
  | cons p rest ih =>
    obtain ⟨k, d⟩ := p
    have ih' : ftCount (List.filter (fun p => p.1 != s) rest) x = if x = s then 0#64 else ftCount rest x := ih
    by_cases hk : k = s
    · simp only [ftRemove, hk, List.filter_cons, bne_self_eq_false, Bool.false_eq_true, if_false, ih', ftCount_cons,
        eq_comm (a := x)]
      split <;> rfl
    · by_cases hx : x = s
      · have : ¬ k = x := fun h => hk (h.trans hx)
        simp only [ftRemove, List.filter_cons, bne_iff_ne, ne_eq, hk, not_false_eq_true, if_true, ftCount_cons, ih', this,
          if_false]
      · simp only [ftRemove, List.filter_cons, bne_iff_ne, ne_eq, hk, not_false_eq_true, if_true, ftCount_cons, ih']
        simp [hx]

/-! ### The canonical form of FT is kept -/

theorem ftWf_nil : ftWf [] = true := by decide

/-- FT is in canonical form after reset. -/
theorem ftWf_reset : ftWf State.reset.ft = true := by decide

theorem ftWf_iff {ft : List (Sym × Count)} : ftWf ft = true ↔
    ft.Pairwise (fun p q => p.1.toNat < q.1.toNat) ∧ ∀ p ∈ ft, scalar p.1 = true ∧ p.2 ≠ 0#64 := by
  simp only [ftWf, Bool.and_eq_true, decide_eq_true_eq, List.all_eq_true, bne_iff_ne]

theorem mem_ftPut {ft : List (Sym × Count)} {s : Sym} {c : Count} {p : Sym × Count} (h : p ∈ ftPut ft s c) :
    p = (s, c) ∨ p ∈ ft := by
  induction ft with
  | nil => simpa [ftPut] using h
  | cons q rest ih =>
    obtain ⟨k, d⟩ := q
    simp only [ftPut] at h
    split at h
    · rcases List.mem_cons.1 h with h | h
      · exact .inl h
      · exact .inr (List.mem_cons_of_mem _ h)
    · split at h
      · rcases List.mem_cons.1 h with h | h
        · exact .inl h
        · exact .inr h
      · rcases List.mem_cons.1 h with h | h
        · exact .inr (h ▸ List.mem_cons_self)
        · rcases ih h with h | h
          · exact .inl h
          · exact .inr (List.mem_cons_of_mem _ h)

theorem ftPut_sorted {ft : List (Sym × Count)} (h : ft.Pairwise fun p q => p.1.toNat < q.1.toNat) (s : Sym)
    (c : Count) : (ftPut ft s c).Pairwise fun p q => p.1.toNat < q.1.toNat := by
  induction ft with
  | nil => simp [ftPut]
  | cons q rest ih =>
    obtain ⟨k, d⟩ := q
    obtain ⟨hk, hr⟩ := List.pairwise_cons.1 h
    simp only [ftPut]
    split
    · subst k; exact List.pairwise_cons.2 ⟨fun p hp => hk p hp, hr⟩
    · split
      · rename_i hlt
        refine List.pairwise_cons.2 ⟨fun p hp => ?_, h⟩
        rcases List.mem_cons.1 hp with hp | hp
        · exact hp ▸ hlt
        · exact lt_trans hlt (hk p hp)
      · rename_i hne hlt
        refine List.pairwise_cons.2 ⟨fun p hp => ?_, ih hr⟩
        rcases mem_ftPut hp with hp | hp
        · subst hp
          have : s.toNat ≠ k.toNat := fun h => hne (BitVec.eq_of_toNat_eq h)
          show k.toNat < s.toNat
          omega
        · exact hk p hp

/-- Setting a nonzero count of a scalar symbol keeps the canonical form. -/
theorem ftWf_ftPut {ft : List (Sym × Count)} {s : Sym} {c : Count} (h : ftWf ft = true) (hs : scalar s = true)
    (hc : c ≠ 0#64) : ftWf (ftPut ft s c) = true := by
  obtain ⟨h1, h2⟩ := ftWf_iff.1 h
  refine ftWf_iff.2 ⟨ftPut_sorted h1 s c, fun p hp => ?_⟩
  rcases mem_ftPut hp with rfl | hp
  · exact ⟨hs, hc⟩
  · exact h2 p hp

/-- Removing a symbol keeps the canonical form. -/
theorem ftWf_ftRemove {ft : List (Sym × Count)} (h : ftWf ft = true) (s : Sym) : ftWf (ftRemove ft s) = true := by
  obtain ⟨h1, h2⟩ := ftWf_iff.1 h
  exact ftWf_iff.2 ⟨h1.filter _, fun p hp => h2 p (List.mem_of_mem_filter hp)⟩

/-- A write adds at most the one key. -/
theorem length_ftPut (ft : List (Sym × Count)) (hs : ft.Pairwise fun p q => p.1.toNat < q.1.toNat) (s : Sym)
    (c : Count) : (ftPut ft s c).length = if ftHas ft s then ft.length else ft.length + 1 := by
  induction ft with
  | nil => simp [ftPut]
  | cons q rest ih =>
    obtain ⟨k, d⟩ := q
    obtain ⟨hk, hr⟩ := List.pairwise_cons.1 hs
    simp only [ftPut]
    by_cases he : s = k
    · simp [he, ftHas_cons]
    · have hne : (k == s) = false := beq_eq_false_iff_ne.2 (Ne.symm he)
      by_cases hlt : s.toNat < k.toNat
      · have hn : ftHas rest s = false := by
          by_contra hh
          obtain ⟨c', hc'⟩ := ftHas_iff.1 (by simpa using hh)
          have : k.toNat < s.toNat := hk _ hc'
          omega
        simp [he, hlt, ftHas_cons, hne, hn]
      · simp only [he, hlt, if_false, List.length_cons, ih hr, ftHas_cons, hne, Bool.false_or]
        split <;> rfl

/-! ### Tables -/

theorem findSym_some {t : List Entry} {s : Sym} {e : Entry} (h : findSym t s = some e) : e ∈ t ∧ e.sym = s :=
  ⟨List.mem_of_find?_eq_some h, by simpa using List.find?_some h⟩

theorem findCode_some {t : List Entry} {len : Nat} {val : CodeVal} {e : Entry} (h : findCode t len val = some e) :
    e ∈ t ∧ e.len = len ∧ e.val = val :=
  ⟨List.mem_of_find?_eq_some h, by simpa using List.find?_some h⟩

theorem findCode_none {t : List Entry} {len : Nat} {val : CodeVal} (h : findCode t len val = none) :
    ∀ e ∈ t, ¬ (e.len = len ∧ e.val = val) := by
  intro e he
  have := List.find?_eq_none.1 h e he
  simpa using this

theorem len_le_maxLen {t : List Entry} {e : Entry} (h : e ∈ t) : e.len ≤ maxLen t := by
  induction t with
  | nil => cases h
  | cons f rest ih =>
    rcases List.mem_cons.1 h with rfl | h
    · exact Nat.le_max_left _ _
    · exact (ih h).trans (Nat.le_max_right _ _)

theorem hasDuplicateSym_false {t : List Entry} :
    hasDuplicateSym t = false ↔ t.Pairwise fun e f => e.sym ≠ f.sym := by
  induction t with
  | nil => simp [hasDuplicateSym]
  | cons e rest ih =>
    simp only [hasDuplicateSym, Bool.or_eq_false_iff, ih, List.pairwise_cons, List.any_eq_false, beq_iff_eq]
    exact and_congr_left' ⟨fun h f hf he => h f hf he.symm, fun h f hf he => h f hf he.symm⟩

theorem hasPrefixPair_false {t : List Entry} :
    hasPrefixPair t = false ↔ t.Pairwise fun e f => e.isPrefixOf f = false ∧ f.isPrefixOf e = false := by
  induction t with
  | nil => simp [hasPrefixPair]
  | cons e rest ih => simp [hasPrefixPair, ih, List.pairwise_cons]

/-! ### The serializer and the matcher -/

@[simp] theorem Serializer.pushAll_nil (z : Serializer) : z.pushAll [] = z := rfl

@[simp] theorem Serializer.pushAll_cons (z : Serializer) (b : Bool) (bs : List Bool) :
    z.pushAll (b :: bs) = (z.push b).pushAll bs := rfl

@[simp] theorem Matcher.pushAll_nil (dt : List Entry) (n : Nat) (m : Matcher) : m.pushAll dt n [] = .ok m := rfl

theorem Matcher.pushAll_cons (dt : List Entry) (n : Nat) (m : Matcher) (b : Bool) (bs : List Bool) :
    m.pushAll dt n (b :: bs) =
      match m.push dt n b with
      | .ok m' => m'.pushAll dt n bs
      | .error e => .error e := rfl

/-- One bit: a code matches and its symbol comes out, or none can match any more, or the window grows (44_decoder.md
R186). -/
theorem Matcher.push_cases (dt : List Entry) (n : Nat) (m : Matcher) (b : Bool) :
    (∃ e, e ∈ dt ∧ e.len = m.wlen + 1 ∧ e.val = (m.w <<< 1) ||| (BitVec.ofBool b).setWidth 64 ∧
      m.push dt n b = .ok { w := 0#64, wlen := 0, out := m.out ++ [e.sym] }) ∨
    (findCode dt (m.wlen + 1) ((m.w <<< 1) ||| (BitVec.ofBool b).setWidth 64) = none ∧ n ≤ m.wlen + 1 ∧
      m.push dt n b = .error .UNDECODABLE) ∨
    (findCode dt (m.wlen + 1) ((m.w <<< 1) ||| (BitVec.ofBool b).setWidth 64) = none ∧ m.wlen + 1 < n ∧
      m.push dt n b =
        .ok { w := (m.w <<< 1) ||| (BitVec.ofBool b).setWidth 64, wlen := m.wlen + 1, out := m.out }) := by
  unfold Matcher.push
  cases h : findCode dt (m.wlen + 1) ((m.w <<< 1) ||| (BitVec.ofBool b).setWidth 64) with
  | some e =>
    obtain ⟨h1, h2, h3⟩ := findCode_some h
    exact .inl ⟨e, h1, h2, h3, by simp [h]⟩
  | none =>
    by_cases hn : n ≤ m.wlen + 1
    · exact .inr (.inl ⟨rfl, hn, by simp [h, hn]⟩)
    · exact .inr (.inr ⟨rfl, by omega, by simp [h, hn]⟩)

/-- push_bits succeeds: every bit was matched and SYMQ had room (44_decoder.md R186). -/
theorem State.pushBits_ok {s t : State} {bits : List Bool} (h : s.pushBits bits = .ok t) :
    ∃ m, Matcher.pushAll s.dt s.dtMaxLen { w := s.w, wlen := s.wlen, out := [] } bits = .ok m ∧
      s.symq.length + m.out.length ≤ s.cfg.symDepth ∧
      t = { s with w := m.w, wlen := m.wlen, symq := s.symq ++ m.out } := by
  unfold State.pushBits at h
  split at h
  · cases h
  · rename_i m hm
    obtain ⟨h1, h2⟩ := failIf_ok_iff.1 h
    refine ⟨m, hm, by simpa using h1, ?_⟩
    simpa [eq_comm] using h2

/-! ### The window, the host's accesses and the turns -/

/-- The three outcomes of a CMD write (30_encoding.md R111). -/
theorem submit_cases (w : Word) (s : State) :
    (s.busy = true ∧ submit w s = s.recordError .BUSY_CMD (w.extractLsb' 24 8)) ∨
    (s.busy = false ∧ s.err = true ∧ submit w s = s) ∨
    (s.busy = false ∧ submit w s = { s with pend := some { word := w, arg := s.arg, arg2 := s.arg2 } }) := by
  unfold submit
  cases hb : s.busy
  · simp only [Bool.false_eq_true, if_false, false_and, true_and, false_or]
    split
    · rename_i h
      exact .inl ⟨(Bool.and_eq_true _ _ ▸ h).1, rfl⟩
    · exact .inr rfl
  · simp

/-- A read changes nothing but a popped FIFO or the count of draws (20_memory.md R88, R93). -/
theorem memRead_state (off : Nat) (s : State) :
    (memRead off s).2 = s ∨ (memRead off s).2 = { s with outq := s.outq.tail } ∨
      (memRead off s).2 = { s with symq := s.symq.tail } ∨ (memRead off s).2 = { s with draws := s.draws + 1 } := by
  unfold memRead
  split
  · exact .inl rfl
  · split
    · unfold readBusy
      split
      · exact .inl rfl
      · split
        · exact .inl rfl
        · exact .inr (.inr (.inr rfl))
    · unfold readIdle
      split <;> simp

theorem Reg.at_offset {off : Nat} {r : Reg} (h : Reg.at off = some r) : r.offset = off := by
  simpa using List.find?_some h

/-- What a write can do (20_memory.md R92). -/
theorem memWrite_cases (off : Nat) (v : Word) (s : State) :
    memWrite off v s = s ∨ (off = 0x004 ∧ v.getLsbD 0 = true ∧ memWrite off v s = s.hardReset) ∨
      (off = 0x010 ∧ memWrite off v s = submit v s) ∨
      (∃ a, memWrite off v s = { s with arg := a }) ∨ (∃ a, memWrite off v s = { s with arg2 := a }) := by
  unfold memWrite
  split
  · rename_i hr
    split
    · rename_i hv
      exact .inr (.inl ⟨(Reg.at_offset hr).symm, hv, rfl⟩)
    · exact .inl rfl
  · rename_i hr
    exact .inr (.inr (.inl ⟨(Reg.at_offset hr).symm, rfl⟩))
  · exact .inr (.inr (.inr (.inl ⟨_, rfl⟩)))
  · exact .inr (.inr (.inr (.inl ⟨_, rfl⟩)))
  · exact .inr (.inr (.inr (.inr ⟨_, rfl⟩)))
  · exact .inl rfl

theorem hostRead_cases {addr width : Nat} {s t : State} (h : hostRead addr width s = .next t) :
    t = s.busError ∨ t = (memRead (addr - s.cfg.base) s).2.answer (memRead (addr - s.cfg.base) s).1 := by
  unfold hostRead at h
  split at h
  · cases h
  · dsimp only at h
    split at h
    · exact .inr (by injection h with h; exact h.symm)
    · exact .inl (by injection h with h; exact h.symm)

theorem hostWrite_cases {addr width : Nat} {v : Word} {s t : State} (h : hostWrite addr width v s = .next t) :
    t = s.busError ∨ (width = 4 ∧ ∃ off, addr = s.cfg.base + off ∧ t = (memWrite off v s).answer 0#32) := by
  unfold hostWrite at h
  split at h
  · cases h
  · rename_i hw
    dsimp only at h
    split at h
    · rename_i hl
      simp only [State.inWindow, accessLegal, Bool.not_eq_true, Bool.not_eq_false', Bool.and_eq_true,
        decide_eq_true_eq, beq_iff_eq] at hw hl
      exact .inr ⟨hl.1, addr - s.cfg.base, by omega, by injection h with h; exact h.symm⟩
    · exact .inl (by injection h with h; exact h.symm)

/-- What an engine turn can do (30_encoding.md R112): nothing while BUSY = 0; otherwise run the decoded command, or
record ILLEGAL_CMD; and PEND is then none. -/
theorem engineStep_cases {s t : State} (h : engineStep s = .next t) :
    (s.pend = none ∧ t = s) ∨
    (∃ p i u, s.pend = some p ∧ decode p.word = .ok i ∧ exec i s = .next u ∧ t = u.clearPend) ∨
    (∃ p e, s.pend = some p ∧ decode p.word = .error e ∧
      t = (s.recordError .ILLEGAL_CMD (opcField p.word)).clearPend) := by
  unfold engineStep at h
  split at h
  · rename_i hp; exact .inl ⟨hp, by injection h with h; exact h.symm⟩
  · rename_i p hp
    split at h
    · rename_i i hi
      obtain ⟨u, hu, ht⟩ := retire_eq_next h
      exact .inr (.inl ⟨p, i, u, hp, hi, hu, ht⟩)
    · rename_i e he
      exact .inr (.inr ⟨p, e, hp, he, by simpa [eq_comm] using h⟩)

/-- What a step is: the engine's turn when nothing is listed, else the first listed turn (20_memory.md R95). -/
theorem step_cases {s t : State} (h : step s = .next t) :
    (s.agenda = [] ∧ engineStep s = .next t) ∨
    ∃ m rest, s.agenda = m :: rest ∧ act m { s with agenda := rest } = .next t := by
  unfold step turn at h
  split at h
  · rename_i ha; exact .inl ⟨ha, h⟩
  · rename_i m rest ha; exact .inr ⟨m, rest, ha, h⟩

end Sys2Proof.Machine
end

