-- ==== Sys2Proof/Laws/Bits.lean ====
section
/-! SUPPORT. Codes as bit strings (spec/00_scope.md R13, spec/20_memory.md R85), bytes as bit strings (R84), and what the
serializer and the matcher do to them. -/

namespace Sys2Proof.Machine

/-! ### Bit strings and numbers -/

@[simp] theorem length_codeBits (n : Nat) (v : CodeVal) : (codeBits n v).length = n := by
  induction n with
  | zero => rfl
  | succ n ih => simp [codeBits, ih]

@[simp] theorem Entry.length_bits (e : Entry) : e.bits.length = e.len := length_codeBits _ _

@[simp] theorem bitsOf_nil : bitsOf [] = [] := rfl

@[simp] theorem bitsOf_cons (e : Entry) (es : List Entry) : bitsOf (e :: es) = e.bits ++ bitsOf es := by
  simp [bitsOf]

@[simp] theorem bitsOf_append (es fs : List Entry) : bitsOf (es ++ fs) = bitsOf es ++ bitsOf fs := by
  simp [bitsOf]

theorem foldl_bitsValue (bits : List Bool) (v : Nat) :
    bits.foldl (fun v b => 2 * v + b.toNat) v = v * 2 ^ bits.length + bitsValue bits := by
  induction bits generalizing v with
  | nil => simp [bitsValue]
  | cons b bs ih =>
    have h1 : bitsValue (b :: bs) = b.toNat * 2 ^ bs.length + bitsValue bs := by
      show bs.foldl (fun v b => 2 * v + b.toNat) (2 * 0 + b.toNat) = _
      rw [ih, Nat.mul_zero, Nat.zero_add]
    rw [h1, List.foldl_cons, ih, List.length_cons, Nat.pow_succ]
    ring

@[simp] theorem bitsValue_nil : bitsValue [] = 0 := rfl

theorem bitsValue_cons (b : Bool) (bs : List Bool) :
    bitsValue (b :: bs) = b.toNat * 2 ^ bs.length + bitsValue bs := by
  show bs.foldl (fun v b => 2 * v + b.toNat) (2 * 0 + b.toNat) = _
  rw [foldl_bitsValue, Nat.mul_zero, Nat.zero_add]

theorem bitsValue_append (as bs : List Bool) :
    bitsValue (as ++ bs) = bitsValue as * 2 ^ bs.length + bitsValue bs := by
  rw [bitsValue, List.foldl_append, foldl_bitsValue]
  rfl

theorem bitsValue_lt (bits : List Bool) : bitsValue bits < 2 ^ bits.length := by
  induction bits with
  | nil => simp
  | cons b bs ih =>
    rw [bitsValue_cons, List.length_cons, Nat.pow_succ]
    cases b <;> simp <;> omega

/-- A code's bit string stands for its value. -/
theorem bitsValue_codeBits {n : Nat} {v : CodeVal} (h : v.toNat < 2 ^ n) : bitsValue (codeBits n v) = v.toNat := by
  have key : ∀ n : Nat, bitsValue (codeBits n v) = v.toNat % 2 ^ n := by
    intro n
    induction n with
    | zero => simp [codeBits, Nat.mod_one]
    | succ n ih =>
      rw [codeBits, bitsValue_cons, ih, length_codeBits, Nat.pow_succ, Nat.mod_mul, BitVec.getLsbD, Nat.testBit_eq_decide_div_mod_eq]
      have : v.toNat / 2 ^ n % 2 = 0 ∨ v.toNat / 2 ^ n % 2 = 1 := by omega
      rcases this with h | h <;> simp [h]
      omega
  rw [key, Nat.mod_eq_of_lt h]

/-- A bit string is determined by its length and its number. -/
theorem eq_of_bitsValue {as bs : List Bool} (hl : as.length = bs.length) (hv : bitsValue as = bitsValue bs) :
    as = bs := by
  induction as generalizing bs with
  | nil => exact (List.length_eq_zero_iff.1 hl.symm).symm
  | cons a as ih =>
    cases bs with
    | nil => cases hl
    | cons b bs =>
      have hl' : as.length = bs.length := by simpa using hl
      rw [bitsValue_cons, bitsValue_cons, hl'] at hv
      have h1 := bitsValue_lt as
      have h2 := bitsValue_lt bs
      rw [hl'] at h1
      cases a <;> cases b <;> simp at hv
      · rw [ih hl' hv]
      · omega
      · omega
      · rw [ih hl' hv]

/-- The code of a number is the bit string it was read from. -/
theorem codeBits_bitsValue {bits : List Bool} (h : bits.length ≤ 64) :
    codeBits bits.length (BitVec.ofNat 64 (bitsValue bits)) = bits := by
  have h1 := bitsValue_lt bits
  have h2 : 2 ^ bits.length ≤ 2 ^ 64 := Nat.pow_le_pow_right (by omega) h
  refine eq_of_bitsValue (length_codeBits _ _) ?_
  rw [bitsValue_codeBits] <;> rw [BitVec.toNat_ofNat, Nat.mod_eq_of_lt (by omega)]
  exact h1

/-- Codes with the same bit string are the same pair (len, val). -/
theorem Entry.bits_inj {a b : Entry} (ha : a.val.toNat < 2 ^ a.len) (hb : b.val.toNat < 2 ^ b.len)
    (h : a.bits = b.bits) : a.len = b.len ∧ a.val = b.val := by
  have hl : a.len = b.len := by simpa using congrArg List.length h
  refine ⟨hl, BitVec.eq_of_toNat_eq ?_⟩
  rw [← bitsValue_codeBits ha, ← bitsValue_codeBits hb]
  exact congrArg bitsValue h

/-- A prefix test on bit strings, as division of their numbers. -/
theorem prefix_iff_div {as bs : List Bool} :
    as <+: bs ↔ as.length ≤ bs.length ∧ bitsValue bs / 2 ^ (bs.length - as.length) = bitsValue as := by
  constructor
  · rintro ⟨cs, rfl⟩
    refine ⟨by simp, ?_⟩
    rw [bitsValue_append, List.length_append, Nat.add_sub_cancel_left,
      Nat.mul_comm, Nat.mul_add_div (Nat.two_pow_pos _), Nat.div_eq_of_lt (bitsValue_lt cs), Nat.add_zero]
  · rintro ⟨h1, h2⟩
    have h3 : bs = bs.take as.length ++ bs.drop as.length := (List.take_append_drop _ _).symm
    have h4 : (bs.take as.length).length = as.length := by simp [h1]
    have h5 : (bs.drop as.length).length = bs.length - as.length := by simp
    have h6 : bitsValue (bs.take as.length) = bitsValue as := by
      rw [← h2]
      conv_rhs => rw [h3]
      rw [bitsValue_append, List.length_append, h4, h5, Nat.add_sub_cancel_left,
        Nat.mul_comm, Nat.mul_add_div (Nat.two_pow_pos _),
        Nat.div_eq_of_lt (by rw [← h5]; exact bitsValue_lt _), Nat.add_zero]
    rw [← eq_of_bitsValue h4 h6]
    exact List.take_prefix _ _

/-- The decode table's prefix test is the prefix relation of the bit strings (44_decoder.md R184). -/
theorem Entry.isPrefixOf_iff {a b : Entry} (ha : a.val.toNat < 2 ^ a.len) (hb : b.val.toNat < 2 ^ b.len) :
    a.isPrefixOf b = true ↔ a.bits <+: b.bits := by
  rw [prefix_iff_div, Entry.length_bits, Entry.length_bits, Entry.bits, Entry.bits, bitsValue_codeBits ha,
    bitsValue_codeBits hb]
  simp only [Entry.isPrefixOf, Bool.and_eq_true, decide_eq_true_eq, beq_iff_eq, ← BitVec.toNat_inj,
    BitVec.toNat_ushiftRight, Nat.shiftRight_eq_div_pow]

/-- Appending a bit to the window (44_decoder.md R186). -/
theorem toNat_shift_in {w : CodeVal} {n : Nat} (h : w.toNat < 2 ^ n) (hn : n < 64) (b : Bool) :
    ((w <<< 1) ||| (BitVec.ofBool b).setWidth 64).toNat = 2 * w.toNat + b.toNat := by
  have h1 : 2 ^ n ≤ 2 ^ 63 := Nat.pow_le_pow_right (by omega) (by omega)
  have h2 : (w <<< 1) ||| (BitVec.ofBool b).setWidth 64 = BitVec.ofNat 64 (2 * w.toNat + b.toNat) := by
    apply BitVec.eq_of_getLsbD_eq
    intro i hi
    rw [BitVec.getLsbD_or, BitVec.getLsbD_shiftLeft, BitVec.getLsbD_setWidth, BitVec.getLsbD_ofNat]
    cases i with
    | zero => cases b <;> simp [Nat.testBit_zero]
    | succ i =>
      have h3 : (2 * w.toNat + b.toNat).testBit (i + 1) = w.toNat.testBit i := by
        rw [Nat.testBit_succ]
        congr 1
        cases b <;> (simp; try omega)
      have h4 : b.toNat.testBit (i + 1) = false := by cases b with
        | false => simp
        | true => simp [Nat.testBit_succ]
      simp [h3, h4, hi, BitVec.getLsbD]
  rw [h2, BitVec.toNat_ofNat, Nat.mod_eq_of_lt]
  cases b <;> simp <;> omega

theorem codeBits_shift_in {w : CodeVal} {n : Nat} (h : w.toNat < 2 ^ n) (hn : n < 64) (b : Bool) :
    codeBits (n + 1) ((w <<< 1) ||| (BitVec.ofBool b).setWidth 64) = codeBits n w ++ [b] := by
  have h1 := toNat_shift_in h hn b
  refine eq_of_bitsValue (by simp) ?_
  rw [bitsValue_codeBits (by rw [h1, Nat.pow_succ]; cases b <;> simp <;> omega), h1, bitsValue_append,
    bitsValue_codeBits h, bitsValue_cons]
  simp
  omega

/-! ### Bytes -/

@[simp] theorem length_byteBits (b : Byte) (t : Nat) : (byteBits b t).length = t := by simp [byteBits]

@[simp] theorem byteBits_zero (b : Byte) : byteBits b 0 = [] := rfl

theorem byteBits_succ (b : Byte) (t : Nat) : byteBits b (t + 1) = byteBits b t ++ [b.getLsbD (7 - t)] := by
  simp [byteBits, List.range_succ]

theorem byteBits_congr {a b : Byte} {t : Nat} (h : ∀ k, k < t → a.getLsbD (7 - k) = b.getLsbD (7 - k)) :
    byteBits a t = byteBits b t := by
  simp only [byteBits]
  exact List.map_congr_left fun k hk => h k (List.mem_range.1 hk)

theorem getLsbD_setBit (v : Byte) {i : Nat} (hi : i < 8) (b : Bool) (j : Nat) :
    (setBit v i b).getLsbD j = if j = i then b else v.getLsbD j := by
  have h1 : (1#8 <<< i).getLsbD j = decide (j = i) := by
    rw [BitVec.getLsbD_shiftLeft, BitVec.getLsbD_one]
    by_cases h : j = i
    · subst h; simp [hi]
    · by_cases h2 : j < i
      · simp [h, h2]
      · have : ¬ j - i = 0 := by omega
        simp [h, this]
  have h0 : (0#8).getLsbD j = false := by simp
  by_cases h8 : j < 8
  · cases b <;> rw [setBit] <;> simp only [if_true, Bool.false_eq_true, if_false, BitVec.getLsbD_or,
      BitVec.getLsbD_and, BitVec.getLsbD_not, h1, h0, h8, decide_true, Bool.true_and, Bool.or_false] <;>
      by_cases hj : j = i <;> simp [hj]
  · rw [if_neg (by omega), BitVec.getLsbD_of_ge _ _ (Nat.le_of_not_lt h8),
      BitVec.getLsbD_of_ge _ _ (Nat.le_of_not_lt h8)]

/-! ### The serializer -/

/-- The bits a serializer holds: those of its bytes, then those in ACC. -/
def Serializer.bits (z : Serializer) : List Bool := z.out.flatMap (fun b => byteBits b 8) ++ byteBits z.acc z.nbits

/-- The bits of ACC below the held ones are 0 (10_state.md R50). -/
def Serializer.padded (z : Serializer) : Prop := ∀ i, i + z.nbits < 8 → z.acc.getLsbD i = false

theorem Serializer.push_spec (z : Serializer) (h : z.nbits < 8) (b : Bool) :
    (z.push b).bits = z.bits ++ [b] ∧ (z.push b).nbits = (z.nbits + 1) % 8 ∧
      (z.push b).out.length = z.out.length + (z.nbits + 1) / 8 ∧ (z.padded → (z.push b).padded) := by
  have hset := getLsbD_setBit z.acc (i := 7 - z.nbits) (by omega) b
  have hbits : byteBits (setBit z.acc (7 - z.nbits) b) (z.nbits + 1) = byteBits z.acc z.nbits ++ [b] := by
    rw [byteBits_succ, hset, if_pos rfl]
    congr 1
    exact byteBits_congr fun k hk => by rw [hset, if_neg (by omega)]
  by_cases h8 : z.nbits + 1 = 8
  · have hp : z.push b = { acc := 0#8, nbits := 0, out := z.out ++ [setBit z.acc (7 - z.nbits) b] } := by
      simp [Serializer.push, h8]
    rw [h8] at hbits
    rw [hp]
    refine ⟨?_, by simp [h8], by simp [h8], fun _ i _ => by simp⟩
    simp [Serializer.bits, hbits]
  · have hp : z.push b = { z with acc := setBit z.acc (7 - z.nbits) b, nbits := z.nbits + 1 } := by
      simp [Serializer.push, h8]
    rw [hp]
    refine ⟨by simp [Serializer.bits, hbits], (Nat.mod_eq_of_lt (show z.nbits + 1 < 8 by omega)).symm, ?_,
      fun hz i hi => ?_⟩
    · show z.out.length = _
      rw [Nat.div_eq_of_lt (by omega), Nat.add_zero]
    · show (setBit z.acc (7 - z.nbits) b).getLsbD i = false
      have hi' : i + (z.nbits + 1) < 8 := hi
      rw [hset, if_neg (by omega)]
      exact hz i (by omega)

/-- What the loop of ENC_SYMBOL does to the bits (42_encoder.md R160). -/
theorem Serializer.pushAll_spec (z : Serializer) (h : z.nbits < 8) (bs : List Bool) :
    (z.pushAll bs).bits = z.bits ++ bs ∧ (z.pushAll bs).nbits = (z.nbits + bs.length) % 8 ∧
      (z.pushAll bs).out.length = z.out.length + (z.nbits + bs.length) / 8 ∧
      (z.padded → (z.pushAll bs).padded) := by
  induction bs generalizing z with
  | nil =>
    refine ⟨by simp, (Nat.mod_eq_of_lt h).symm, ?_, fun hz => hz⟩
    show z.out.length = _
    rw [List.length_nil, Nat.add_zero, Nat.div_eq_of_lt h, Nat.add_zero]
  | cons b bs ih =>
    obtain ⟨p1, p2, p3, p4⟩ := z.push_spec h b
    obtain ⟨q1, q2, q3, q4⟩ := ih (z.push b) (by omega)
    rw [Serializer.pushAll_cons]
    refine ⟨by rw [q1, p1, List.append_assoc]; rfl, by rw [q2, p2, List.length_cons]; omega, ?_, fun hz => q4 (p4 hz)⟩
    rw [q3, p3, p2, List.length_cons]
    omega

end Sys2Proof.Machine
end

