-- ==== Sys2Proof/Laws/Tree.lean ====
section
/-! SUPPORT. What the loop of BUILD_TREE keeps (spec/40_tree_builder.md R131 to R137): the queue is the set of nodes with
no parent yet, its frequencies sum to the total, and it covers the symbols of FT. -/

namespace Sys2Proof.Machine

/-! ### The order of keys (R133) -/

theorem keyLt_iff {a b : Nat × Nat × Nat} : keyLt a b = true ↔
    a.1 < b.1 ∨ (a.1 = b.1 ∧ (a.2.1 < b.2.1 ∨ (a.2.1 = b.2.1 ∧ a.2.2 < b.2.2))) := by
  simp [keyLt]

theorem keyLt_false_trans {a b c : Nat × Nat × Nat} (h1 : keyLt b a = false) (h2 : keyLt c b = false) :
    keyLt c a = false := by
  rw [← Bool.not_eq_true, keyLt_iff] at h1 h2 ⊢
  omega

theorem keyLt_asymm {a b : Nat × Nat × Nat} (h : keyLt a b = true) : keyLt b a = false := by
  rw [keyLt_iff] at h
  rw [← Bool.not_eq_true, keyLt_iff]
  omega

theorem keyLt_of_ne {a b : Nat × Nat × Nat} (h : keyLt b a = false) (hne : a ≠ b) : keyLt a b = true := by
  rw [← Bool.not_eq_true, keyLt_iff] at h
  rw [keyLt_iff]
  have : a.1 ≠ b.1 ∨ a.2.1 ≠ b.2.1 ∨ a.2.2 ≠ b.2.2 := by
    by_contra hc
    simp only [not_or, ne_eq, not_not] at hc
    exact hne (Prod.ext hc.1 (Prod.ext hc.2.1 hc.2.2))
  omega

/-- The member taken out of a queue has no smaller key beside it, and the rest is the queue without it. -/
theorem extractMin_spec (x : Node × Nat) (q : Queue) :
    ((extractMin x q).1 :: (extractMin x q).2).Perm (x :: q) ∧
      ∀ z ∈ (extractMin x q).2, keyLt (nodeKey z.1 z.2) (nodeKey (extractMin x q).1.1 (extractMin x q).1.2) = false := by
  induction q generalizing x with
  | nil => exact ⟨List.Perm.refl _, by simp [extractMin]⟩
  | cons y ys ih =>
    simp only [extractMin]
    split
    · rename_i hlt
      obtain ⟨h1, h2⟩ := ih y
      refine ⟨(List.Perm.swap _ _ _).trans (h1.cons x), fun z hz => ?_⟩
      rcases List.mem_cons.1 hz with rfl | hz
      · have hy : y ∈ (extractMin y ys).1 :: (extractMin y ys).2 := h1.symm.subset List.mem_cons_self
        have hym : keyLt (nodeKey y.1 y.2) (nodeKey (extractMin y ys).1.1 (extractMin y ys).1.2) = false := by
          rcases List.mem_cons.1 hy with h | h
          · rw [← h, ← Bool.not_eq_true, keyLt_iff]; omega
          · exact h2 y h
        exact keyLt_false_trans hym (keyLt_asymm hlt)
      · exact h2 z hz
    · rename_i hge
      obtain ⟨h1, h2⟩ := ih x
      refine ⟨(List.Perm.swap _ _ _).trans ((h1.cons y).trans (List.Perm.swap _ _ _)), fun z hz => ?_⟩
      rcases List.mem_cons.1 hz with rfl | hz
      · have hx : x ∈ (extractMin x ys).1 :: (extractMin x ys).2 := h1.symm.subset List.mem_cons_self
        have hxm : keyLt (nodeKey x.1 x.2) (nodeKey (extractMin x ys).1.1 (extractMin x ys).1.2) = false := by
          rcases List.mem_cons.1 hx with h | h
          · rw [← h, ← Bool.not_eq_true, keyLt_iff]; omega
          · exact h2 x h
        exact keyLt_false_trans hxm (by simpa using hge)
      · exact h2 z hz

/-! ### Paths: the leaves under a node, with the way to each -/

/-- The leaves under node `i`, each with its way from there, in the order of the walk (41_code_table.md R148). -/
def paths (nodes : List Node) : Nat → Nat → List (List Bool × Sym)
  | 0, _ => []
  | fuel + 1, i =>
    match nodes[i]? with
    | none => []
    | some (.leaf _ s) => [([], s)]
    | some (.internal _ l r) =>
      (paths nodes fuel l).map (fun p => (false :: p.1, p.2)) ++ (paths nodes fuel r).map (fun p => (true :: p.1, p.2))

/-- Children stand below their parent (10_state.md R47). -/
def ChildrenBelow (nodes : List Node) : Prop :=
  ∀ (m : Nat) (f : Count) (l r : Nat), nodes[m]? = some (.internal f l r) → l < m ∧ r < m

theorem paths_internal {nodes : List Node} {i : Nat} {f : Count} {l r : Nat} (h : nodes[i]? = some (.internal f l r))
    (fuel : Nat) : paths nodes (fuel + 1) i =
      (paths nodes fuel l).map (fun p => (false :: p.1, p.2)) ++
        (paths nodes fuel r).map (fun p => (true :: p.1, p.2)) := by
  simp only [paths, h]

/-- Fuel beyond the index makes no difference. -/
theorem paths_fuel {nodes : List Node} (h : ChildrenBelow nodes) {i : Nat} :
    ∀ {a b : Nat}, i < a → i < b → paths nodes a i = paths nodes b i := by
  induction i using Nat.strong_induction_on with
  | _ i ih =>
    intro a b ha hb
    obtain ⟨a, rfl⟩ := Nat.exists_eq_succ_of_ne_zero (by omega : a ≠ 0)
    obtain ⟨b, rfl⟩ := Nat.exists_eq_succ_of_ne_zero (by omega : b ≠ 0)
    simp only [paths]
    cases hn : nodes[i]? with
    | none => rfl
    | some n =>
      cases n with
      | leaf f s => rfl
      | internal f l r =>
        obtain ⟨hl, hr⟩ := h i f l r hn
        simp only [ih l hl (show l < a by omega) (show l < b by omega),
          ih r hr (show r < a by omega) (show r < b by omega)]

/-- A node added above makes no difference. -/
theorem paths_append {nodes : List Node} (h : ChildrenBelow nodes) (more : List Node) {i : Nat} :
    ∀ {a : Nat}, i < nodes.length → paths (nodes ++ more) a i = paths nodes a i := by
  induction i using Nat.strong_induction_on with
  | _ i ih =>
    intro a hi
    cases a with
    | zero => rfl
    | succ a =>
      simp only [paths, List.getElem?_append_left hi]
      cases hn : nodes[i]? with
      | none => rfl
      | some n =>
        cases n with
        | leaf f s => rfl
        | internal f l r =>
          obtain ⟨hl, hr⟩ := h i f l r hn
          simp only [ih l hl (a := a) (by omega), ih r hr (a := a) (by omega)]

/-- The walk of GEN_TABLE finds the paths. -/
theorem walk_eq (nodes : List Node) (fuel i len val : Nat) : walk nodes fuel i len val =
    (paths nodes fuel i).map fun p =>
      { sym := p.2, len := len + p.1.length, val := val * 2 ^ p.1.length + bitsValue p.1 } := by
  induction fuel generalizing i len val with
  | zero => rfl
  | succ fuel ih =>
    simp only [walk, paths]
    cases hn : nodes[i]? with
    | none => rfl
    | some n =>
      cases n with
      | leaf f s => simp
      | internal f l r =>
        simp only [ih, List.map_append, List.map_map]
        congr 1 <;> refine List.map_congr_left fun p _ => ?_ <;>
          simp only [Function.comp_apply, List.length_cons, bitsValue_cons, Nat.pow_succ, RawCode.mk.injEq, true_and] <;>
          refine ⟨by omega, ?_⟩ <;> simp <;> ring

/-- No path is a prefix of another. -/
theorem paths_prefixFree (nodes : List Node) (fuel i : Nat) :
    (paths nodes fuel i).Pairwise fun p q => ¬ p.1 <+: q.1 ∧ ¬ q.1 <+: p.1 := by
  induction fuel generalizing i with
  | zero => exact List.Pairwise.nil
  | succ fuel ih =>
    simp only [paths]
    split
    · exact List.Pairwise.nil
    · exact List.pairwise_singleton _ _
    · rw [List.pairwise_append]
      refine ⟨?_, ?_, ?_⟩
      · rw [List.pairwise_map]; exact (ih _).imp fun h => by simpa [List.cons_prefix_cons] using h
      · rw [List.pairwise_map]; exact (ih _).imp fun h => by simpa [List.cons_prefix_cons] using h
      · intro p hp q hq
        obtain ⟨p', _, rfl⟩ := List.mem_map.1 hp
        obtain ⟨q', _, rfl⟩ := List.mem_map.1 hq
        simp [List.cons_prefix_cons]

theorem paths_ne_nil {nodes : List Node} (h : ChildrenBelow nodes) {i : Nat} :
    ∀ {fuel : Nat}, i < nodes.length → i < fuel → paths nodes fuel i ≠ [] := by
  induction i using Nat.strong_induction_on with
  | _ i ih =>
    intro fuel hi hf
    obtain ⟨fuel, rfl⟩ := Nat.exists_eq_succ_of_ne_zero (by omega : fuel ≠ 0)
    simp only [paths]
    cases hn : nodes[i]? with
    | none => rw [List.getElem?_eq_none_iff] at hn; omega
    | some n =>
      cases n with
      | leaf f s => simp
      | internal f l r =>
        obtain ⟨hl, hr⟩ := h i f l r hn
        simpa using fun hc => absurd hc (ih l hl (by omega) (by omega))

/-- A way has fewer steps than there are leaves. -/
theorem length_lt_paths {nodes : List Node} (h : ChildrenBelow nodes) {i : Nat} :
    ∀ {fuel : Nat}, i < nodes.length → i < fuel → ∀ p ∈ paths nodes fuel i, p.1.length < (paths nodes fuel i).length := by
  induction i using Nat.strong_induction_on with
  | _ i ih =>
    intro fuel hi hf p hp
    obtain ⟨fuel, rfl⟩ := Nat.exists_eq_succ_of_ne_zero (by omega : fuel ≠ 0)
    simp only [paths] at hp ⊢
    cases hn : nodes[i]? with
    | none => rw [hn] at hp; simp at hp
    | some n =>
      rw [hn] at hp
      cases n with
      | leaf f s => simp at hp; subst hp; simp
      | internal f l r =>
        obtain ⟨hl, hr⟩ := h i f l r hn
        have hln := List.length_pos_iff.2 (paths_ne_nil h (i := l) (fuel := fuel) (by omega) (by omega))
        have hrn := List.length_pos_iff.2 (paths_ne_nil h (i := r) (fuel := fuel) (by omega) (by omega))
        simp only [List.length_append, List.length_map]
        rcases List.mem_append.1 hp with hp | hp
        · obtain ⟨p', hp', rfl⟩ := List.mem_map.1 hp
          have := ih l hl (by omega) (by omega) p' hp'
          simp only [List.length_cons]
          omega
        · obtain ⟨p', hp', rfl⟩ := List.mem_map.1 hp
          have := ih r hr (by omega) (by omega) p' hp'
          simp only [List.length_cons]
          omega

/-- The Kraft sum of the paths is 1. -/
theorem paths_kraft {nodes : List Node} (h : ChildrenBelow nodes) {i : Nat} :
    ∀ {fuel n : Nat}, i < nodes.length → i < fuel → (∀ p ∈ paths nodes fuel i, p.1.length ≤ n) →
      ((paths nodes fuel i).map fun p => 2 ^ (n - p.1.length)).sum = 2 ^ n := by
  induction i using Nat.strong_induction_on with
  | _ i ih =>
    intro fuel n hi hf hn
    obtain ⟨fuel, rfl⟩ := Nat.exists_eq_succ_of_ne_zero (by omega : fuel ≠ 0)
    simp only [paths] at hn ⊢
    cases hi' : nodes[i]? with
    | none => rw [List.getElem?_eq_none_iff] at hi'; omega
    | some nd =>
      rw [hi'] at hn
      cases nd with
      | leaf f s => simp
      | internal f l r =>
        obtain ⟨hl, hr⟩ := h i f l r hi'
        have hln := List.exists_mem_of_ne_nil _ (paths_ne_nil h (i := l) (fuel := fuel) (by omega) (by omega))
        obtain ⟨n, rfl⟩ : ∃ k, n = k + 1 := by
          obtain ⟨p, hp⟩ := hln
          have := hn (false :: p.1, p.2) (List.mem_append_left _ (List.mem_map_of_mem hp))
          simp only [List.length_cons] at this
          exact ⟨n - 1, by omega⟩
        have hL := ih l hl (fuel := fuel) (n := n) (by omega) (by omega) fun p hp => by
          have := hn (false :: p.1, p.2) (List.mem_append_left _ (List.mem_map_of_mem hp))
          simp only [List.length_cons] at this; omega
        have hR := ih r hr (fuel := fuel) (n := n) (by omega) (by omega) fun p hp => by
          have := hn (true :: p.1, p.2) (List.mem_append_right _ (List.mem_map_of_mem hp))
          simp only [List.length_cons] at this; omega
        simp only [List.map_append, List.map_map, List.sum_append, Function.comp_def, List.length_cons,
          Nat.add_sub_add_right, hL, hR]
        rw [Nat.pow_succ]; omega

/-- The inductive description of a path, and the list of paths. -/
theorem codePath_iff {nodes : List Node} (h : ChildrenBelow nodes) {i : Nat} :
    ∀ {fuel : Nat}, i < fuel → ∀ {bits : List Bool} {s : Sym},
      (CodePath nodes i bits s ↔ (bits, s) ∈ paths nodes fuel i) := by
  induction i using Nat.strong_induction_on with
  | _ i ih =>
    intro fuel hf bits s
    obtain ⟨fuel, rfl⟩ := Nat.exists_eq_succ_of_ne_zero (by omega : fuel ≠ 0)
    simp only [paths]
    cases hn : nodes[i]? with
    | none =>
      simp only [List.not_mem_nil, iff_false]
      intro hp
      cases hp <;> rename_i h1 <;> simp_all
    | some n =>
      cases n with
      | leaf f c =>
        simp only [List.mem_singleton, Prod.mk.injEq]
        constructor
        · intro hp
          cases hp <;> simp_all
        · rintro ⟨rfl, rfl⟩
          exact .leaf hn
      | internal f l r =>
        obtain ⟨hl, hr⟩ := h i f l r hn
        simp only [List.mem_append, List.mem_map, Prod.mk.injEq, Prod.exists]
        constructor
        · intro hp
          cases hp with
          | leaf h1 => rw [hn] at h1; cases h1
          | left h1 p =>
            rw [hn] at h1
            cases h1
            exact .inl ⟨_, _, (ih l hl (by omega)).1 p, rfl, rfl⟩
          | right h1 p =>
            rw [hn] at h1
            cases h1
            exact .inr ⟨_, _, (ih r hr (by omega)).1 p, rfl, rfl⟩
        · rintro (⟨bs, c, hp, rfl, rfl⟩ | ⟨bs, c, hp, rfl, rfl⟩)
          · exact .left hn ((ih l hl (by omega)).2 hp)
          · exact .right hn ((ih r hr (by omega)).2 hp)

/-! ### The loop -/

/-- What one merge has made: an internal node over the two least of the queue (R134). -/
def IsMerge (nodes : List Node) (m : Nat) : Prop :=
  ∃ (f : Count) (l r : Nat), nodes[m]? = some (Node.internal f l r) ∧
    f.toNat = freqAt nodes l + freqAt nodes r ∧ inQueue nodes m l ∧ inQueue nodes m r ∧ l ≠ r ∧
    (∀ j, inQueue nodes m j → j ≠ l → keyLt (keyAt nodes l) (keyAt nodes j) = true) ∧
    (∀ j, inQueue nodes m j → j ≠ l → j ≠ r → keyLt (keyAt nodes r) (keyAt nodes j) = true)

/-- The invariant of the loop. -/
structure LoopInv (ft : List (Sym × Count)) (nodes : List Node) (q : Queue) : Prop where
  leaves : ∀ (k : Nat) (c : Sym) (n : Count), ft[k]? = some (c, n) → nodes[k]? = some (Node.leaf n c)
  size : nodes.length + q.length = 2 * ft.length
  long : ft.length ≤ nodes.length
  queueNodes : ∀ x ∈ q, nodes[x.2]? = some x.1
  queueNodup : (q.map Prod.snd).Nodup
  queueMem : ∀ j, (∃ x ∈ q, x.2 = j) ↔ inQueue nodes nodes.length j
  merges : ∀ m, ft.length ≤ m → m < nodes.length → IsMerge nodes m
  total : (q.map fun x => x.1.freq.toNat).sum = ftTotal ft
  oneParent : ∀ j m m', isChildOf nodes j m → isChildOf nodes j m' → m = m'
  cover : (q.flatMap fun x => (paths nodes nodes.length x.2).map Prod.snd).Perm (ft.map Prod.fst)

theorem LoopInv.leaf_of_lt {ft : List (Sym × Count)} {nodes : List Node} {q : Queue} (h : LoopInv ft nodes q) {k : Nat}
    (hk : k < ft.length) : nodes[k]? = some (.leaf (ft[k]).2 (ft[k]).1) :=
  h.leaves k _ _ (by rw [List.getElem?_eq_getElem hk])

theorem LoopInv.childrenBelow {ft : List (Sym × Count)} {nodes : List Node} {q : Queue} (h : LoopInv ft nodes q) :
    ChildrenBelow nodes := by
  intro m f l r hm
  by_cases hk : m < ft.length
  · rw [h.leaf_of_lt hk] at hm; cases hm
  · obtain ⟨f', l', r', h1, _, h2, h3, _⟩ := h.merges m (by omega) (List.getElem?_eq_some_iff.1 hm).1
    rw [hm] at h1
    cases h1
    exact ⟨h2.1, h3.1⟩

theorem isChildOf_append {nodes : List Node} {n : Node} {j m : Nat} (hm : m < nodes.length) :
    isChildOf (nodes ++ [n]) j m ↔ isChildOf nodes j m := by
  simp only [isChildOf, List.getElem?_append_left hm]

theorem inQueue_append {nodes : List Node} {n : Node} {j m : Nat} (hm : m ≤ nodes.length) :
    inQueue (nodes ++ [n]) m j ↔ inQueue nodes m j := by
  unfold inQueue
  exact and_congr_right fun _ => forall_congr' fun k => forall_congr' fun hk =>
    not_congr (isChildOf_append (by omega))

theorem keyAt_append {nodes : List Node} {n : Node} {j : Nat} (hj : j < nodes.length) :
    keyAt (nodes ++ [n]) j = keyAt nodes j := by
  simp only [keyAt, List.getElem?_append_left hj]

theorem freqAt_append {nodes : List Node} {n : Node} {j : Nat} (hj : j < nodes.length) :
    freqAt (nodes ++ [n]) j = freqAt nodes j := by
  simp only [freqAt, List.getElem?_append_left hj]

theorem IsMerge.append {nodes : List Node} {n : Node} {m : Nat} (hm : m < nodes.length) (h : IsMerge nodes m) :
    IsMerge (nodes ++ [n]) m := by
  obtain ⟨f, l, r, h1, h2, h3, h4, h5, h6, h7⟩ := h
  have hl : l < nodes.length := by have := h3.1; omega
  have hr : r < nodes.length := by have := h4.1; omega
  refine ⟨f, l, r, ?_, ?_, ?_, ?_, h5, fun j hj hjl => ?_, fun j hj hjl hjr => ?_⟩
  · rw [List.getElem?_append_left hm]; exact h1
  · rw [freqAt_append hl, freqAt_append hr]; exact h2
  · exact (inQueue_append (by omega)).2 h3
  · exact (inQueue_append (by omega)).2 h4
  · have hj' := (inQueue_append (by omega)).1 hj
    rw [keyAt_append hl, keyAt_append (by have := hj'.1; omega)]
    exact h6 j hj' hjl
  · have hj' := (inQueue_append (by omega)).1 hj
    rw [keyAt_append hr, keyAt_append (by have := hj'.1; omega)]
    exact h7 j hj' hjl hjr

/-- Two members of the queue with the same key are the same node (R133): symbols of leaves are distinct. -/
theorem LoopInv.key_inj {ft : List (Sym × Count)} {nodes : List Node} {q : Queue} (h : LoopInv ft nodes q)
    (hw : ftWf ft = true) {x y : Node × Nat} (hx : nodes[x.2]? = some x.1) (hy : nodes[y.2]? = some y.1)
    (hk : nodeKey x.1 x.2 = nodeKey y.1 y.2) : x.2 = y.2 := by
  have hlt : ∀ {z : Node × Nat} {f : Count} {s : Sym}, nodes[z.2]? = some z.1 → z.1 = .leaf f s →
      ∃ hz : z.2 < ft.length, (ft[z.2]).1 = s := by
    intro z f s hz hs
    by_cases hlt : z.2 < ft.length
    · refine ⟨hlt, ?_⟩
      rw [h.leaf_of_lt hlt, hs] at hz
      injection hz with hz; injection hz with _ hz
    · obtain ⟨f', l', r', h1, _⟩ := h.merges z.2 (by omega) (List.getElem?_eq_some_iff.1 hz).1
      rw [hz, hs] at h1; cases h1
  have hsort := List.pairwise_iff_getElem.1 (ftWf_iff.1 hw).1
  cases hx1 : x.1 with
  | leaf f s =>
    cases hy1 : y.1 with
    | leaf g t =>
      simp only [hx1, hy1, nodeKey, Prod.mk.injEq] at hk
      obtain ⟨hxl, hxs⟩ := hlt hx hx1
      obtain ⟨hyl, hys⟩ := hlt hy hy1
      have hst : s.toNat = t.toNat := hk.2.2
      rcases Nat.lt_trichotomy x.2 y.2 with hxy | hxy | hxy
      · have := hsort _ _ hxl hyl hxy; rw [hxs, hys] at this; omega
      · exact hxy
      · have := hsort _ _ hyl hxl hxy; rw [hxs, hys] at this; omega
    | internal g l r => simp [hx1, hy1, nodeKey] at hk
  | internal f l r =>
    cases hy1 : y.1 with
    | leaf g t => simp [hx1, hy1, nodeKey] at hk
    | internal g l' r' => simp only [hx1, hy1, nodeKey, Prod.mk.injEq] at hk; exact hk.2.2

theorem sum_map_append_singleton (q : Queue) (x : Node × Nat) :
    ((q ++ [x]).map fun y => y.1.freq.toNat).sum = (q.map fun y => y.1.freq.toNat).sum + x.1.freq.toNat := by
  simp

/-- One merge keeps the invariant. -/
theorem LoopInv.merge {ft : List (Sym × Count)} {nodes : List Node} {q q2 q3 : Queue} {x y : Node × Nat}
    (h : LoopInv ft nodes q) (hw : ftWf ft = true) (hx : (x :: q2).Perm q) (hxm : ∀ z ∈ q2, keyLt (nodeKey z.1 z.2) (nodeKey x.1 x.2) = false)
    (hy : (y :: q3).Perm q2) (hym : ∀ z ∈ q3, keyLt (nodeKey z.1 z.2) (nodeKey y.1 y.2) = false)
    (hf : x.1.freq.toNat + y.1.freq.toNat < 2 ^ 64) :
    LoopInv ft (nodes ++ [Node.internal (BitVec.ofNat 64 (x.1.freq.toNat + y.1.freq.toNat)) x.2 y.2])
      (q3 ++ [(Node.internal (BitVec.ofNat 64 (x.1.freq.toNat + y.1.freq.toNat)) x.2 y.2, nodes.length)]) := by
  generalize hn : Node.internal (BitVec.ofNat 64 (x.1.freq.toNat + y.1.freq.toNat)) x.2 y.2 = n
  have hxyq : (x :: y :: q3).Perm q := (hy.cons x).trans hx
  have hxq : x ∈ q := hxyq.subset (by simp)
  have hyq : y ∈ q := hxyq.subset (by simp)
  have h3q : ∀ z ∈ q3, z ∈ q := fun z hz => hxyq.subset (by simp [hz])
  have hnx := h.queueNodes x hxq
  have hny := h.queueNodes y hyq
  have hxl : x.2 < nodes.length := (List.getElem?_eq_some_iff.1 hnx).1
  have hyl : y.2 < nodes.length := (List.getElem?_eq_some_iff.1 hny).1
  have hnd : (x.2 :: y.2 :: q3.map Prod.snd).Nodup := by
    have := (hxyq.map Prod.snd).nodup_iff.2 h.queueNodup
    simpa using this
  have hxy : x.2 ≠ y.2 := fun he => by simp [he] at hnd
  have hlast : (nodes ++ [n])[nodes.length]? = some n := by simp
  have hchild : ∀ j, isChildOf (nodes ++ [n]) j nodes.length ↔ j = x.2 ∨ j = y.2 := by
    intro j
    constructor
    · rintro ⟨f, l, r, h1, h2⟩
      rw [hlast, ← hn] at h1
      cases h1
      exact h2
    · intro h; exact ⟨_, _, _, hlast.trans (congrArg some hn.symm), h⟩
  have hnotchild : ∀ z ∈ q, ∀ m, ¬ isChildOf nodes z.2 m := by
    intro z hz m hm
    have hq := (h.queueMem z.2).1 ⟨z, hz, rfl⟩
    refine hq.2 m ?_ hm
    obtain ⟨f, l, r, hm, _⟩ := hm
    exact (List.getElem?_eq_some_iff.1 hm).1
  have hkey : ∀ z ∈ q, keyAt nodes z.2 = nodeKey z.1 z.2 := fun z hz => by
    simp only [keyAt, h.queueNodes z hz]
  have hbelow := h.childrenBelow
  have hpath : ∀ i, i < nodes.length →
      paths (nodes ++ [n]) (nodes ++ [n]).length i = paths nodes nodes.length i := by
    intro i hi
    rw [paths_append hbelow _ hi]
    exact paths_fuel hbelow (by simp; omega) hi
  refine ⟨?_, ?_, ?_, ?_, ?_, ?_, ?_, ?_, ?_, ?_⟩
  · intro k c m hk
    have := h.leaves k c m hk
    rw [List.getElem?_append_left (List.getElem?_eq_some_iff.1 this).1]; exact this
  · have h1 := h.size
    have h2 := hxyq.length_eq
    simp only [List.length_append, List.length_cons, List.length_nil] at h2 ⊢
    omega
  · have := h.long; simp only [List.length_append]; omega
  · intro z hz
    rcases List.mem_append.1 hz with hz | hz
    · have := h.queueNodes z (h3q z hz)
      rw [List.getElem?_append_left (List.getElem?_eq_some_iff.1 this).1]; exact this
    · rw [List.mem_singleton] at hz; subst hz; exact hlast
  · rw [List.map_append, List.nodup_append]
    refine ⟨(List.nodup_cons.1 (List.nodup_cons.1 hnd).2).2, by simp, ?_⟩
    intro a ha b hb hab
    simp only [List.map_cons, List.map_nil, List.mem_singleton] at hb
    obtain ⟨z, hz, rfl⟩ := List.mem_map.1 ha
    have := (List.getElem?_eq_some_iff.1 (h.queueNodes z (h3q z hz))).1
    omega
  · intro j
    have hlen : (nodes ++ [n]).length = nodes.length + 1 := by simp
    rw [hlen]
    constructor
    · rintro ⟨z, hz, rfl⟩
      rcases List.mem_append.1 hz with hz | hz
      · have hzl := (List.getElem?_eq_some_iff.1 (h.queueNodes z (h3q z hz))).1
        refine ⟨by omega, fun k hk hc => ?_⟩
        by_cases hk' : k < nodes.length
        · exact hnotchild z (h3q z hz) k ((isChildOf_append hk').1 hc)
        · obtain rfl : k = nodes.length := by omega
          have hzm : z.2 ∈ q3.map Prod.snd := List.mem_map_of_mem hz
          rcases (hchild _).1 hc with he | he
          · exact (List.nodup_cons.1 hnd).1 (by rw [← he]; simp only [List.mem_cons]; exact .inr hzm)
          · exact (List.nodup_cons.1 (List.nodup_cons.1 hnd).2).1 (he ▸ hzm)
      · rw [List.mem_singleton] at hz
        subst hz
        refine ⟨by simp, fun k hk hc => ?_⟩
        by_cases hk' : k < nodes.length
        · obtain ⟨f, l, r, h1, h2⟩ := (isChildOf_append hk').1 hc
          have := hbelow k f l r h1
          have hc' : nodes.length = l ∨ nodes.length = r := h2
          omega
        · obtain rfl : k = nodes.length := by omega
          have hc' : nodes.length = x.2 ∨ nodes.length = y.2 := (hchild _).1 hc
          omega
    · rintro ⟨hj, hjc⟩
      by_cases hj' : j = nodes.length
      · exact ⟨_, List.mem_append_right _ (List.mem_singleton.2 rfl), hj'.symm⟩
      · have hin : inQueue nodes nodes.length j :=
          ⟨by omega, fun k hk hc => hjc k (by omega) ((isChildOf_append hk).2 hc)⟩
        obtain ⟨z, hz, rfl⟩ := (h.queueMem j).2 hin
        have hz' := hxyq.symm.subset hz
        have hnc := mt (hchild z.2).2 (hjc nodes.length (by omega))
        rcases List.mem_cons.1 hz' with rfl | hz'
        · simp at hnc
        · rcases List.mem_cons.1 hz' with rfl | hz'
          · simp at hnc
          · exact ⟨z, List.mem_append_left _ hz', rfl⟩
  · intro m h1 h2
    by_cases hm : m < nodes.length
    · exact (h.merges m h1 hm).append hm
    · obtain rfl : m = nodes.length := by simp at h2; omega
      have hmemq : ∀ j, inQueue (nodes ++ [n]) nodes.length j → ∃ z ∈ q, z.2 = j := fun j hj =>
        (h.queueMem j).2 ((inQueue_append (Nat.le_refl _)).1 hj)
      have hstrict : ∀ {w z : Node × Nat}, w ∈ q → z ∈ q → w.2 ≠ z.2 →
          keyLt (nodeKey z.1 z.2) (nodeKey w.1 w.2) = false → keyLt (keyAt (nodes ++ [n]) w.2) (keyAt (nodes ++ [n]) z.2) = true := by
        intro w z hwq hzq hne hk
        rw [keyAt_append (List.getElem?_eq_some_iff.1 (h.queueNodes w hwq)).1,
          keyAt_append (List.getElem?_eq_some_iff.1 (h.queueNodes z hzq)).1, hkey w hwq, hkey z hzq]
        exact keyLt_of_ne hk fun he => hne (h.key_inj hw (h.queueNodes w hwq) (h.queueNodes z hzq) he)
      refine ⟨_, _, _, hlast.trans (congrArg some hn.symm), ?_, ?_, ?_, hxy, ?_, ?_⟩
      · rw [freqAt_append hxl, freqAt_append hyl, BitVec.toNat_ofNat, Nat.mod_eq_of_lt hf]
        simp only [freqAt, hnx, hny]
      · exact (inQueue_append (Nat.le_refl _)).2 ((h.queueMem _).1 ⟨x, hxq, rfl⟩)
      · exact (inQueue_append (Nat.le_refl _)).2 ((h.queueMem _).1 ⟨y, hyq, rfl⟩)
      · intro j hj hjl
        obtain ⟨z, hz, rfl⟩ := hmemq j hj
        refine hstrict hxq hz (Ne.symm hjl) (hxm z ?_)
        rcases List.mem_cons.1 (hx.symm.subset hz) with rfl | hz'
        · exact absurd rfl hjl
        · exact hz'
      · intro j hj hjl hjr
        obtain ⟨z, hz, rfl⟩ := hmemq j hj
        refine hstrict hyq hz (Ne.symm hjr) (hym z ?_)
        rcases List.mem_cons.1 (hxyq.symm.subset hz) with rfl | hz'
        · exact absurd rfl hjl
        · rcases List.mem_cons.1 hz' with rfl | hz'
          · exact absurd rfl hjr
          · exact hz'
  · rw [sum_map_append_singleton, ← h.total, ← (hxyq.map fun z => z.1.freq.toNat).sum_eq]
    have : n.freq.toNat = x.1.freq.toNat + y.1.freq.toNat := by
      rw [← hn]; show (BitVec.ofNat 64 _).toNat = _
      rw [BitVec.toNat_ofNat, Nat.mod_eq_of_lt hf]
    simp only [List.map_cons, List.sum_cons, this]
    omega
  · have hmlt : ∀ {j m}, isChildOf (nodes ++ [n]) j m → m < nodes.length ∨ m = nodes.length := by
      rintro j m ⟨f, l, r, hm, _⟩
      have := (List.getElem?_eq_some_iff.1 hm).1
      simp at this; omega
    have hnew : ∀ {j m}, m < nodes.length → isChildOf (nodes ++ [n]) j m →
        ¬ isChildOf (nodes ++ [n]) j nodes.length := by
      intro j m hm hc hl
      rcases (hchild j).1 hl with rfl | rfl
      · exact hnotchild x hxq m ((isChildOf_append hm).1 hc)
      · exact hnotchild y hyq m ((isChildOf_append hm).1 hc)
    intro j m m' hm hm'
    rcases hmlt hm with h1 | h1 <;> rcases hmlt hm' with h2 | h2
    · exact h.oneParent j m m' ((isChildOf_append h1).1 hm) ((isChildOf_append h2).1 hm')
    · exact absurd (h2 ▸ hm') (hnew h1 hm)
    · exact absurd (h1 ▸ hm) (hnew h2 hm')
    · omega
  · have hcov := h.cover
    rw [List.flatMap_append, List.flatMap_singleton]
    have hnew : (paths (nodes ++ [n]) (nodes ++ [n]).length nodes.length).map Prod.snd =
        (paths nodes nodes.length x.2).map Prod.snd ++ (paths nodes nodes.length y.2).map Prod.snd := by
      rw [List.length_append, List.length_singleton, paths_internal (hlast.trans (congrArg some hn.symm)),
        paths_append hbelow _ hxl, paths_append hbelow _ hyl]
      simp only [List.map_append, List.map_map, Function.comp_def]
    have hold : (q3.flatMap fun z => (paths (nodes ++ [n]) (nodes ++ [n]).length z.2).map Prod.snd) =
        q3.flatMap fun z => (paths nodes nodes.length z.2).map Prod.snd := by
      refine List.flatMap_congr fun z hz => ?_
      rw [hpath z.2 (List.getElem?_eq_some_iff.1 (h.queueNodes z (h3q z hz))).1]
    rw [hnew, hold]
    refine List.Perm.trans ?_ ((hxyq.flatMap_right _).trans hcov)
    simp only [List.flatMap_cons]
    exact List.perm_append_comm.trans (by rw [List.append_assoc])

/-- The loop keeps the invariant and ends with at most one member in the queue. -/
theorem mergeLoop_inv {ft : List (Sym × Count)} (hw : ftWf ft = true) {fuel : Nat} {nodes nodes' : List Node}
    {q : Queue} (h : LoopInv ft nodes q) (hf : q.length ≤ fuel) (hr : mergeLoop fuel nodes q = .ok nodes') :
    ∃ q', LoopInv ft nodes' q' ∧ q'.length ≤ 1 := by
  induction fuel generalizing nodes q with
  | zero =>
    cases hr
    exact ⟨q, h, by omega⟩
  | succ fuel ih =>
    cases q with
    | nil =>
      cases hr
      exact ⟨[], h, by simp⟩
    | cons a q1 =>
      obtain ⟨hx, hxm⟩ := extractMin_spec a q1
      simp only [mergeLoop] at hr
      split at hr
      · rename_i he
        cases hr
        refine ⟨_, h, ?_⟩
        rw [← hx.length_eq, he]
        simp
      · rename_i b q2 he
        rw [he] at hx hxm
        obtain ⟨hy, hym⟩ := extractMin_spec b q2
        split at hr
        · cases hr
        · rename_i hlt
          have hl1 := hx.length_eq
          have hl2 := hy.length_eq
          simp only [List.length_cons] at hl1 hl2 hf
          exact ih (h.merge hw hx hxm hy hym (by omega)) (by simp; omega) hr

/-- While the frequencies sum below 2^64, no merge overflows. -/
theorem mergeLoop_ok {fuel : Nat} {nodes : List Node} {q : Queue} {e : ErrCode}
    (hs : (q.map fun x => x.1.freq.toNat).sum < 2 ^ 64) : mergeLoop fuel nodes q ≠ .error e := by
  induction fuel generalizing nodes q with
  | zero => simp [mergeLoop]
  | succ fuel ih =>
    cases q with
    | nil => simp [mergeLoop]
    | cons a q1 =>
      obtain ⟨hx, _⟩ := extractMin_spec a q1
      simp only [mergeLoop]
      split
      · simp
      · rename_i b q2 he
        rw [he] at hx
        obtain ⟨hy, _⟩ := extractMin_spec b q2
        have hsum := ((hy.cons (extractMin a q1).1).trans hx).map fun x : Node × Nat => x.1.freq.toNat
        have hs' := hsum.sum_eq
        simp only [List.map_cons, List.sum_cons] at hs' hs
        rw [if_neg (by omega)]
        refine ih ?_
        rw [sum_map_append_singleton]
        show _ + (BitVec.ofNat 64 _).toNat < _
        rw [BitVec.toNat_ofNat, Nat.mod_eq_of_lt (by omega)]
        omega

/-- The symbol of a leaf. -/
def symOf : Node → Sym
  | .leaf _ s => s
  | .internal _ _ _ => 0#21

/-- The loop starts with every leaf in the queue (R131, R132). -/
theorem loopInv_init (ft : List (Sym × Count)) : LoopInv ft (leavesOf ft) (leavesOf ft).zipIdx := by
  have hleaf : ∀ k : Nat, (leavesOf ft)[k]? = (ft[k]?).map (fun p : Sym × Count => Node.leaf p.2 p.1) := by
    simp [leavesOf]
  have hnochild : ∀ j m, ¬ isChildOf (leavesOf ft) j m := by
    rintro j m ⟨f, l, r, h, _⟩
    rw [hleaf] at h
    cases hm : ft[m]? <;> simp [hm] at h
  have hlen : (leavesOf ft).length = ft.length := by simp [leavesOf]
  refine ⟨?_, ?_, ?_, ?_, ?_, ?_, ?_, ?_, ?_, ?_⟩
  · intro k c n hk; rw [hleaf, hk]; rfl
  · simp [hlen]; omega
  · omega
  · intro x hx
    obtain ⟨h1, h2⟩ := List.mem_zipIdx' hx
    rw [List.getElem?_eq_getElem h1, ← h2]
  · rw [List.zipIdx_map_snd]; exact List.nodup_range'
  · intro j
    constructor
    · rintro ⟨x, hx, rfl⟩
      exact ⟨(List.mem_zipIdx' hx).1, fun k _ => hnochild _ _⟩
    · rintro ⟨hj, _⟩
      exact ⟨((leavesOf ft)[j], j), List.mem_zipIdx_iff_getElem?.2 (List.getElem?_eq_getElem hj), rfl⟩
  · intro m h1 h2; omega
  · have h1 : ((leavesOf ft).zipIdx.map fun x => x.1.freq.toNat) = (leavesOf ft).map fun n => n.freq.toNat := by
      conv_rhs => rw [← List.zipIdx_map_fst 0 (leavesOf ft)]
      rw [List.map_map]; rfl
    rw [h1]
    simp [leavesOf, ftTotal, Function.comp_def, Node.freq]
  · intro j m _ h; exact absurd h (hnochild _ _)
  · have h1 : ∀ x ∈ (leavesOf ft).zipIdx,
        (paths (leavesOf ft) (leavesOf ft).length x.2).map Prod.snd = [symOf x.1] := by
      intro x hx
      obtain ⟨h1, h2⟩ := List.mem_zipIdx' hx
      obtain ⟨k, hk⟩ := Nat.exists_eq_succ_of_ne_zero (by omega : (leavesOf ft).length ≠ 0)
      have h3 : (leavesOf ft)[x.2]? = some x.1 := by rw [List.getElem?_eq_getElem h1, ← h2]
      have h4 : ∃ f s, x.1 = Node.leaf f s := by
        rw [hleaf] at h3
        cases hm : ft[x.2]? with
        | none => simp [hm] at h3
        | some p => simp [hm] at h3; exact ⟨_, _, h3.symm⟩
      obtain ⟨f, s, h4⟩ := h4
      rw [h4] at h3 ⊢
      rw [hk]
      simp only [paths, h3]
      rfl
    have h2 : (leavesOf ft).zipIdx.map (fun x => symOf x.1) = (leavesOf ft).map symOf := by
      conv_rhs => rw [← List.zipIdx_map_fst 0 (leavesOf ft)]
      rw [List.map_map]; rfl
    rw [List.flatMap_congr h1, ← List.map_eq_flatMap, h2]
    simp [leavesOf, Function.comp_def, symOf]

end Sys2Proof.Machine
end

