-- ==== Sys2Proof/Laws/Codes.lean ====
section
/-! SUPPORT. The tree BUILD_TREE leaves and the table GEN_TABLE makes of it (spec/40_tree_builder.md R137,
spec/41_code_table.md R146 to R150). -/

namespace Sys2Proof.Machine

/-! ### The finished tree -/

theorem buildNodes_inv {ft : List (Sym × Count)} {nodes : List Node} (hw : ftWf ft = true)
    (h : buildNodes ft = .ok nodes) : ∃ q, LoopInv ft nodes q ∧ q.length ≤ 1 :=
  mergeLoop_inv hw (loopInv_init ft) (by simp [leavesOf]) h

theorem buildNodes_below {ft : List (Sym × Count)} {nodes : List Node} (hw : ftWf ft = true)
    (h : buildNodes ft = .ok nodes) : ChildrenBelow nodes := by
  obtain ⟨q, hq, _⟩ := buildNodes_inv hw h
  exact hq.childrenBelow

/-- The last node is the only one without a parent. -/
theorem LoopInv.queue_root {ft : List (Sym × Count)} {nodes : List Node} {q : Queue} (h : LoopInv ft nodes q)
    (hl : q.length ≤ 1) (hne : nodes ≠ []) : ∃ n, q = [(n, nodes.length - 1)] ∧ nodes[nodes.length - 1]? = some n := by
  have hpos := List.length_pos_iff.2 hne
  have hin : inQueue nodes nodes.length (nodes.length - 1) := by
    refine ⟨by omega, fun k hk hc => ?_⟩
    obtain ⟨f, l, r, h1, h2⟩ := hc
    have := h.childrenBelow k f l r h1
    omega
  obtain ⟨x, hx, hx2⟩ := (h.queueMem _).2 hin
  cases q with
  | nil => cases hx
  | cons y ys =>
    cases ys with
    | nil =>
      obtain rfl := List.mem_singleton.1 hx
      exact ⟨x.1, by rw [← hx2], by rw [← hx2]; exact h.queueNodes x List.mem_cons_self⟩
    | cons z zs => simp at hl

theorem buildNodes_length {ft : List (Sym × Count)} {nodes : List Node} (hw : ftWf ft = true)
    (h : buildNodes ft = .ok nodes) : nodes.length = 2 * ft.length - 1 := by
  obtain ⟨q, hq, hl⟩ := buildNodes_inv hw h
  have h1 := hq.size
  have h2 := hq.long
  by_cases hne : nodes = []
  · rw [hne, List.length_nil] at h2 ⊢
    omega
  · obtain ⟨n, rfl, _⟩ := hq.queue_root hl hne
    rw [List.length_singleton] at h1
    omega

/-- Every node but the last has a parent. -/
theorem LoopInv.has_parent {ft : List (Sym × Count)} {nodes : List Node} {q : Queue} (h : LoopInv ft nodes q)
    (hl : q.length ≤ 1) {j : Nat} (hj : j + 1 < nodes.length) : ∃ m, isChildOf nodes j m := by
  obtain ⟨n, hq, _⟩ := h.queue_root hl (by rintro rfl; simp at hj)
  by_contra hc
  have hin : inQueue nodes nodes.length j := ⟨by omega, fun k _ hk => hc ⟨k, hk⟩⟩
  obtain ⟨x, hx, hx2⟩ := (h.queueMem _).2 hin
  rw [hq, List.mem_singleton] at hx
  subst hx
  simp only at hx2
  omega

/-- The ways from the root lead to the symbols of FT, each once. -/
theorem paths_root {ft : List (Sym × Count)} {nodes : List Node} (hw : ftWf ft = true) (h : buildNodes ft = .ok nodes)
    (hne : nodes ≠ []) :
    ((paths nodes nodes.length (nodes.length - 1)).map Prod.snd).Perm (ft.map Prod.fst) := by
  obtain ⟨q, hq, hl⟩ := buildNodes_inv hw h
  obtain ⟨n, rfl, _⟩ := hq.queue_root hl hne
  simpa using hq.cover

/-! ### The table as an ordered map -/

theorem mem_insertCode {c d : RawCode} {l : List RawCode} (h : d ∈ insertCode c l) : d = c ∨ d ∈ l := by
  induction l with
  | nil => simpa [insertCode] using h
  | cons e r ih =>
    simp only [insertCode] at h
    split at h
    · rcases List.mem_cons.1 h with h | h
      · exact .inl h
      · exact .inr (List.mem_cons_of_mem _ h)
    · split at h
      · rcases List.mem_cons.1 h with h | h
        · exact .inl h
        · exact .inr h
      · rcases List.mem_cons.1 h with h | h
        · exact .inr (h ▸ List.mem_cons_self)
        · exact (ih h).imp_right (List.mem_cons_of_mem _)

theorem insertCode_sorted {c : RawCode} {l : List RawCode} (h : l.Pairwise fun a b => a.sym.toNat < b.sym.toNat) :
    (insertCode c l).Pairwise fun a b => a.sym.toNat < b.sym.toNat := by
  induction l with
  | nil => exact List.pairwise_singleton _ _
  | cons e r ih =>
    obtain ⟨h1, h2⟩ := List.pairwise_cons.1 h
    simp only [insertCode]
    split
    · rename_i he
      exact List.pairwise_cons.2 ⟨fun d hd => he ▸ h1 d hd, h2⟩
    · split
      · rename_i hlt
        refine List.pairwise_cons.2 ⟨fun d hd => ?_, h⟩
        rcases List.mem_cons.1 hd with rfl | hd
        · exact hlt
        · exact lt_trans hlt (h1 d hd)
      · rename_i hne hge
        refine List.pairwise_cons.2 ⟨fun d hd => ?_, ih h2⟩
        rcases mem_insertCode hd with rfl | hd
        · have : d.sym.toNat ≠ e.sym.toNat := fun h => hne (BitVec.eq_of_toNat_eq h)
          omega
        · exact h1 d hd

theorem insertCode_perm {c : RawCode} {l : List RawCode} (h : ∀ d ∈ l, d.sym ≠ c.sym) :
    (insertCode c l).Perm (c :: l) := by
  induction l with
  | nil => exact List.Perm.refl _
  | cons e r ih =>
    simp only [insertCode]
    rw [if_neg (h e List.mem_cons_self).symm]
    split
    · exact List.Perm.refl _
    · exact ((ih fun d hd => h d (List.mem_cons_of_mem _ hd)).cons e).trans (List.Perm.swap _ _ _)

theorem sortCodes_sorted (l : List RawCode) : (sortCodes l).Pairwise fun a b => a.sym.toNat < b.sym.toNat := by
  induction l with
  | nil => exact List.Pairwise.nil
  | cons c r ih => exact insertCode_sorted ih

/-- With distinct symbols the table holds exactly the codes. -/
theorem sortCodes_perm {l : List RawCode} (h : (l.map RawCode.sym).Nodup) : (sortCodes l).Perm l := by
  induction l with
  | nil => exact List.Perm.refl _
  | cons c r ih =>
    obtain ⟨h1, h2⟩ := List.nodup_cons.1 h
    have hp := ih h2
    refine (insertCode_perm fun d hd he => h1 ?_).trans (hp.cons c)
    exact List.mem_map.2 ⟨d, hp.subset hd, he⟩

theorem len_le_rawMaxLen {l : List RawCode} {c : RawCode} (h : c ∈ l) : c.len ≤ rawMaxLen l := by
  induction l with
  | nil => cases h
  | cons d r ih =>
    rcases List.mem_cons.1 h with rfl | h
    · exact Nat.le_max_left _ _
    · exact (ih h).trans (Nat.le_max_right _ _)

theorem rawMaxLen_le {l : List RawCode} {n : Nat} (h : ∀ c ∈ l, c.len ≤ n) : rawMaxLen l ≤ n := by
  induction l with
  | nil => exact Nat.zero_le _
  | cons d r ih => exact max_le (h d List.mem_cons_self) (ih fun c hc => h c (List.mem_cons_of_mem _ hc))

theorem maxLen_le {l : List Entry} {n : Nat} (h : ∀ c ∈ l, c.len ≤ n) : maxLen l ≤ n := by
  induction l with
  | nil => exact Nat.zero_le _
  | cons d r ih => exact max_le (h d List.mem_cons_self) (ih fun c hc => h c (List.mem_cons_of_mem _ hc))

/-! ### The table of a tree -/

/-- A list of ways as a list of codes. -/
def pathCodes (ps : List (List Bool × Sym)) : List RawCode :=
  ps.map fun p => { sym := p.2, len := p.1.length, val := bitsValue p.1 }

/-- The ways the table is made of: those from the root, and for a lone leaf the way 0 (41_code_table.md R146, R148). -/
def codePaths (nodes : List Node) : List (List Bool × Sym) :=
  match nodes with
  | [] => []
  | [.leaf _ s] => [([false], s)]
  | _ => paths nodes nodes.length (nodes.length - 1)

theorem deriveCodes_eq (nodes : List Node) : deriveCodes nodes = pathCodes (codePaths nodes) := by
  unfold deriveCodes codePaths
  split
  · rfl
  · rfl
  · rw [walk_eq]
    simp [pathCodes]

theorem codePaths_of_two {nodes : List Node} (h : 2 ≤ nodes.length) :
    codePaths nodes = paths nodes nodes.length (nodes.length - 1) := by
  unfold codePaths
  split
  · simp at h
  · simp at h
  · rfl

/-- The symbols of the ways are those of FT. -/
theorem codePaths_syms {ft : List (Sym × Count)} {nodes : List Node} (hw : ftWf ft = true)
    (h : buildNodes ft = .ok nodes) : ((codePaths nodes).map Prod.snd).Perm (ft.map Prod.fst) := by
  have hlen := buildNodes_length hw h
  unfold codePaths
  split
  · have : ft = [] := List.length_eq_zero_iff.1 (by simp at hlen; omega)
    subst this
    exact List.Perm.refl _
  · rename_i f s
    have hp := paths_root hw h (by simp)
    simpa [paths] using hp
  · rename_i hne _
    exact paths_root hw h hne

/-- No way of the table is a prefix of another (41_code_table.md R150). -/
theorem codePaths_prefixFree (nodes : List Node) :
    (codePaths nodes).Pairwise fun p q => ¬ p.1 <+: q.1 ∧ ¬ q.1 <+: p.1 := by
  unfold codePaths
  split
  · exact List.Pairwise.nil
  · exact List.pairwise_singleton _ _
  · exact paths_prefixFree _ _ _

/-- The tree of one symbol, and of more. -/
theorem nodes_shape {ft : List (Sym × Count)} {nodes : List Node} (hw : ftWf ft = true)
    (h : buildNodes ft = .ok nodes) :
    (ft = [] ∧ nodes = []) ∨ (∃ p, ft = [p] ∧ nodes = [.leaf p.2 p.1]) ∨ (2 ≤ ft.length ∧ 2 ≤ nodes.length) := by
  have hlen := buildNodes_length hw h
  match ft, hw, h, hlen with
  | [], _, _, hlen => exact .inl ⟨rfl, List.length_eq_zero_iff.1 (by simpa using hlen)⟩
  | [p], hw, h, hlen =>
    obtain ⟨q, hq, _⟩ := buildNodes_inv hw h
    have h0 := hq.leaf_of_lt (k := 0) (by simp)
    refine .inr (.inl ⟨p, rfl, ?_⟩)
    match nodes, hlen, h0 with
    | [n], _, h0 => simpa using h0
  | p :: p' :: r, _, _, hlen => exact .inr (.inr ⟨by simp, by simp at hlen; omega⟩)

/-- Every way has a step, and fewer steps than there are symbols, or one if there is one symbol. -/
theorem codePaths_length {ft : List (Sym × Count)} {nodes : List Node} (hw : ftWf ft = true)
    (h : buildNodes ft = .ok nodes) {p : List Bool × Sym} (hp : p ∈ codePaths nodes) :
    1 ≤ p.1.length ∧ p.1.length ≤ max 1 (ft.length - 1) := by
  have hsyms := (codePaths_syms hw h).length_eq
  simp only [List.length_map] at hsyms
  have hbelow := buildNodes_below hw h
  rcases nodes_shape hw h with ⟨rfl, rfl⟩ | ⟨q, rfl, rfl⟩ | ⟨h2, h3⟩
  · simp [codePaths] at hp
  · simp [codePaths] at hp; subst hp; simp
  · rw [codePaths_of_two h3] at hp hsyms
    have h4 := length_lt_paths hbelow (i := nodes.length - 1) (fuel := nodes.length) (by omega) (by omega) p hp
    refine ⟨?_, by omega⟩
    by_contra hz
    have hz' : p.1 = [] := List.length_eq_zero_iff.1 (by omega)
    obtain ⟨i, hi, rfl⟩ := List.getElem_of_mem hp
    have hpf := List.pairwise_iff_getElem.1 (paths_prefixFree nodes nodes.length (nodes.length - 1))
    by_cases hi0 : i = 0
    · have := (hpf i 1 hi (by omega) (by omega)).1
      rw [hz'] at this
      exact this List.nil_prefix
    · have := (hpf 0 i (by omega) hi (by omega)).2
      rw [hz'] at this
      exact this List.nil_prefix

theorem ftWf_nodup {ft : List (Sym × Count)} (hw : ftWf ft = true) : (ft.map Prod.fst).Nodup := by
  rw [List.Nodup, List.pairwise_map]
  exact (ftWf_iff.1 hw).1.imp fun h he => by rw [he] at h; exact lt_irrefl _ h

/-- Two lists in strictly ascending order with the same members are equal. -/
theorem eq_of_perm_of_sorted {l m : List Sym} (hp : l.Perm m) (hl : l.Pairwise fun a b => a.toNat < b.toNat)
    (hm : m.Pairwise fun a b => a.toNat < b.toNat) : l = m :=
  hp.eq_of_pairwise (fun a b _ _ h1 h2 => absurd h1 (by omega)) hl hm

/-- What is known of the table GEN_TABLE makes of the tree of `ft`. -/
structure TableOf (ft : List (Sym × Count)) (nodes : List Node) (lMax : Nat) (ct : List Entry) : Prop where
  syms : ct.map Entry.sym = ft.map Prod.fst
  codes : (ct.map fun e => (e.bits, e.sym)).Perm (codePaths nodes)
  legal : ∀ e ∈ ct, codeLegal lMax e.len e.val = true

theorem codeTable_spec {ft : List (Sym × Count)} {nodes : List Node} {lMax : Nat} {ct : List Entry}
    (hw : ftWf ft = true) (h : buildNodes ft = .ok nodes) (hl : lMax ≤ 64) (hc : codeTable lMax nodes = .ok ct) :
    TableOf ft nodes lMax ct := by
  simp only [codeTable] at hc
  split at hc
  · cases hc
  · rename_i hmax
    cases hc
    rw [deriveCodes_eq] at hmax ⊢
    have hsyms : ((pathCodes (codePaths nodes)).map RawCode.sym).Perm (ft.map Prod.fst) := by
      rw [pathCodes, List.map_map]; exact codePaths_syms hw h
    have hperm := sortCodes_perm (hsyms.nodup_iff.2 (ftWf_nodup hw))
    have hlen : ∀ p ∈ codePaths nodes, p.1.length ≤ lMax := by
      intro p hp
      have := len_le_rawMaxLen (l := pathCodes (codePaths nodes))
        (c := { sym := p.2, len := p.1.length, val := bitsValue p.1 }) (List.mem_map.2 ⟨p, hp, rfl⟩)
      simp only at this
      omega
    refine ⟨?_, ?_, ?_⟩
    · refine eq_of_perm_of_sorted ?_ ?_ ?_
      · rw [List.map_map]
        exact (hperm.map RawCode.sym).trans hsyms
      · rw [List.map_map, List.pairwise_map]
        exact sortCodes_sorted _
      · rw [List.pairwise_map]
        exact (ftWf_iff.1 hw).1
    · rw [List.map_map]
      refine (hperm.map _).trans ?_
      rw [pathCodes, List.map_map]
      refine List.Perm.of_eq ?_
      conv_rhs => rw [← List.map_id (codePaths nodes)]
      refine List.map_congr_left fun p hp => ?_
      have := codeBits_bitsValue (bits := p.1) (by have := hlen p hp; omega)
      simp only [Function.comp_apply, RawCode.entry, Entry.bits, this, id]
    · intro e he
      obtain ⟨c, hc, rfl⟩ := List.mem_map.1 he
      obtain ⟨p, hp, rfl⟩ := List.mem_map.1 (hperm.subset hc)
      have h1 := hlen p hp
      have h2 := bitsValue_lt p.1
      have h3 : 2 ^ p.1.length ≤ 2 ^ 64 := Nat.pow_le_pow_right (by omega) (by omega)
      have h4 := (codePaths_length hw h hp).1
      simp only [codeLegal, RawCode.entry, Bool.and_eq_true, decide_eq_true_eq, BitVec.toNat_ofNat]
      rw [Nat.mod_eq_of_lt (by omega)]
      exact ⟨⟨decide_eq_true h4, decide_eq_true h1⟩, h2⟩

/-- GEN_TABLE fails only when a way is longer than L_MAX. -/
theorem codeTable_ok {nodes : List Node} {lMax : Nat} (h : ∀ p ∈ codePaths nodes, p.1.length ≤ lMax) :
    ∃ ct, codeTable lMax nodes = .ok ct := by
  refine ⟨_, if_neg ?_⟩
  have := rawMaxLen_le (l := deriveCodes nodes) (n := lMax) fun c hc => by
    rw [deriveCodes_eq] at hc
    obtain ⟨p, hp, rfl⟩ := List.mem_map.1 hc
    exact h p hp
  omega

theorem codeTable_tooLong {nodes : List Node} {lMax : Nat} {p : List Bool × Sym} (hp : p ∈ codePaths nodes)
    (h : lMax < p.1.length) : codeTable lMax nodes = .error .CODE_TOO_LONG := by
  refine if_pos ?_
  have := len_le_rawMaxLen (l := deriveCodes nodes) (c := { sym := p.2, len := p.1.length, val := bitsValue p.1 })
    (by rw [deriveCodes_eq]; exact List.mem_map.2 ⟨p, hp, rfl⟩)
  simp only at this
  omega

/-- The table's codes are prefix-free, in the sense of DT_COMMIT. -/
theorem TableOf.noPrefixPair {ft : List (Sym × Count)} {nodes : List Node} {lMax : Nat} {ct : List Entry}
    (h : TableOf ft nodes lMax ct) : ct.Pairwise (fun a b => ¬ a.bits <+: b.bits ∧ ¬ b.bits <+: a.bits) := by
  have h1 := (h.codes.pairwise_iff (R := fun p q : List Bool × Sym => ¬ p.1 <+: q.1 ∧ ¬ q.1 <+: p.1)
    (fun {x y} hxy => ⟨hxy.2, hxy.1⟩)).2 (codePaths_prefixFree nodes)
  rw [List.pairwise_map] at h1
  exact h1

theorem TableOf.sorted {ft : List (Sym × Count)} {nodes : List Node} {lMax : Nat} {ct : List Entry}
    (h : TableOf ft nodes lMax ct) (hw : ftWf ft = true) :
    ct.Pairwise (fun a b => a.sym.toNat < b.sym.toNat) := by
  have h1 : (ft.map Prod.fst).Pairwise fun a b => a.toNat < b.toNat := by
    rw [List.pairwise_map]; exact (ftWf_iff.1 hw).1
  rw [← h.syms, List.pairwise_map] at h1
  exact h1

end Sys2Proof.Machine
end

