-- ==== Sys2Proof/Laws/Exec.lean ====
section
/-! SUPPORT. What each command can do, said once (`exec_cases`): it fails and records its error, or it has its effect.
Frames and invariants are proved from this and do not unfold the meanings. -/

namespace Sys2Proof.Machine

/-- The effect of a command that succeeds, with the conditions under which it does. -/
def Effect (s t : State) : Instr → Prop
  | .nop => t = s
  | .errClr => t = s.clearError.encReset.decReset
  | .ftClear => t = { s with ft := [] }.invalidateTree
  | .ftInc c => scalar c = true ∧ (ftHas s.ft c = true ∨ s.ft.length ≠ s.cfg.nSym) ∧
      (ftHas s.ft c = true → ftCount s.ft c ≠ 0xFFFFFFFFFFFFFFFF#64) ∧
      t = { s with ft := ftPut s.ft c (ftCount s.ft c + 1#64) }.invalidateTree
  | .ftSet c => scalar c = true ∧ (s.snapArg = 0#64 ∨ ftHas s.ft c = true ∨ s.ft.length ≠ s.cfg.nSym) ∧
      t = { s with
        ft := if s.snapArg = 0#64 then ftRemove s.ft c else ftPut s.ft c s.snapArg }.invalidateTree
  | .ftRead c => scalar c = true ∧ t = s.setResult (ftCount s.ft c) 0#32 0#32
  | .buildTree => ∃ nodes, buildNodes s.ft = .ok nodes ∧
      t = { s with treeValid := true, nodes := nodes, ctValid := false, ct := [], ctMaxLen := 0 }
  | .nodeRead i => s.treeValid = true ∧ ∃ n, s.nodes[i.toNat]? = some n ∧ ∃ r a a2, t = s.setResult r a a2
  | .genTable => s.treeValid = true ∧ ∃ ct, codeTable s.cfg.lMax s.nodes = .ok ct ∧
      t = { s with ctValid := true, ct := ct, ctMaxLen := maxLen ct }
  | .ctRead i => s.ctValid = true ∧ ∃ e, s.ct[i.toNat]? = some e ∧
      t = s.setResult e.val (((BitVec.ofNat 7 e.len).setWidth 32 <<< 24) ||| e.sym.setWidth 32) 0#32
  | .encSymbol c => scalar c = true ∧ s.ctValid = true ∧ ∃ e, findSym s.ct c = some e ∧
      s.outq.length + (s.nbits + e.len) / 8 ≤ s.cfg.outDepth ∧
      ∃ z, z = Serializer.pushAll { acc := s.acc, nbits := s.nbits, out := [] } (codeBits e.len e.val) ∧
        t = { s with acc := z.acc, nbits := z.nbits, outq := s.outq ++ z.out }
  | .encFlush =>
      (0 < s.nbits ∧ s.outq.length ≠ s.cfg.outDepth ∧
        t = { s with outq := s.outq ++ [s.acc], tail := s.nbits, acc := 0#8, nbits := 0 }) ∨
      (s.nbits = 0 ∧ t = { s with tail := 8, acc := 0#8, nbits := 0 })
  | .dtClear => t = { s with dt := [], dtValid := false, dtMaxLen := 0 }.decReset
  | .dtLoad c => scalar c = true ∧ s.dtValid = false ∧ s.dt.length ≠ s.cfg.nSym ∧
      codeLegal s.cfg.lMax s.snapArg2.toNat s.snapArg = true ∧
      t = { s with dt := s.dt ++ [{ sym := c, len := s.snapArg2.toNat, val := s.snapArg }] }
  | .dtCommit => s.dtValid = false ∧ hasDuplicateSym s.dt = false ∧ hasPrefixPair s.dt = false ∧
      t = { s with dtValid := true, dtMaxLen := maxLen s.dt }.decReset
  | .dtFromCt => s.ctValid = true ∧
      t = { s with dt := s.ct, dtValid := true, dtMaxLen := s.ctMaxLen }.decReset
  | .decByte b => s.dtValid = true ∧ s.phase = .OPEN ∧ { s with done := false }.pushBits (byteBits b 8) = .ok t
  | .decLast b n => tailLegal n = true ∧ s.dtValid = true ∧ s.phase = .OPEN ∧
      ∃ u, { s with done := false }.pushBits (byteBits b n.toNat) = .ok u ∧ t = { u with phase := .LAST }
  | .decEnd => s.dtValid = true ∧ s.wlen = 0 ∧ t = { s with done := true, phase := .OPEN, w := 0#64 }

/-! ### No command raises NONE -/

theorem mergeLoop_error {n : Nat} {ns : List Node} {q : Queue} {e : ErrCode} (h : mergeLoop n ns q = .error e) :
    e = .FREQ_OVERFLOW := by
  induction n generalizing ns q with
  | zero => cases h
  | succ n ih =>
    cases q with
    | nil => cases h
    | cons a q1 =>
      simp only [mergeLoop] at h
      split at h
      · cases h
      · split at h
        · cases h; rfl
        · exact ih h

theorem codeTable_error {lMax : Nat} {ns : List Node} {e : ErrCode} (h : codeTable lMax ns = .error e) :
    e = .CODE_TOO_LONG := by
  simp only [codeTable] at h
  split at h <;> cases h
  rfl

theorem Matcher.pushAll_error {dt : List Entry} {n : Nat} {m : Matcher} {bits : List Bool} {e : ErrCode}
    (h : m.pushAll dt n bits = .error e) : e = .UNDECODABLE := by
  induction bits generalizing m with
  | nil => cases h
  | cons b bs ih =>
    rw [Matcher.pushAll_cons] at h
    rcases Matcher.push_cases dt n m b with ⟨_, _, _, _, h1⟩ | ⟨_, _, h1⟩ | ⟨_, _, h1⟩ <;> rw [h1] at h
    · exact ih h
    · cases h; rfl
    · exact ih h

theorem State.pushBits_error {s : State} {bits : List Bool} {e : ErrCode} (h : s.pushBits bits = .error e) :
    e = .UNDECODABLE ∨ e = .FIFO_OVERFLOW := by
  unfold State.pushBits at h
  split at h
  · rename_i hm
    cases h
    exact .inl (Matcher.pushAll_error hm)
  · rcases failIf_error_iff.1 h with ⟨_, h⟩ | ⟨_, h⟩
    · exact .inr h.symm
    · cases h

/-! ### The inversion lemma of `exec` -/

/-- Everything a command can do: fail with an error and change nothing else, or have its effect (30_encoding.md
R112). -/
theorem exec_cases {i : Instr} {s t : State} (h : exec i s = .next t) :
    (∃ e, e ≠ .NONE ∧ t = s.recordError e i.opcode) ∨ Effect s t i := by
  cases i with
  | nop => exact .inr (Host.Outcome.next.inj h).symm
  | errClr => exact .inr (Host.Outcome.next.inj h).symm
  | ftClear => exact .inr (Host.Outcome.next.inj h).symm
  | ftInc c =>
    rcases finish_cases h with h | ⟨e, h, ht⟩
    · simp only [failIf_ok_iff, Except.ok.injEq] at h
      obtain ⟨h1, h2, h3, rfl⟩ := h
      refine .inr ⟨by simpa using h1, ?_, fun hh hc => ?_, rfl⟩
      · cases hh : ftHas s.ft c
        · exact .inr (by simpa [hh] using h2)
        · exact .inl rfl
      · simp [hh, hc] at h3
    · simp only [failIf_error_iff, reduceCtorEq, and_false, or_false] at h
      exact .inl ⟨e, by rcases h with ⟨_, rfl⟩ | ⟨_, ⟨_, rfl⟩ | ⟨_, _, rfl⟩⟩ <;> decide, ht⟩
  | ftSet c =>
    rcases finish_cases h with h | ⟨e, h, ht⟩
    · simp only [failIf_ok_iff, Except.ok.injEq] at h
      obtain ⟨h1, h2, rfl⟩ := h
      refine .inr ⟨by simpa using h1, ?_, rfl⟩
      by_cases ha : s.snapArg = 0#64
      · exact .inl ha
      · cases hh : ftHas s.ft c
        · exact .inr (.inr (by simpa [hh, ha] using h2))
        · exact .inr (.inl rfl)
    · simp only [failIf_error_iff, reduceCtorEq, and_false, or_false] at h
      exact .inl ⟨e, by rcases h with ⟨_, rfl⟩ | ⟨_, _, rfl⟩ <;> decide, ht⟩
  | ftRead c =>
    rcases finish_cases h with h | ⟨e, h, ht⟩
    · simp only [failIf_ok_iff, Except.ok.injEq] at h
      exact .inr ⟨by simpa using h.1, h.2.symm⟩
    · simp only [failIf_error_iff, reduceCtorEq, and_false, or_false] at h
      exact .inl ⟨e, by rcases h with ⟨_, rfl⟩; decide, ht⟩
  | buildTree =>
    rcases finish_cases h with h | ⟨e, h, ht⟩
    · split at h
      · cases h
      · rename_i nodes hn
        exact .inr ⟨nodes, hn, (Except.ok.inj h).symm⟩
    · split at h
      · rename_i hn
        cases h
        exact .inl ⟨e, mergeLoop_error hn ▸ by decide, ht⟩
      · cases h
  | nodeRead idx =>
    rcases finish_cases h with h | ⟨e, h, ht⟩
    · obtain ⟨h1, h⟩ := failIf_ok_iff.1 h
      refine .inr ⟨by simpa using h1, ?_⟩
      split at h
      · cases h
      · rename_i hn
        exact ⟨_, hn, _, _, _, (Except.ok.inj h).symm⟩
      · rename_i hn
        exact ⟨_, hn, _, _, _, (Except.ok.inj h).symm⟩
    · refine .inl ⟨e, ?_, ht⟩
      rcases failIf_error_iff.1 h with ⟨_, rfl⟩ | ⟨_, h⟩
      · decide
      · split at h <;> cases h
        decide
  | genTable =>
    rcases finish_cases h with h | ⟨e, h, ht⟩
    · obtain ⟨h1, h⟩ := failIf_ok_iff.1 h
      refine .inr ⟨by simpa using h1, ?_⟩
      split at h
      · cases h
      · rename_i ct hn
        exact ⟨ct, hn, (Except.ok.inj h).symm⟩
    · refine .inl ⟨e, ?_, ht⟩
      rcases failIf_error_iff.1 h with ⟨_, rfl⟩ | ⟨_, h⟩
      · decide
      · split at h
        · rename_i hn
          cases h
          exact codeTable_error hn ▸ by decide
        · cases h
  | ctRead idx =>
    rcases finish_cases h with h | ⟨e, h, ht⟩
    · obtain ⟨h1, h⟩ := failIf_ok_iff.1 h
      refine .inr ⟨by simpa using h1, ?_⟩
      split at h
      · cases h
      · rename_i hn
        exact ⟨_, hn, (Except.ok.inj h).symm⟩
    · refine .inl ⟨e, ?_, ht⟩
      rcases failIf_error_iff.1 h with ⟨_, rfl⟩ | ⟨_, h⟩
      · decide
      · split at h <;> cases h
        decide
  | encSymbol c =>
    rcases finish_cases h with h | ⟨e, h, ht⟩
    · obtain ⟨h1, h⟩ := failIf_ok_iff.1 h
      obtain ⟨h2, h⟩ := failIf_ok_iff.1 h
      refine .inr ⟨by simpa using h1, by simpa using h2, ?_⟩
      split at h
      · cases h
      · rename_i e hn
        obtain ⟨h3, h⟩ := failIf_ok_iff.1 h
        exact ⟨e, hn, by simpa using h3, _, rfl, (Except.ok.inj h).symm⟩
    · refine .inl ⟨e, ?_, ht⟩
      rcases failIf_error_iff.1 h with ⟨_, rfl⟩ | ⟨_, h⟩
      · decide
      · rcases failIf_error_iff.1 h with ⟨_, rfl⟩ | ⟨_, h⟩
        · decide
        · split at h
          · cases h
            decide
          · rcases failIf_error_iff.1 h with ⟨_, rfl⟩ | ⟨_, h⟩
            · decide
            · cases h
  | encFlush =>
    rcases finish_cases h with h | ⟨e, h, ht⟩
    · obtain ⟨h1, h⟩ := failIf_ok_iff.1 h
      refine .inr ?_
      split at h
      · rename_i hn
        exact .inl ⟨hn, by simpa [hn] using h1, (Except.ok.inj h).symm⟩
      · rename_i hn
        exact .inr ⟨by omega, (Except.ok.inj h).symm⟩
    · refine .inl ⟨e, ?_, ht⟩
      rcases failIf_error_iff.1 h with ⟨_, rfl⟩ | ⟨_, h⟩
      · decide
      · split at h <;> cases h
  | dtClear => exact .inr (Host.Outcome.next.inj h).symm
  | dtLoad c =>
    rcases finish_cases h with h | ⟨e, h, ht⟩
    · simp only [failIf_ok_iff, Except.ok.injEq] at h
      obtain ⟨h1, h2, h3, h4, rfl⟩ := h
      exact .inr ⟨by simpa using h1, h2, by simpa using h3, by simpa using h4, rfl⟩
    · simp only [failIf_error_iff, reduceCtorEq, and_false, or_false] at h
      exact .inl ⟨e, by rcases h with ⟨_, rfl⟩ | ⟨_, ⟨_, rfl⟩ | ⟨_, ⟨_, rfl⟩ | ⟨_, _, rfl⟩⟩⟩ <;> decide, ht⟩
  | dtCommit =>
    rcases finish_cases h with h | ⟨e, h, ht⟩
    · simp only [failIf_ok_iff, Except.ok.injEq] at h
      obtain ⟨h1, h2, h3, rfl⟩ := h
      exact .inr ⟨h1, h2, h3, rfl⟩
    · simp only [failIf_error_iff, reduceCtorEq, and_false, or_false] at h
      exact .inl ⟨e, by rcases h with ⟨_, rfl⟩ | ⟨_, ⟨_, rfl⟩ | ⟨_, _, rfl⟩⟩ <;> decide, ht⟩
  | dtFromCt =>
    rcases finish_cases h with h | ⟨e, h, ht⟩
    · simp only [failIf_ok_iff, Except.ok.injEq] at h
      exact .inr ⟨by simpa using h.1, h.2.symm⟩
    · simp only [failIf_error_iff, reduceCtorEq, and_false, or_false] at h
      exact .inl ⟨e, by rcases h with ⟨_, rfl⟩; decide, ht⟩
  | decByte b =>
    rcases finish_cases h with h | ⟨e, h, ht⟩
    · obtain ⟨h1, h⟩ := failIf_ok_iff.1 h
      obtain ⟨h1, h2⟩ := Bool.or_eq_false_iff.1 h1
      exact .inr ⟨by simpa using h1, by cases hp : s.phase <;> simp_all, h⟩
    · refine .inl ⟨e, ?_, ht⟩
      rcases failIf_error_iff.1 h with ⟨_, rfl⟩ | ⟨_, h⟩
      · decide
      · rcases State.pushBits_error h with rfl | rfl <;> decide
  | decLast b n =>
    rcases finish_cases h with h | ⟨e, h, ht⟩
    · obtain ⟨h0, h⟩ := failIf_ok_iff.1 h
      obtain ⟨h1, h⟩ := failIf_ok_iff.1 h
      obtain ⟨h1, h2⟩ := Bool.or_eq_false_iff.1 h1
      refine .inr ⟨by simpa using h0, by simpa using h1, by cases hp : s.phase <;> simp_all, ?_⟩
      split at h
      · cases h
      · rename_i u hu
        exact ⟨u, hu, (Except.ok.inj h).symm⟩
    · refine .inl ⟨e, ?_, ht⟩
      rcases failIf_error_iff.1 h with ⟨_, rfl⟩ | ⟨_, h⟩
      · decide
      · rcases failIf_error_iff.1 h with ⟨_, rfl⟩ | ⟨_, h⟩
        · decide
        · split at h
          · rename_i hu
            cases h
            rcases State.pushBits_error hu with rfl | rfl <;> decide
          · cases h
  | decEnd =>
    rcases finish_cases h with h | ⟨e, h, ht⟩
    · simp only [failIf_ok_iff, Except.ok.injEq] at h
      obtain ⟨h1, h2, rfl⟩ := h
      exact .inr ⟨by simpa using h1, by simpa using h2, rfl⟩
    · simp only [failIf_error_iff, reduceCtorEq, and_false, or_false] at h
      exact .inl ⟨e, by rcases h with ⟨_, rfl⟩ | ⟨_, _, rfl⟩ <;> decide, ht⟩

end Sys2Proof.Machine
end

