-- ==== Sys2Proof/Laws/Host.lean ====
section
/-! SUPPORT. What the host's turns do, said once: a write and a read of a register, WAIT, a command line, and the
draining of the two FIFOs (spec/30_encoding.md R114, R115). -/

namespace Sys2Proof.Machine

/-! ### Accesses -/

theorem Reg.offset_legal (r : Reg) : r.offset < 4096 ∧ r.offset % 4 = 0 := by cases r <;> decide

theorem Reg.at_offset_self (r : Reg) : Reg.at r.offset = some r := by cases r <;> decide

theorem inWindow_offset (s : State) {off : Nat} (h : off < 4096) : s.inWindow (s.cfg.base + off) = true := by
  simp [State.inWindow, Config.windowSize, h]

theorem hostWrite_eq (s : State) (v : Word) {off : Nat} (h : off < 4096) (h4 : off % 4 = 0) :
    hostWrite (s.cfg.base + off) 4 v s = .next ((memWrite off v s).answer 0#32) := by
  simp [hostWrite, inWindow_offset s h, accessLegal, h4]

theorem hostRead_eq (s : State) {off : Nat} (h : off < 4096) (h4 : off % 4 = 0) :
    hostRead (s.cfg.base + off) 4 s = .next ((memRead off s).2.answer (memRead off s).1) := by
  simp [hostRead, inWindow_offset s h, accessLegal, h4]

theorem take_next {m : Move} {s t : State} (h : act m s = .next t) : take m s = ((), t) := by
  simp only [take, h]

theorem wr_eq (r : Reg) (v : Word) (s : State) : wr r v s = ((), (memWrite r.offset v s).answer 0#32) :=
  take_next (m := .hostWrite (s.cfg.base + r.offset) 4 v) (hostWrite_eq s v r.offset_legal.1 r.offset_legal.2)

theorem rd_of_next {r : Reg} {s t : State} (h : hostRead (s.cfg.base + r.offset) 4 s = .next t) :
    rd r s = (t.resp.value, t) := by
  have ht : take (.hostRead (s.cfg.base + r.offset) 4) s = ((), t) := take_next h
  show ((take (.hostRead (s.cfg.base + r.offset) 4) s).2.resp.value,
    (take (.hostRead (s.cfg.base + r.offset) 4) s).2) = _
  rw [ht]

theorem rd_eq (r : Reg) (s : State) :
    rd r s = ((memRead r.offset s).1, (memRead r.offset s).2.answer (memRead r.offset s).1) :=
  rd_of_next (hostRead_eq s r.offset_legal.1 r.offset_legal.2)

/-- While no command is latched, a read of a register that is no FIFO register answers its value. -/
theorem rd_idle (r : Reg) (s : State) (h : s.pend = none) (h1 : r ≠ .OUT_DATA) (h2 : r ≠ .SYM_DATA) :
    rd r s = (r.value s, s.answer (r.value s)) := by
  rw [rd_eq]
  unfold memRead
  rw [Reg.at_offset_self]
  simp only [State.busy, h]
  cases r <;> first | rfl | exact absurd rfl h1 | exact absurd rfl h2

/-! ### The state a host procedure leaves, up to the bus's answer and the count of draws -/

/-- `u` with another answer of the bus and another count of draws. -/
abbrev State.outside (u : State) (r : BusResp) (d : Nat) : State := { u with resp := r, draws := d }

theorem rd_outside (r : Reg) (u : State) (a : BusResp) (d : Nat) (h : u.pend = none) (h1 : r ≠ .OUT_DATA)
    (h2 : r ≠ .SYM_DATA) : ∃ a', rd r (u.outside a d) = (r.value u, u.outside a' d) := by
  refine ⟨{ value := r.value u, error := false }, ?_⟩
  rw [rd_idle r (u.outside a d) h h1 h2]
  have hv : r.value (u.outside a d) = r.value u := by cases r <;> rfl
  rw [hv]
  rfl

theorem rd_status_busy (s : State) (h : s.busy = true) :
    ∃ a d v, v.getLsbD 0 = true ∧ rd .STATUS s = (v, s.outside a d) := by
  rw [rd_eq]
  unfold memRead
  rw [Reg.at_offset_self]
  simp only [h]
  exact ⟨{ value := Config.freeWord s.draws ||| 1#32, error := false }, s.draws + 1,
    Config.freeWord s.draws ||| 1#32, by simp, rfl⟩

theorem status_bit_zero (s : State) : s.status.getLsbD 0 = s.busy := by
  unfold State.status
  rw [BitVec.getLsbD_append]
  cases s.busy <;> rfl

theorem wait_zero (s : State) : wait 0 s = rd .STATUS (take .engine s).2 := rfl

theorem wait_succ (n : Nat) (s : State) : wait (n + 1) s =
    if (rd .STATUS s).1.getLsbD 0 then wait n (rd .STATUS s).2 else ((rd .STATUS s).1, (rd .STATUS s).2) := by
  show (if (rd .STATUS s).1.getLsbD 0 then wait n else pure (rd .STATUS s).1 : HostM Word) (rd .STATUS s).2 = _
  split <;> rfl

/-- A WAIT with no command latched is one read of STATUS. -/
theorem wait_idle (n : Nat) (s : State) (h : s.pend = none) : wait n s = (s.status, s.answer s.status) := by
  have hr : rd .STATUS s = (s.status, s.answer s.status) := rd_idle _ _ h (by decide) (by decide)
  cases n with
  | zero =>
    have ht : take .engine s = ((), s) := take_next (m := .engine) (by unfold act engineStep; simp only [h])
    rw [wait_zero, ht, hr]
  | succ n => rw [wait_succ, hr, if_neg (by rw [status_bit_zero]; simp [State.busy, h])]

/-- A WAIT with a command latched is reads that change only what the bus answered and the count of draws, the engine's
turn, and a read of STATUS. -/
theorem wait_busy (n : Nat) : ∀ s : State, s.busy = true →
    ∃ a d, wait n s = rd .STATUS (take .engine (s.outside a d)).2 := by
  induction n with
  | zero => intro s _; exact ⟨s.resp, s.draws, rfl⟩
  | succ n ih =>
    intro s h
    obtain ⟨a, d, v, hv, h1⟩ := rd_status_busy s h
    obtain ⟨a', d', h2⟩ := ih (s.outside a d) h
    refine ⟨a', d', ?_⟩
    rw [wait_succ, h1, if_pos hv, h2]

/-! ### No command looks at the bus's answer or at the count of draws -/

/-- The two attempts end alike, but for the bus's answer and the count of draws. -/
def Attempt.Outside (v : BusResp) (d : Nat) (a b : Attempt) : Prop :=
  (∀ u, a = .ok u → b = .ok (u.outside v d)) ∧ ∀ e, a = .error e → b = .error e

theorem Attempt.outside_ok (v : BusResp) (d : Nat) (u : State) :
    Attempt.Outside v d (.ok u) (.ok (u.outside v d)) :=
  ⟨fun u' h => by cases h; rfl, fun _ h => by simp at h⟩

theorem Attempt.outside_error (v : BusResp) (d : Nat) (e : ErrCode) : Attempt.Outside v d (.error e) (.error e) :=
  ⟨fun _ h => by simp at h, fun _ h => h⟩

theorem failIf_outside {v : BusResp} {d : Nat} {bad : Bool} {e : ErrCode} {a b : Attempt}
    (h : Attempt.Outside v d a b) : Attempt.Outside v d (failIf bad e a) (failIf bad e b) := by
  cases bad
  · exact h
  · exact Attempt.outside_error v d e

theorem recordError_outside (s : State) (e : ErrCode) (opc : BitVec 8) (v : BusResp) (d : Nat) :
    (s.outside v d).recordError e opc = (s.recordError e opc).outside v d := by
  unfold State.recordError
  split <;> simp_all

theorem finish_outside {v : BusResp} {d : Nat} {s t : State} {opc : BitVec 8} {a b : Attempt}
    (h : Attempt.Outside v d a b) (hf : finish s opc a = .next t) :
    finish (s.outside v d) opc b = .next (t.outside v d) := by
  cases a with
  | ok u => cases hf; rw [h.1 _ rfl]; rfl
  | error e => cases hf; rw [h.2 _ rfl]; exact congrArg _ (recordError_outside s e opc v d)

theorem pushBits_outside (v : BusResp) (d : Nat) (s : State) (bits : List Bool) :
    Attempt.Outside v d (s.pushBits bits) ((s.outside v d).pushBits bits) := by
  unfold State.pushBits
  simp only
  split
  · exact Attempt.outside_error _ _ _
  · exact failIf_outside (Attempt.outside_ok _ _ _)

theorem snapArg_outside (v : BusResp) (d : Nat) (s : State) :
    (s.outside v d).snapArg = s.snapArg ∧ (s.outside v d).snapArg2 = s.snapArg2 := by
  unfold State.snapArg State.snapArg2
  cases hp : s.pend <;> simp

/-- A command's outcome does not depend on what the bus last answered or on the count of draws. -/
theorem exec_outside {i : Instr} {s t : State} (v : BusResp) (d : Nat) (h : exec i s = .next t) :
    exec i (s.outside v d) = .next (t.outside v d) := by
  obtain ⟨g1, g2⟩ := snapArg_outside v d s
  have ok := Attempt.outside_ok v d
  have er := Attempt.outside_error v d
  cases i
  case nop => exact finish_outside (s := s) (opc := 0x00#8) (ok _) h
  case errClr => exact finish_outside (s := s) (opc := 0x01#8) (ok _) h
  case ftClear => exact finish_outside (s := s) (opc := 0x10#8) (ok _) h
  case ftInc => exact finish_outside (failIf_outside (failIf_outside (failIf_outside (ok _)))) h
  case ftSet =>
    show execFtSet _ _ = _
    unfold execFtSet
    rw [g1]
    exact finish_outside (failIf_outside (failIf_outside (ok _))) h
  case ftRead => exact finish_outside (failIf_outside (ok _)) h
  case buildTree =>
    refine finish_outside ?_ h
    cases buildNodes s.ft <;> [exact er _; exact ok _]
  case nodeRead =>
    refine finish_outside (failIf_outside ?_) h
    simp only
    split <;> [exact er _; exact ok _; exact ok _]
  case genTable =>
    refine finish_outside (failIf_outside ?_) h
    simp only
    split <;> [exact er _; exact ok _]
  case ctRead =>
    refine finish_outside (failIf_outside ?_) h
    simp only
    split <;> [exact er _; exact ok _]
  case encSymbol =>
    refine finish_outside (failIf_outside (failIf_outside ?_)) h
    simp only
    split <;> [exact er _; exact failIf_outside (ok _)]
  case encFlush =>
    refine finish_outside (failIf_outside ?_) h
    simp only
    split <;> exact ok _
  case dtClear => exact finish_outside (s := s) (opc := 0x40#8) (ok _) h
  case dtLoad =>
    show execDtLoad _ _ = _
    unfold execDtLoad
    rw [g1, g2]
    exact finish_outside (failIf_outside (failIf_outside (failIf_outside (failIf_outside (ok _))))) h
  case dtCommit => exact finish_outside (failIf_outside (failIf_outside (failIf_outside (ok _)))) h
  case dtFromCt => exact finish_outside (failIf_outside (ok _)) h
  case decByte => exact finish_outside (failIf_outside (pushBits_outside v d { s with done := false } _)) h
  case decLast b n =>
    refine finish_outside (failIf_outside (failIf_outside ?_)) h
    have hp := pushBits_outside v d { s with done := false } (byteBits b n.toNat)
    split
    · rename_i e he
      simp only
      rw [hp.2 _ he]
      exact er _
    · rename_i u he
      simp only
      rw [hp.1 _ he]
      exact ok _
  case decEnd => exact finish_outside (failIf_outside (failIf_outside (ok _))) h

/-! ### A command line -/

/-- `u` with the word of `i` latched. -/
def State.latchCommand (u : State) (i : Instr) : State :=
  { u with pend := some { word := encode i, arg := u.arg, arg2 := u.arg2 } }

theorem engineStep_latched {s t : State} {p : Latched} {i : Instr} (hp : s.pend = some p)
    (hd : decode p.word = .ok i) (hx : exec i s = .next t) : engineStep s = .next t.clearPend := by
  unfold engineStep
  rw [hp]
  simp only [hd, hx]
  rfl

/-- An engine turn does not depend on what the bus last answered or on the count of draws. -/
theorem engineStep_outside {s t : State} (a : BusResp) (d : Nat) (h : engineStep s = .next t) :
    engineStep (s.outside a d) = .next (t.outside a d) := by
  unfold engineStep at h ⊢
  simp only
  cases hp : s.pend with
  | none =>
    rw [hp] at h
    cases h
    rfl
  | some p =>
    rw [hp] at h
    simp only at h ⊢
    cases hd : decode p.word with
    | ok i =>
      rw [hd] at h
      simp only at h ⊢
      cases hx : exec i s with
      | next u =>
        rw [hx] at h
        cases h
        rw [exec_outside a d hx]
        rfl
      | fault f => rw [hx] at h; cases h
      | refused r => rw [hx] at h; cases h
    | error e =>
      rw [hd] at h
      cases h
      simp only
      rw [recordError_outside]
      rfl

/-- A command line issued with no command latched and no error recorded leaves what the command leaves. -/
theorem command_next {n : Nat} {i : Instr} {u t : State} (hd : decode (encode i) = .ok i) (hp : u.pend = none)
    (he : u.err = false) (hx : exec i (u.latchCommand i) = .next t) (a : BusResp) (d : Nat) :
    ∃ a' d', command n i (u.outside a d) = ((), t.clearPend.outside a' d') := by
  have key : command n i (u.outside a d) = ((), (wait n (wr .CMD (encode i) (u.outside a d)).2).2) := rfl
  rw [key]
  have h1 : (wr .CMD (encode i) (u.outside a d)).2 =
      (u.latchCommand i).outside { value := 0#32, error := false } d := by
    rw [wr_eq]
    have hw : memWrite Reg.CMD.offset (encode i) (u.outside a d) = submit (encode i) (u.outside a d) := rfl
    rw [hw]
    unfold submit
    rw [if_neg (by simp [State.busy, hp]), if_neg (by simp [he])]
    rfl
  rw [h1]
  obtain ⟨a1, d1, h2⟩ := wait_busy n ((u.latchCommand i).outside { value := 0#32, error := false } d) rfl
  rw [h2]
  have h3 : engineStep ((u.latchCommand i).outside a1 d1) = .next (t.outside a1 d1).clearPend :=
    engineStep_latched (s := (u.latchCommand i).outside a1 d1) rfl hd (exec_outside a1 d1 hx)
  have h4 : take .engine ((u.latchCommand i).outside a1 d1) = ((), (t.outside a1 d1).clearPend) := by
    unfold take act
    simp only
    rw [h3]
  refine ⟨{ value := (t.outside a1 d1).clearPend.status, error := false }, d1, ?_⟩
  show ((), (rd .STATUS (take .engine ((u.latchCommand i).outside a1 d1)).2).2) = _
  rw [h4, rd_idle .STATUS _ rfl (by decide) (by decide)]
  rfl

/-! ### Draining -/

theorem drainOut_succ (k : Nat) (s : State) : drainOut (k + 1) s =
    if (rd .OUT_DATA s).1.getLsbD 31 then
      ((rd .OUT_DATA s).1.extractLsb' 0 8 :: (drainOut k (rd .OUT_DATA s).2).1, (drainOut k (rd .OUT_DATA s).2).2)
    else ([], (rd .OUT_DATA s).2) := by
  show (if (rd .OUT_DATA s).1.getLsbD 31 then _ else pure [] : HostM (List Byte)) (rd .OUT_DATA s).2 = _
  split <;> rfl

theorem drainSyms_succ (k : Nat) (s : State) : drainSyms (k + 1) s =
    if (rd .SYM_DATA s).1.getLsbD 31 then
      ((rd .SYM_DATA s).1.extractLsb' 0 21 :: (drainSyms k (rd .SYM_DATA s).2).1, (drainSyms k (rd .SYM_DATA s).2).2)
    else ([], (rd .SYM_DATA s).2) := by
  show (if (rd .SYM_DATA s).1.getLsbD 31 then _ else pure [] : HostM (List Sym)) (rd .SYM_DATA s).2 = _
  split <;> rfl

theorem outData_fields (b : Byte) : (0x80000000#32 ||| b.setWidth 32).getLsbD 31 = true ∧
    (0x80000000#32 ||| b.setWidth 32).extractLsb' 0 8 = b := by
  refine ⟨by simp, ?_⟩
  ext j hj
  have : j = 0 ∨ j = 1 ∨ j = 2 ∨ j = 3 ∨ j = 4 ∨ j = 5 ∨ j = 6 ∨ j = 7 := by omega
  rcases this with rfl | rfl | rfl | rfl | rfl | rfl | rfl | rfl <;> simp

theorem symData_fields (c : Sym) : (0x80000000#32 ||| c.setWidth 32).getLsbD 31 = true ∧
    (0x80000000#32 ||| c.setWidth 32).extractLsb' 0 21 = c := by
  refine ⟨by simp, ?_⟩
  ext j hj
  have hb : (0x80000000#32).getLsbD j = false := by
    interval_cases j <;> rfl
  have hj' : j < 32 := by omega
  simp only [BitVec.getElem_extractLsb', BitVec.getLsbD_or, BitVec.getLsbD_setWidth, Nat.zero_add, hb, hj',
    decide_true, Bool.true_and, Bool.false_or, BitVec.getLsbD_eq_getElem hj]

/-- Draining OUTQ reads all its bytes and leaves it empty. -/
theorem drainOut_all (bs : List Byte) : ∀ (k : Nat) (u : State) (a : BusResp) (d : Nat), bs.length < k →
    u.pend = none → u.outq = bs →
    ∃ a', drainOut k (u.outside a d) = (bs, ({ u with outq := [] } : State).outside a' d) := by
  induction bs with
  | nil =>
    intro k u a d hk hp hq
    obtain ⟨k, rfl⟩ := Nat.exists_eq_succ_of_ne_zero (by omega : k ≠ 0)
    have h1 : rd .OUT_DATA (u.outside a d) = (0#32, (u.outside a d).answer 0#32) := by
      rw [rd_eq]
      unfold memRead
      rw [Reg.at_offset_self]
      simp [State.busy, hp, readIdle, Reg.value, hq, State.answer]
    refine ⟨{ value := 0#32, error := false }, ?_⟩
    rw [Nat.succ_eq_add_one, drainOut_succ, h1, if_neg (by simp)]
    simp [State.answer, hq]
  | cons b bs ih =>
    intro k u a d hk hp hq
    obtain ⟨k, rfl⟩ := Nat.exists_eq_succ_of_ne_zero (by omega : k ≠ 0)
    have h1 : rd .OUT_DATA (u.outside a d) = (0x80000000#32 ||| b.setWidth 32,
        ({ u with outq := bs } : State).outside { value := 0x80000000#32 ||| b.setWidth 32, error := false } d) := by
      rw [rd_eq]
      unfold memRead
      rw [Reg.at_offset_self]
      simp [State.busy, hp, readIdle, Reg.value, hq, State.answer]
    obtain ⟨a', h2⟩ := ih k { u with outq := bs } { value := 0x80000000#32 ||| b.setWidth 32, error := false } d
      (by simp only [List.length_cons] at hk; omega) hp rfl
    refine ⟨a', ?_⟩
    rw [Nat.succ_eq_add_one, drainOut_succ, h1]
    simp only
    rw [if_pos (outData_fields b).1, h2, (outData_fields b).2]

/-- Draining SYMQ reads all its symbols and leaves it empty. -/
theorem drainSyms_all (cs : List Sym) : ∀ (k : Nat) (u : State) (a : BusResp) (d : Nat), cs.length < k →
    u.pend = none → u.symq = cs →
    ∃ a', drainSyms k (u.outside a d) = (cs, ({ u with symq := [] } : State).outside a' d) := by
  induction cs with
  | nil =>
    intro k u a d hk hp hq
    obtain ⟨k, rfl⟩ := Nat.exists_eq_succ_of_ne_zero (by omega : k ≠ 0)
    have h1 : rd .SYM_DATA (u.outside a d) = (0#32, (u.outside a d).answer 0#32) := by
      rw [rd_eq]
      unfold memRead
      rw [Reg.at_offset_self]
      simp [State.busy, hp, readIdle, Reg.value, hq, State.answer]
    refine ⟨{ value := 0#32, error := false }, ?_⟩
    rw [Nat.succ_eq_add_one, drainSyms_succ, h1, if_neg (by simp)]
    simp [State.answer, hq]
  | cons c cs ih =>
    intro k u a d hk hp hq
    obtain ⟨k, rfl⟩ := Nat.exists_eq_succ_of_ne_zero (by omega : k ≠ 0)
    have h1 : rd .SYM_DATA (u.outside a d) = (0x80000000#32 ||| c.setWidth 32,
        ({ u with symq := cs } : State).outside { value := 0x80000000#32 ||| c.setWidth 32, error := false } d) := by
      rw [rd_eq]
      unfold memRead
      rw [Reg.at_offset_self]
      simp [State.busy, hp, readIdle, Reg.value, hq, State.answer]
    obtain ⟨a', h2⟩ := ih k { u with symq := cs } { value := 0x80000000#32 ||| c.setWidth 32, error := false } d
      (by simp only [List.length_cons] at hk; omega) hp rfl
    refine ⟨a', ?_⟩
    rw [Nat.succ_eq_add_one, drainSyms_succ, h1]
    simp only
    rw [if_pos (symData_fields c).1, h2, (symData_fields c).2]

end Sys2Proof.Machine
end

