-- ==== Sys2Proof/Laws/Matcher.lean ====
section
/-! SUPPORT. The symbol matcher reads a bit string as a sequence of codes of a prefix-free table (spec/44_decoder.md R186,
R195). -/

namespace Sys2Proof.Machine

/-- The window's bits. -/
def Matcher.bits (m : Matcher) : List Bool := codeBits m.wlen m.w

/-- A table of legal codes of at most 64 bits, no longer than `n`. -/
structure TableLegal (dt : List Entry) (n : Nat) : Prop where
  legal : ∀ e ∈ dt, 1 ≤ e.len ∧ e.len ≤ n ∧ e.val.toNat < 2 ^ e.len
  short : n ≤ 64

/-- The window holds exactly its bits, fewer than `n` of them if any, and no code of the table has been completed. -/
structure Matcher.Open (dt : List Entry) (n : Nat) (m : Matcher) : Prop where
  bound : m.w.toNat < 2 ^ m.wlen
  short : m.wlen = 0 ∨ m.wlen < n
  noCode : ∀ e ∈ dt, ¬ e.bits <+: m.bits

theorem Matcher.open_empty {dt : List Entry} {n : Nat} (h : TableLegal dt n) (out : List Sym) :
    Matcher.Open dt n { w := 0#64, wlen := 0, out := out } where
  bound := by simp
  short := .inl rfl
  noCode e he hp := by
    have h1 := hp.length_le
    have h2 := (h.legal e he).1
    simp only [Entry.length_bits, Matcher.bits, length_codeBits] at h1
    omega

theorem Matcher.Open.lt {dt : List Entry} {n : Nat} {m : Matcher} (h : TableLegal dt n) (ho : m.Open dt n) :
    m.wlen < 64 := by
  have h1 := h.short
  rcases ho.short with h2 | h2 <;> omega

/-- The table's codes that equal the window with one more bit. -/
theorem findCode_shift_in {dt : List Entry} {n : Nat} {m : Matcher} (h : TableLegal dt n) (ho : m.Open dt n) (b : Bool)
    {e : Entry} (he : e ∈ dt) :
    (e.len = m.wlen + 1 ∧ e.val = (m.w <<< 1) ||| (BitVec.ofBool b).setWidth 64) ↔ e.bits = m.bits ++ [b] := by
  have h1 := codeBits_shift_in ho.bound (ho.lt h) b
  rw [Matcher.bits, ← h1]
  constructor
  · rintro ⟨h2, h3⟩
    rw [Entry.bits, h2, h3]
  · intro h2
    have h3 := toNat_shift_in ho.bound (ho.lt h) b
    exact Entry.bits_inj (b := ⟨e.sym, m.wlen + 1, _⟩) (h.legal e he).2.2
      (by rw [h3, Nat.pow_succ]; have := ho.bound; cases b <;> simp <;> omega) h2

/-- One bit of an open window: a code is completed and its symbol comes out; or no code can be completed any more; or
the window is open still. -/
theorem Matcher.push_spec {dt : List Entry} {n : Nat} {m : Matcher} (h : TableLegal dt n) (ho : m.Open dt n)
    (b : Bool) :
    (∃ e ∈ dt, e.bits = m.bits ++ [b] ∧ m.push dt n b = .ok { w := 0#64, wlen := 0, out := m.out ++ [e.sym] }) ∨
    ((∀ e ∈ dt, ¬ e.bits <+: m.bits ++ [b]) ∧ n ≤ m.wlen + 1 ∧ m.push dt n b = .error .UNDECODABLE) ∨
    (∃ m', m.push dt n b = .ok m' ∧ m'.Open dt n ∧ m'.bits = m.bits ++ [b] ∧ m'.out = m.out ∧ m'.wlen < n) := by
  have hno : findCode dt (m.wlen + 1) ((m.w <<< 1) ||| (BitVec.ofBool b).setWidth 64) = none →
      ∀ e ∈ dt, ¬ e.bits <+: m.bits ++ [b] := by
    intro hn e he hp
    rcases List.prefix_concat_iff.1 (by simpa using hp) with h1 | h1
    · exact findCode_none hn e he ((findCode_shift_in h ho b he).2 h1)
    · exact ho.noCode e he h1
  rcases Matcher.push_cases dt n m b with ⟨e, he, h1, h2, hp⟩ | ⟨hn, hl, hp⟩ | ⟨hn, hl, hp⟩
  · exact .inl ⟨e, he, (findCode_shift_in h ho b he).1 ⟨h1, h2⟩, hp⟩
  · exact .inr (.inl ⟨hno hn, hl, hp⟩)
  · have h1 : Matcher.bits { w := (m.w <<< 1) ||| (BitVec.ofBool b).setWidth 64, wlen := m.wlen + 1, out := m.out } =
        m.bits ++ [b] := codeBits_shift_in ho.bound (ho.lt h) b
    refine .inr (.inr ⟨_, hp, ⟨?_, .inr hl, fun e he => h1 ▸ hno hn e he⟩, h1, rfl, hl⟩)
    show ((m.w <<< 1) ||| (BitVec.ofBool b).setWidth 64).toNat < 2 ^ (m.wlen + 1)
    rw [toNat_shift_in ho.bound (ho.lt h), Nat.pow_succ]
    have := ho.bound
    cases b <;> simp <;> omega

/-- What the matcher has done when it succeeds: the window's bits and the new ones are whole codes, whose symbols came
out, and an open rest. -/
theorem Matcher.pushAll_sound {dt : List Entry} {n : Nat} (h : TableLegal dt n) (bits : List Bool) {m m' : Matcher}
    (ho : m.Open dt n) (hp : m.pushAll dt n bits = .ok m') :
    m'.Open dt n ∧ ∃ es : List Entry, (∀ e ∈ es, e ∈ dt) ∧ m.bits ++ bits = bitsOf es ++ m'.bits ∧
      m'.out = m.out ++ es.map Entry.sym := by
  induction bits generalizing m with
  | nil =>
    cases hp
    exact ⟨ho, [], by simp, by simp, by simp⟩
  | cons b bs ih =>
    rw [Matcher.pushAll_cons] at hp
    rcases Matcher.push_spec h ho b with ⟨e, he, h1, h2⟩ | ⟨_, _, h2⟩ | ⟨m1, h2, ho1, h1, h3, _⟩ <;> rw [h2] at hp
    · obtain ⟨q1, es, q2, q3, q4⟩ := ih (Matcher.open_empty h _) hp
      refine ⟨q1, e :: es, by simpa [he] using q2, ?_, by simp [q4]⟩
      have q5 : bs = bitsOf es ++ m'.bits := by simpa [Matcher.bits, codeBits] using q3
      rw [q5, bitsOf_cons, h1]
      simp
    · cases hp
    · obtain ⟨q1, es, q2, q3, q4⟩ := ih ho1 hp
      refine ⟨q1, es, q2, ?_, by rw [q4, h3]⟩
      rw [← q3, h1, List.append_assoc]
      rfl

/-- In a prefix-free table, a code that is a prefix of another is that one. -/
theorem eq_of_prefix {dt : List Entry} {n : Nat} (h : TableLegal dt n) (hf : hasPrefixPair dt = false) {a b : Entry}
    (ha : a ∈ dt) (hb : b ∈ dt) (hp : a.bits <+: b.bits) : a = b := by
  have h1 := hasPrefixPair_false.1 hf
  rw [List.pairwise_iff_getElem] at h1
  obtain ⟨i, hi, rfl⟩ := List.getElem_of_mem ha
  obtain ⟨j, hj, rfl⟩ := List.getElem_of_mem hb
  have h2 := (Entry.isPrefixOf_iff (h.legal _ ha).2.2 (h.legal _ hb).2.2).2 hp
  rcases Nat.lt_trichotomy i j with hij | hij | hij
  · rw [(h1 i j hi hj hij).1] at h2; cases h2
  · subst hij; rfl
  · rw [(h1 j i hj hi hij).2] at h2; cases h2

/-- When the window's bits and the new ones can be read as whole codes and an open rest, the matcher reads them so. -/
theorem Matcher.pushAll_complete {dt : List Entry} {n : Nat} (h : TableLegal dt n) (hf : hasPrefixPair dt = false)
    (bits : List Bool) {m : Matcher} (ho : m.Open dt n) {es : List Entry} {rest : List Bool} (hes : ∀ e ∈ es, e ∈ dt)
    (hb : m.bits ++ bits = bitsOf es ++ rest) (hr : ∀ e ∈ dt, ¬ e.bits <+: rest) (hn : rest = [] ∨ rest.length < n) :
    ∃ m', m.pushAll dt n bits = .ok m' ∧ m'.bits = rest ∧ m'.Open dt n ∧ m'.out = m.out ++ es.map Entry.sym := by
  induction bits generalizing m es with
  | nil =>
    cases es with
    | nil => exact ⟨m, rfl, by simpa using hb, ho, by simp⟩
    | cons e es =>
      refine absurd ?_ (ho.noCode e (hes e (by simp)))
      refine ⟨bitsOf es ++ rest, ?_⟩
      simpa using hb.symm
  | cons b bs ih =>
    have hb' : (m.bits ++ [b]) ++ bs = bitsOf es ++ rest := by rw [← hb, List.append_assoc]; rfl
    rw [Matcher.pushAll_cons]
    cases es with
    | nil =>
      have hpre : m.bits ++ [b] <+: rest := ⟨bs, by simpa using hb'⟩
      have hne : rest.length < n := by
        rcases hn with rfl | hn
        · simpa using hpre.length_le
        · exact hn
      have hlen : m.wlen + 1 ≤ rest.length := by simpa [Matcher.bits] using hpre.length_le
      rcases Matcher.push_spec h ho b with ⟨e, he, h1, _⟩ | ⟨_, h1, _⟩ | ⟨m1, h2, ho1, h1, h3, _⟩
      · exact absurd (h1 ▸ hpre) (hr e he)
      · omega
      · rw [h2]
        obtain ⟨m', q1, q2, q3, q4⟩ := ih ho1 hes (by rw [h1]; exact hb')
        exact ⟨m', q1, q2, q3, by rw [q4, h3]⟩
    | cons e es =>
      have he : e ∈ dt := hes e (by simp)
      have hwhole : (m.bits ++ [b]) ++ bs = e.bits ++ (bitsOf es ++ rest) := by
        rw [hb']; simp
      have hpe : e.bits <+: (m.bits ++ [b]) ++ bs := ⟨_, hwhole.symm⟩
      have hpm : m.bits ++ [b] <+: (m.bits ++ [b]) ++ bs := ⟨bs, rfl⟩
      have hle : (m.bits ++ [b]) <+: e.bits := by
        refine List.prefix_of_prefix_length_le hpm hpe ?_
        by_contra hlt
        refine ho.noCode e he (List.prefix_of_prefix_length_le hpe ⟨b :: bs, by simp⟩ ?_)
        simp only [List.length_append, List.length_singleton] at hlt
        omega
      rcases Matcher.push_spec h ho b with ⟨f, hf', h1, h2⟩ | ⟨h0, h1, _⟩ | ⟨m1, h2, ho1, h1, h3, _⟩
      · have hfe : f = e := eq_of_prefix h hf hf' he (h1 ▸ hle)
        subst hfe
        rw [h2]
        have hbs : bs = bitsOf es ++ rest := by
          rw [← h1] at hwhole
          exact List.append_cancel_left hwhole
        obtain ⟨m', q1, q2, q3, q4⟩ := ih (Matcher.open_empty h (m.out ++ [f.sym]))
          (fun e he => hes e (List.mem_cons_of_mem _ he)) (by simpa [Matcher.bits, codeBits] using hbs)
        exact ⟨m', q1, q2, q3, by rw [q4]; simp⟩
      · have h4 := hle.length_le
        have h5 := (h.legal e he).2.1
        simp only [List.length_append, Matcher.bits, length_codeBits, List.length_singleton, Entry.length_bits] at h4
        have h6 : (m.bits ++ [b]).length = e.bits.length := by
          simp only [List.length_append, Matcher.bits, length_codeBits, List.length_singleton, Entry.length_bits]
          omega
        exact absurd (hle.eq_of_length h6 ▸ List.prefix_refl _) (h0 e he)
      · rw [h2]
        obtain ⟨m', q1, q2, q3, q4⟩ := ih ho1 hes (by rw [h1]; exact hb')
        exact ⟨m', q1, q2, q3, by rw [q4, h3]⟩

end Sys2Proof.Machine
end

