-- ==== Sys2Proof/Laws/PerInstr.lean ====
section
/-! SUPPORT. One law per instruction: the two fields of its word (spec/30_encoding.md R101, R116). -/

namespace Sys2Proof.Laws.OpcodeField

/-- The encoding of a command has its opcode in OPC and its operand in OPND. -/
def Statement (i : Instr) : Prop :=
  opcField (encode i) = i.opcode ∧ opndField (encode i) = i.operand

/-- The two fields of a word put together from them. -/
theorem fields_append (o : BitVec 8) (p : BitVec 24) : opcField (o ++ p) = o ∧ opndField (o ++ p) = p := by
  constructor <;> ext j hj
  · simp only [opcField, BitVec.getElem_extractLsb', BitVec.getLsbD_append]
    rw [if_neg (by omega), Nat.add_sub_cancel_left, BitVec.getLsbD_eq_getElem hj]
  · simp only [opndField, BitVec.getElem_extractLsb', BitVec.getLsbD_append, Nat.zero_add]
    rw [if_pos hj, BitVec.getLsbD_eq_getElem hj]

theorem nop : Statement .nop := fields_append _ _

theorem errClr : Statement .errClr := fields_append _ _

theorem ftClear : Statement .ftClear := fields_append _ _

theorem ftInc (s : Sym) : Statement (.ftInc s) := fields_append _ _

theorem ftSet (s : Sym) : Statement (.ftSet s) := fields_append _ _

theorem ftRead (s : Sym) : Statement (.ftRead s) := fields_append _ _

theorem buildTree : Statement .buildTree := fields_append _ _

theorem nodeRead (i : BitVec 24) : Statement (.nodeRead i) := fields_append _ _

theorem genTable : Statement .genTable := fields_append _ _

theorem ctRead (i : BitVec 24) : Statement (.ctRead i) := fields_append _ _

theorem encSymbol (s : Sym) : Statement (.encSymbol s) := fields_append _ _

theorem encFlush : Statement .encFlush := fields_append _ _

theorem dtClear : Statement .dtClear := fields_append _ _

theorem dtLoad (s : Sym) : Statement (.dtLoad s) := fields_append _ _

theorem dtCommit : Statement .dtCommit := fields_append _ _

theorem dtFromCt : Statement .dtFromCt := fields_append _ _

theorem decByte (b : Byte) : Statement (.decByte b) := fields_append _ _

theorem decLast (b : Byte) (t : BitVec 4) : Statement (.decLast b t) := fields_append _ _

theorem decEnd : Statement .decEnd := fields_append _ _

end Sys2Proof.Laws.OpcodeField
end

