-- ==== Sys2Proof/Tests/Slice0.lean ====
section
/-! SUPPORT. Tests. Expected results are those of spec/95_test_vectors.md (named V-…) or of the spec's encodings, or
worked out by hand from a rule; then, for every obligation with hypotheses, a state and operands that meet them. -/

namespace Sys2Proof.Tests

open Sys2Proof Sys2Proof.Machine

/-! ### WellFormed refuses an ill-formed term for each of its checks -/

theorem test_wf_ftInc_above_range : (Instr.ftInc 0x110000#21).wellFormed = false := by decide
theorem test_wf_ftSet_first_surrogate : (Instr.ftSet 0xD800#21).wellFormed = false := by decide
theorem test_wf_ftRead_last_surrogate : (Instr.ftRead 0xDFFF#21).wellFormed = false := by decide
theorem test_wf_encSymbol_highest_field : (Instr.encSymbol 0x1FFFFF#21).wellFormed = false := by decide
theorem test_wf_dtLoad_surrogate : (Instr.dtLoad 0xDABC#21).wellFormed = false := by decide
theorem test_wf_decLast_tail_zero : (Instr.decLast 0x40#8 0#4).wellFormed = false := by decide
theorem test_wf_decLast_tail_nine : (Instr.decLast 0x40#8 9#4).wellFormed = false := by decide
/-- The neighbours of the refused values are accepted. -/
theorem test_wf_accepts_the_bounds :
    ((Instr.ftInc 0x10FFFF#21).wellFormed && (Instr.ftSet 0xD7FF#21).wellFormed &&
      (Instr.ftRead 0xE000#21).wellFormed && (Instr.encSymbol 0#21).wellFormed &&
      (Instr.decLast 0x40#8 1#4).wellFormed && (Instr.decLast 0x40#8 8#4).wellFormed) = true := by decide

/-! ### Decoding: words written bit by bit, OPC[31:24] then OPND[23:0], from 30_encoding.md R101 to R108 -/

theorem test_decode_nop : (decode 0b00000000000000000000000000000000#32).toOption = some .nop := by decide
theorem test_decode_errClr : (decode 0b00000001000000000000000000000000#32).toOption = some .errClr := by decide
theorem test_decode_ftClear : (decode 0b00010000000000000000000000000000#32).toOption = some .ftClear := by decide
/-- FT_INC 'a': SYM = 0x61. -/
theorem test_decode_ftInc :
    (decode 0b00010001000000000000000001100001#32).toOption = some (.ftInc 0x61#21) := by decide
/-- FT_SET U+10FFFF. -/
theorem test_decode_ftSet :
    (decode 0b00010010000100001111111111111111#32).toOption = some (.ftSet 0x10FFFF#21) := by decide
theorem test_decode_ftRead :
    (decode 0b00010011000000000000000001100001#32).toOption = some (.ftRead 0x61#21) := by decide
theorem test_decode_buildTree : (decode 0b00100000000000000000000000000000#32).toOption = some .buildTree := by decide
/-- NODE_READ 16777215: IDX is all of OPND. -/
theorem test_decode_nodeRead :
    (decode 0b00100001111111111111111111111111#32).toOption = some (.nodeRead 0xFFFFFF#24) := by decide
theorem test_decode_genTable : (decode 0b00100010000000000000000000000000#32).toOption = some .genTable := by decide
/-- CT_READ 7. -/
theorem test_decode_ctRead :
    (decode 0b00100011000000000000000000000111#32).toOption = some (.ctRead 7#24) := by decide
theorem test_decode_encSymbol :
    (decode 0b00110000000000000000000001100010#32).toOption = some (.encSymbol 0x62#21) := by decide
theorem test_decode_encFlush : (decode 0b00110001000000000000000000000000#32).toOption = some .encFlush := by decide
theorem test_decode_dtClear : (decode 0b01000000000000000000000000000000#32).toOption = some .dtClear := by decide
theorem test_decode_dtLoad :
    (decode 0b01000001000000000000000001100001#32).toOption = some (.dtLoad 0x61#21) := by decide
theorem test_decode_dtCommit : (decode 0b01000010000000000000000000000000#32).toOption = some .dtCommit := by decide
theorem test_decode_dtFromCt : (decode 0b01000011000000000000000000000000#32).toOption = some .dtFromCt := by decide
/-- DEC_BYTE 0x96. -/
theorem test_decode_decByte :
    (decode 0b01001000000000000000000010010110#32).toOption = some (.decByte 0x96#8) := by decide
/-- DEC_LAST 0x40, 3: TAILN = 3 in bits 11:8, BYTE = 0x40. -/
theorem test_decode_decLast :
    (decode 0b01001001000000000000001101000000#32).toOption = some (.decLast 0x40#8 3#4) := by decide
theorem test_decode_decEnd : (decode 0b01001010000000000000000000000000#32).toOption = some .decEnd := by decide
/-- V-W-2, V-W-9, V-W-31, V-W-35: a must-be-0 bit is 1. V-W-5, V-W-37: reserved opcodes. -/
theorem test_decode_illegal : (decode 0x00000001#32).toOption = none ∧ (decode 0x11200061#32).toOption = none ∧
    (decode 0x48000196#32).toOption = none ∧ (decode 0x49001340#32).toOption = none ∧
    (decode 0x0F000000#32).toOption = none ∧ (decode 0x4B000000#32).toOption = none := by decide

/-! ### States -/

def symA : Sym := 0x61#21
def symB : Sym := 0x62#21
def symC : Sym := 0x63#21
def symD : Sym := 0x64#21
def symR : Sym := 0x72#21

/-- `s` with the word of `i` latched, as a write of CMD latches it. -/
def latch (i : Instr) (s : State) : State :=
  { s with pend := some { word := encode i, arg := s.arg, arg2 := s.arg2 } }

/-- A state with a recorded error. -/
def erred : State := { State.reset with err := true, ecode := .SEQUENCE, eopc := 0x22#8 }

/-- The frequency table {a:1, b:1, c:2} and its tree, as V-TREE-1 tabulates it. -/
def tree1 : State := { State.reset with
  ft := [(symA, 1#64), (symB, 1#64), (symC, 2#64)]
  treeValid := true
  nodes := [.leaf 1#64 symA, .leaf 1#64 symB, .leaf 2#64 symC, .internal 2#64 0 1, .internal 4#64 2 3] }

/-- The code table of "abracadabra" (V-ENC-1): a="0", b="110", c="100", d="101", r="111". -/
def abraTable : List Entry :=
  [{ sym := symA, len := 1, val := 0#64 }, { sym := symB, len := 3, val := 6#64 },
    { sym := symC, len := 3, val := 4#64 }, { sym := symD, len := 3, val := 5#64 },
    { sym := symR, len := 3, val := 7#64 }]

/-- After GEN_TABLE and DT_FROM_CT for "abracadabra"; the tree itself is not needed. -/
def abra : State := { State.reset with
  treeValid := true, ctValid := true, ct := abraTable, ctMaxLen := 3
  dtValid := true, dt := abraTable, dtMaxLen := 3 }

/-- {a:1, b:1}, its tree and its codes a="0", b="1" (V-SRC-2), copied to DT. -/
def ab : State := { State.reset with
  ft := [(symA, 1#64), (symB, 1#64)], treeValid := true
  nodes := [.leaf 1#64 symA, .leaf 1#64 symB, .internal 2#64 0 1]
  ctValid := true, ct := [{ sym := symA, len := 1, val := 0#64 }, { sym := symB, len := 1, val := 1#64 }]
  ctMaxLen := 1
  dtValid := true, dt := [{ sym := symA, len := 1, val := 0#64 }, { sym := symB, len := 1, val := 1#64 }]
  dtMaxLen := 1 }

/-- The decode table of V-DEC-2, an incomplete code: a="0", b="10". -/
def incomplete : State := { State.reset with
  dtValid := true, dt := [{ sym := symA, len := 1, val := 0#64 }, { sym := symB, len := 2, val := 2#64 }]
  dtMaxLen := 2 }

/-- The next state of a meaning passes a check. -/
def next (r : Result) (check : State → Bool) : Bool :=
  match r with
  | .next t => check t
  | .fault _ => false
  | .refused _ => false

/-! ### One step of each command -/

/-- V-FT-3, step 4: NOP with ERR = 1 changes nothing. -/
theorem test_nop : next (exec .nop erred) (fun t => t == erred) = true := by decide

/-- V-CTL-5, step 9: both streams are aborted, DT and RES are kept. -/
theorem test_errClr : next (exec .errClr { abra with
      acc := 0x80#8, nbits := 3, w := 3#64, wlen := 2, symq := [symA, symB, symR, symA], phase := .LAST, res := 6#64
      resAux := 0x03000062#32 })
    (fun t => t == { abra with res := 6#64, resAux := 0x03000062#32 }) = true := by decide

/-- V-FT-1, step 7. -/
theorem test_ftClear : next (exec .ftClear { State.reset with ft := [(symA, 3#64)] }) (fun t => t.ft == []) = true := by
  decide

/-- V-FT-1, steps 3 and 4: the new symbol goes above 'a', whose count stays. -/
theorem test_ftInc_new : next (exec (.ftInc 0x10FFFF#21) { State.reset with ft := [(symA, 3#64)] })
    (fun t => t.ft == [(symA, 3#64), (0x10FFFF#21, 1#64)]) = true := by decide
/-- V-FT-5, step 3. -/
theorem test_ftInc_overflow : next (exec (.ftInc symA) { State.reset with ft := [(symA, 0xFFFFFFFFFFFFFFFF#64)] })
    (fun t => t.errcode == 0x00001113#32 && t.ft == [(symA, 0xFFFFFFFFFFFFFFFF#64)]) = true := by decide

/-- V-FT-2, step 5: a 64-bit count, from the snapshot of ARG. -/
theorem test_ftSet_wide : next (exec (.ftSet symB) (latch (.ftSet symB)
      { State.reset with ft := [(symB, 5#64)], arg := 0x100000000#64 }))
    (fun t => t.ft == [(symB, 0x100000000#64)]) = true := by decide
/-- V-FT-2, step 8: a count of 0 removes the symbol. -/
theorem test_ftSet_zero_removes : next (exec (.ftSet symB) (latch (.ftSet symB)
      { State.reset with ft := [(symA, 1#64), (symB, 5#64)] })) (fun t => t.ft == [(symA, 1#64)]) = true := by decide

/-- V-FT-1, step 5. -/
theorem test_ftRead_present : next (exec (.ftRead symA) { State.reset with
      ft := [(symA, 3#64), (0x10FFFF#21, 1#64)], resAux := 7#32 })
    (fun t => t.res == 3#64 && t.resAux == 0#32 && t.resAux2 == 0#32) = true := by decide
/-- V-FT-1, step 6: 0 for an absent symbol. -/
theorem test_ftRead_absent : next (exec (.ftRead 0x7A#21) { State.reset with ft := [(symA, 3#64)], res := 9#64 })
    (fun t => t.res == 0#64 && !t.err) = true := by decide

/-- V-TREE-1, the node table: c before node 3, which has the same frequency. -/
theorem test_buildTree_ties : next (exec .buildTree { tree1 with treeValid := false, nodes := [] })
    (fun t => t == tree1) = true := by decide
/-- V-TREE-6. -/
theorem test_buildTree_overflow : next (exec .buildTree { State.reset with
      ft := [(symA, 0x8000000000000000#64), (symB, 0x8000000000000000#64)] })
    (fun t => t.errcode == 0x00002013#32 && !t.treeValid && t.nodes == []) = true := by decide

/-- V-TREE-1, the row of node 4. -/
theorem test_nodeRead_internal : next (exec (.nodeRead 4#24) tree1)
    (fun t => t.res == 4#64 && t.resAux == 0x80000002#32 && t.resAux2 == 3#32) = true := by decide
/-- V-TREE-1, the row of node 2. -/
theorem test_nodeRead_leaf : next (exec (.nodeRead 2#24) tree1)
    (fun t => t.res == 2#64 && t.resAux == 0x00000063#32 && t.resAux2 == 0#32) = true := by decide

/-- V-TREE-1, step 8: a="10", b="11", c="0". -/
theorem test_genTable : next (exec .genTable tree1)
    (fun t => t.ctMaxLen == 2 && t.treeValid && t.ct == [{ sym := symA, len := 2, val := 2#64 },
      { sym := symB, len := 2, val := 3#64 }, { sym := symC, len := 1, val := 0#64 }]) = true := by decide
/-- The same with L_MAX = 1 is CODE_TOO_LONG (41_code_table.md R147, as in V-CT-1). -/
theorem test_genTable_too_long :
    next (exec .genTable { tree1 with cfg := { Config.Params.vectors with lMax := 1 } })
      (fun t => t.errcode == 0x00002214#32 && !t.ctValid && t.ct == []) = true := by decide

/-- V-CTL-5, step 5. -/
theorem test_ctRead : next (exec (.ctRead 1#24) abra)
    (fun t => t.res == 6#64 && t.resAux == 0x03000062#32 && t.resAux2 == 0#32) = true := by decide
/-- As V-CT-2, step 15: index NCT. -/
theorem test_ctRead_range : next (exec (.ctRead 5#24) abra) (fun t => t.errcode == 0x00002318#32) = true := by decide

/-- V-ENC-1, step 5: 'b' = "110" after one bit. -/
theorem test_encSymbol : next (exec (.encSymbol symB) { abra with nbits := 1 })
    (fun t => t.acc == 0x60#8 && t.nbits == 4 && t.outq == []) = true := by decide
/-- V-ENC-1, step 7: the eighth bit pushes the byte. -/
theorem test_encSymbol_pushes : next (exec (.encSymbol symA) { abra with acc := 0x6E#8, nbits := 7 })
    (fun t => t.acc == 0#8 && t.nbits == 0 && t.outq == [0x6E#8]) = true := by decide

/-- V-ENC-1, step 9. -/
theorem test_encFlush : next (exec .encFlush { abra with acc := 0x80#8, nbits := 3, outq := [0x6E#8] })
    (fun t => t.acc == 0#8 && t.nbits == 0 && t.tail == 3 && t.outq == [0x6E#8, 0x80#8]) = true := by decide
/-- V-ENC-8, step 8: with NBITS = 0 a full OUTQ is no obstacle. -/
theorem test_encFlush_full : next (exec .encFlush { abra with outq := List.replicate 16 0#8 })
    (fun t => t.tail == 8 && !t.err && t.outq == List.replicate 16 0#8) = true := by decide

/-- V-DT-6, step 5: CT stays. -/
theorem test_dtClear : next (exec .dtClear abra)
    (fun t => t.dt == [] && !t.dtValid && t.dtMaxLen == 0 && t.ct == abraTable) = true := by decide

/-- V-DT-1, step 5: b = "10". -/
theorem test_dtLoad : next (exec (.dtLoad symB) (latch (.dtLoad symB) { State.reset with
      dt := [{ sym := symA, len := 1, val := 0#64 }], arg := 2#64, arg2 := 2#7 }))
    (fun t => t.dt == incomplete.dt && t.dtMaxLen == 0) = true := by decide
/-- V-DT-2, step 8: 2 is not a code of one bit. -/
theorem test_dtLoad_corrupt : next (exec (.dtLoad symA) (latch (.dtLoad symA) { State.reset with
      arg := 2#64, arg2 := 1#7 })) (fun t => t.errcode == 0x00004103#32 && t.dt == []) = true := by decide

/-- V-DT-3, fifth row: prefix-free but incomplete is accepted. -/
theorem test_dtCommit : next (exec .dtCommit { incomplete with dtValid := false, dtMaxLen := 0 })
    (fun t => t == incomplete) = true := by decide
/-- V-DT-3, fourth row: "1" is a prefix of "10", listed after it. -/
theorem test_dtCommit_overlap : next (exec .dtCommit { State.reset with
      dt := [{ sym := symA, len := 2, val := 2#64 }, { sym := symB, len := 1, val := 1#64 }] })
    (fun t => t.errcode == 0x00004203#32 && !t.dtValid && t.dt.length == 2) = true := by decide

/-- V-DT-6, step 4. -/
theorem test_dtFromCt : next (exec .dtFromCt { abra with dtValid := false, dt := [], dtMaxLen := 0 })
    (fun t => t == abra && t.status == 0x0000001C#32) = true := by decide
/-- V-DT-5. -/
theorem test_dtFromCt_no_table : next (exec .dtFromCt State.reset) (fun t => t.errcode == 0x00004311#32) = true := by
  decide

/-- V-DEC-1, step 7: 0x8A = 100|0|101|0. -/
theorem test_decByte : next (exec (.decByte 0x8A#8) abra)
    (fun t => t.symq == [symC, symA, symD, symA] && t.wlen == 0 && !t.err) = true := by decide
/-- V-DEC-2: UNDECODABLE at the sixth bit, and nothing pushed. -/
theorem test_decByte_undecodable : next (exec (.decByte 0x8C#8) incomplete)
    (fun t => t.errcode == 0x00004802#32 && t.symq == [] && t.wlen == 0) = true := by decide

/-- V-DEC-3, step 5. -/
theorem test_decLast : next (exec (.decLast 0xC0#8 2#4) abra)
    (fun t => t.status == 0x0002003C#32 && t.w == 3#64 && t.symq == []) = true := by decide
/-- V-DEC-5, step 6: the padding is not read. -/
theorem test_decLast_padding : next (exec (.decLast 0x7F#8 1#4) ab) (fun t => t.symq == [symA] && !t.err) = true := by
  decide

/-- V-DEC-3, step 6. -/
theorem test_decEnd_partial : next (exec .decEnd { abra with phase := .LAST, w := 3#64, wlen := 2 })
    (fun t => t.status == 0x0002003E#32 && t.errcode == 0x00004A02#32) = true := by decide
/-- V-DEC-1, step 11. -/
theorem test_decEnd : next (exec .decEnd { abra with phase := .LAST }) (fun t => t.status == 0x0000005C#32) = true := by
  decide

/-! ### The window, the latch, reset, the container -/

/-- V-MEM-1, rows 5 and 6: ARG2 keeps seven bits. -/
theorem test_window_arg2 : next (hostWrite 0x01C 4 0xFFFFFFFF#32 State.reset)
    (fun t => next (hostRead 0x01C 4 t) (fun u => u.resp == { value := 0x7F#32, error := false })) = true := by decide
/-- V-MEM-1, rows 16 and 17. -/
theorem test_window_bus_errors : next (hostRead 0x002 4 State.reset) (fun t => t.resp.error && t.busFault) = true ∧
    next (hostRead 0x000 2 State.reset) (fun t => t.resp == { value := 0#32, error := true }) = true := by decide
/-- V-MEM-1, rows 1 and 13. -/
theorem test_window_constants :
    next (hostRead 0x000 4 State.reset) (fun t => t.resp.value == 0x48434231#32) = true ∧
    next (hostRead 0x05C 4 State.reset) (fun t => t.resp.value == 8#32) = true ∧
    next (hostRead 0x068 4 State.reset) (fun t => t.resp.value == 16#32) = true := by decide
/-- V-CTL-1, step 2: the rejected word is not latched. -/
theorem test_busy_cmd : next (hostWrite 0x010 4 0x11000062#32 (latch (.ftInc symA) State.reset))
    (fun t => t.errcode == 0x00001116#32 && t.pend == (latch (.ftInc symA) State.reset).pend) = true := by decide
/-- V-CTL-1, steps 1 and 2, as lines ending in !. -/
theorem test_lines_without_wait :
    (let t := ((do commandNoWait (.ftInc symA); commandNoWait (.ftInc symB) : HostM Unit).run State.reset).2
     t.busy && t.ft == [] && t.errcode == 0x00001116#32 &&
       t.pend == some { word := 0x11000061#32, arg := 0#64, arg2 := 0#7 }) = true := by decide
/-- 30_encoding.md R111 and R114: a word dropped while ERR = 1 leaves BUSY = 0, and the first read of the line's WAIT ends
it. -/
theorem test_wait_after_a_dropped_word :
    (let t := ((command 3 (.ftInc symA)).run erred).2
     t.ft == erred.ft && !t.busy && t.err && t.draws == erred.draws && t.resp.value.getLsbD 0 == false) = true := by decide
/-- V-CTL-1, step 3: the latched command runs although ERR = 1. -/
theorem test_engine_runs_the_latch : next (step { latch (.ftInc symA) State.reset with
      err := true, ecode := .BUSY_CMD, eopc := 0x11#8 })
    (fun t => t.ft == [(symA, 1#64)] && t.errcode == 0x00001116#32 && !t.busy) = true := by decide
/-- V-CTL-6, steps 9 and 11: OUT_DATA reads 0 while BUSY = 1, and pops while BUSY = 0. -/
theorem test_out_data :
    next (hostRead 0x04C 4 (latch .nop { State.reset with outq := [0x6E#8] }))
      (fun t => t.resp.value == 0#32 && t.outq == [0x6E#8]) = true ∧
    next (hostRead 0x04C 4 { State.reset with outq := [0x6E#8] })
      (fun t => t.resp.value == 0x8000006E#32 && t.outq == []) = true := by decide
/-- V-RST-1, step 7. -/
theorem test_soft_reset : next (hostWrite 0x004 4 1#32 (latch (.ftInc 0x71#21) { abra with acc := 0xC0#8, nbits := 3 }))
    (fun t => t == State.reset) = true := by decide
/-- V-W-4 and V-W-33, through `withFetchWord`. -/
theorem test_fetch_word :
    next (step (State.reset.withFetchWord 32 0x02000000)) (fun t => t.errcode == 0x00000210#32) = true ∧
    next (step (State.reset.withFetchWord 32 0x49000040)) (fun t => t.errcode == 0x00004904#32) = true := by decide
/-- V-SRC-9, the row "ab", and V-CON-1: its parse. -/
theorem test_container : container (serializeTable ab.ct) [0x40#8] 2 =
      [0x10#8, 0#8, 0#8, 0#8, 0#8, 0#8, 0#8, 0#8, 2#8, 0#8, 0#8, 0#8, 0x61#8, 0#8, 0#8, 0#8, 1#8, 0#8, 0x62#8, 0#8,
        0#8, 0#8, 1#8, 0x80#8, 0x40#8, 2#8] ∧
    (parse 64 (container (serializeTable ab.ct) [0x40#8] 2)).toOption = some (ab.ct, [0x40#8], 2) := by decide
/-- V-CON-10: a padding bit that is 1. -/
theorem test_container_padding : (parse 64 [0x0A#8, 0#8, 0#8, 0#8, 0#8, 0#8, 0#8, 0#8, 1#8, 0#8, 0#8, 0#8, 0x61#8, 0#8,
    0#8, 0#8, 1#8, 0x40#8, 8#8]).toOption = none := by decide

/-! ### Witnesses: a state and operands that meet the hypotheses of each obligation, clause by clause. The name after
`witness_` is the obligation's. -/

/-- The middle of a message: the window holds "1", which begins the code of 'b'. -/
def midway : State := { incomplete with w := 1#64, wlen := 1 }

/-- An empty table, committed (V-DEC-6). -/
def emptyTable : State := { State.reset with dtValid := true }

/-- The tree of `tree1` with L_MAX = 1. -/
def tree1Short : State := { tree1 with cfg := { Config.Params.vectors with lMax := 1 } }

/-- The lone leaf of V-TREE-3, with the smallest L_MAX. -/
def loneLeaf : State := { State.reset with
  cfg := { Config.Params.vectors with lMax := 1 }
  ft := [(0x7A#21, 3#64)], treeValid := true, nodes := [.leaf 3#64 0x7A#21] }

theorem tree1_builderInv : tree1.BuilderInv :=
  ⟨by decide, by decide, fun _ => rfl, fun h => absurd h (by decide)⟩

theorem tree1Short_builderInv : tree1Short.BuilderInv :=
  ⟨by decide, by decide, fun _ => rfl, fun h => absurd h (by decide)⟩

theorem padding_of_zero : ∀ i, i + 0 < 8 → (0#8).getLsbD i = false := by
  intro i _
  exact BitVec.getLsbD_zero

theorem incomplete_decoderInv : incomplete.DecoderInv :=
  ⟨by decide, by decide, fun _ => ⟨by decide, by decide, by decide⟩, fun h => absurd h (by decide), by decide, .inl rfl,
    by decide, fun h => absurd h (by decide), by decide, fun _ h => absurd h List.not_mem_nil⟩

theorem midway_decoderInv : midway.DecoderInv :=
  ⟨by decide, by decide, fun _ => ⟨by decide, by decide, by decide⟩, fun h => absurd h (by decide), by decide,
    .inr (by decide), by decide, fun h => absurd h (by decide), by decide, fun _ h => absurd h List.not_mem_nil⟩

theorem emptyTable_decoderInv : emptyTable.DecoderInv :=
  ⟨by decide, by decide, fun _ => ⟨by decide, by decide, by decide⟩, fun h => absurd h (by decide), by decide, .inl rfl,
    by decide, fun h => absurd h (by decide), by decide, fun _ h => absurd h List.not_mem_nil⟩

theorem ab_decoderInv : ab.DecoderInv :=
  ⟨by decide, by decide, fun _ => ⟨by decide, by decide, by decide⟩, fun h => absurd h (by decide), by decide, .inl rfl,
    by decide, fun h => absurd h (by decide), by decide, fun _ h => absurd h List.not_mem_nil⟩

theorem reset_decoderInv : State.reset.DecoderInv :=
  ⟨by decide, by decide, fun h => absurd h (by decide), fun _ => by decide, by decide, .inl rfl,
    by decide, fun h => absurd h (by decide), by decide, fun _ h => absurd h List.not_mem_nil⟩

theorem ab_encoderInv : ab.EncoderInv := ⟨by decide, padding_of_zero, by decide, by decide⟩

/-- The invariant holds of a state with a tree, a code table and a decode table. -/
theorem ab_inv : ab.Inv :=
  ⟨by decide, ⟨by decide, by decide, fun _ => rfl, fun h => absurd h (by decide)⟩,
    ⟨fun _ => ⟨rfl, rfl, rfl⟩, fun h => absurd h (by decide)⟩, ab_encoderInv, ab_decoderInv,
    ⟨fun _ => ⟨rfl, rfl⟩, fun h => absurd h (by decide)⟩⟩

/-- The invariant holds of the lone leaf and its table, with L_MAX = 1. -/
theorem loneLeaf_inv : ({ loneLeaf with
    ctValid := true, ct := [{ sym := 0x7A#21, len := 1, val := 0#64 }], ctMaxLen := 1 } : State).Inv :=
  ⟨by decide, ⟨by decide, by decide, fun _ => rfl, fun h => absurd h (by decide)⟩,
    ⟨fun _ => ⟨rfl, rfl, rfl⟩, fun h => absurd h (by decide)⟩, ⟨by decide, padding_of_zero, by decide, by decide⟩,
    ⟨by decide, by decide, fun h => absurd h (by decide), fun _ => by decide, by decide, .inl rfl,
      by decide, fun h => absurd h (by decide), by decide, fun _ h => absurd h List.not_mem_nil⟩,
    ⟨fun _ => ⟨rfl, rfl⟩, fun h => absurd h (by decide)⟩⟩

/-- The formats' hypotheses (`HasFormatN` and its like), for every opcode: a legal word and an illegal one. -/
theorem witness_formats :
    (∀ o ∈ [0x00#8, 0x01#8, 0x10#8, 0x20#8, 0x22#8, 0x31#8, 0x40#8, 0x42#8, 0x43#8, 0x4A#8],
      opcField (o ++ 0#24) = o ∧ opndField (o ++ 0#24) = 0#24 ∧
      opcField (o ++ 1#24) = o ∧ opndField (o ++ 1#24) ≠ 0#24) ∧
    (∀ o ∈ [0x11#8, 0x12#8, 0x13#8, 0x30#8, 0x41#8],
      opcField (o ++ 0x1FFFFF#24) = o ∧ (o ++ 0x1FFFFF#24).extractLsb' 21 3 = 0#3 ∧
      opcField (o ++ 0x200000#24) = o ∧ (o ++ 0x200000#24).extractLsb' 21 3 ≠ 0#3) ∧
    (∀ o ∈ [0x21#8, 0x23#8], opcField (o ++ 0xFFFFFF#24) = o) ∧
    (opcField 0x480000FF#32 = 0x48#8 ∧ (0x480000FF#32).extractLsb' 8 16 = 0#16 ∧
      opcField 0x48000100#32 = 0x48#8 ∧ (0x48000100#32).extractLsb' 8 16 ≠ 0#16) ∧
    (opcField 0x49000FFF#32 = 0x49#8 ∧ (0x49000FFF#32).extractLsb' 12 12 = 0#12 ∧
      opcField 0x49001000#32 = 0x49#8 ∧ (0x49001000#32).extractLsb' 12 12 ≠ 0#12) := by decide

/-- `WordRuns` and `WordIllegal` ask for a latched word, and a command that has a next state. -/
theorem witness_latched_word : State.pend (latch .nop ab) = some { word := 0#32, arg := 0#64, arg2 := 0#7 } ∧
    ∃ t, exec .nop (latch .nop ab) = .next t := ⟨by decide, _, rfl⟩

theorem witness_EncodeOfDecodeIsTheWord : decode 0x49000340#32 = .ok (.decLast 0x40#8 3#4) := rfl

theorem witness_ReservedOpcodesAndBitsAreIllegal :
    opcField 0x02000000#32 ∉ [0x00#8, 0x01#8, 0x10#8, 0x11#8, 0x12#8, 0x13#8, 0x20#8, 0x21#8, 0x22#8, 0x23#8, 0x30#8,
      0x31#8, 0x40#8, 0x41#8, 0x42#8, 0x43#8, 0x48#8, 0x49#8, 0x4A#8] ∧
    (opcField 0x10000001#32 ∈ [0x00#8, 0x01#8, 0x10#8, 0x20#8, 0x22#8, 0x31#8, 0x40#8, 0x42#8, 0x43#8, 0x4A#8] ∧
      (0x10000001#32).extractLsb' 0 24 ≠ 0#24) ∧
    (opcField 0x11200061#32 ∈ [0x11#8, 0x12#8, 0x13#8, 0x30#8, 0x41#8] ∧
      (0x11200061#32).extractLsb' 21 3 ≠ 0#3) ∧
    (opcField 0x48000196#32 = 0x48#8 ∧ (0x48000196#32).extractLsb' 8 16 ≠ 0#16) ∧
    (opcField 0x49800040#32 = 0x49#8 ∧ (0x49800040#32).extractLsb' 12 12 ≠ 0#12) := by decide

theorem witness_CmdWriteSubmitsTheWord :
    (latch .nop State.reset).busy = true ∧
    (erred.busy = false ∧ erred.err = true ∧ (0x02000000#32).extractLsb' 24 8 ∉ [0x00#8, 0x01#8]) ∧
    (State.reset.busy = false ∧ State.reset.err = false) ∧
    (erred.busy = false ∧ (0x01000001#32).extractLsb' 24 8 ∈ [0x00#8, 0x01#8]) := by decide

theorem witness_EngineTurnRunsTheDecodedCommand :
    (∃ (s t : State) (p : Latched), s.pend = some p ∧ decode p.word = .ok .buildTree ∧ s.agenda = .engine :: [] ∧
      exec .buildTree { s with agenda := [] } = .next t) ∧
    (∃ (s t : State) (p : Latched), s.pend = some p ∧ decode p.word = .ok .buildTree ∧ s.agenda = [] ∧
      exec .buildTree s = .next t) ∧
    (∃ t, exec .buildTree { tree1 with pend := some { word := encode .buildTree, arg := tree1.arg, arg2 := tree1.arg2 } } =
      .next t) ∧
    (∃ s : State, s.agenda = .hostRead 0xFFC 4 :: [.engine]) ∧
    (∃ s : State, s.agenda = .hostWrite 0x010 4 0#32 :: [.engine]) :=
  ⟨⟨{ latch .buildTree tree1 with agenda := [.engine] }, _, _, rfl, rfl, rfl, rfl⟩,
    ⟨latch .buildTree tree1, _, _, rfl, rfl, rfl, rfl⟩, ⟨_, rfl⟩,
    ⟨{ ab with agenda := [.hostRead 0xFFC 4, .engine] }, rfl⟩,
    ⟨{ ab with agenda := [.hostWrite 0x010 4 0#32, .engine] }, rfl⟩⟩

theorem witness_EveryCommandTerminates : (latch .nop State.reset).busy = true := rfl

/-- All three outcomes of the conclusion occur. -/
theorem witness_FailedCommandChangesOnlyTheErrorState :
    (∃ t, exec .genTable State.reset = .next t) ∧ (∃ t, exec .errClr erred = .next t) ∧
    ∃ t, exec .genTable tree1 = .next t := ⟨⟨_, rfl⟩, ⟨_, rfl⟩, ⟨_, rfl⟩⟩

theorem witness_CommandsKeepArgumentsParametersAndResults :
    (∃ t, exec .genTable tree1 = .next t) ∧ (∀ c, Instr.genTable ≠ .ftRead c) ∧ (∀ n, Instr.genTable ≠ .nodeRead n) ∧
    ∀ n, Instr.genTable ≠ .ctRead n := ⟨⟨_, rfl⟩, nofun, nofun, nofun⟩

theorem witness_LatchedCommandIgnoresLaterArguments :
    (latch (.ftSet symA) ab).busy = true ∧ ∃ t, exec (.ftSet symA) (latch (.ftSet symA) ab) = .next t :=
  ⟨rfl, _, rfl⟩

theorem witness_FirstErrorIsKept : State.reset.err = false ∧ erred.err = true := ⟨rfl, rfl⟩

/-- The error is kept; and it is cleared by each of the three ways. -/
theorem witness_ErrorIsClearedOnlyByErrClrOrReset :
    (∃ t, step erred = .next t) ∧ (∃ t, step { erred with agenda := [.hardReset] } = .next t) ∧
    (∃ t, step { erred with agenda := [.hostWrite 4 4 1#32] } = .next t) ∧
    (∃ t, step (latch .errClr erred) = .next t) ∧ erred.err = true :=
  ⟨⟨_, rfl⟩, ⟨_, rfl⟩, ⟨_, rfl⟩, ⟨_, rfl⟩, rfl⟩

theorem witness_SequencePreconditions :
    scalar 0x10FFFF#21 = true ∧ tailLegal 1#4 = true ∧ tailLegal 8#4 = true ∧
    State.reset.treeValid = false ∧ State.reset.ctValid = false ∧ ab.dtValid = true ∧ State.reset.dtValid = false ∧
    ({ ab with phase := .LAST } : State).phase = .LAST := by decide

theorem witness_NonScalarSymbolIsBadSymbol : 0x10FFFF < (0x110000#21).toNat ∧
    (0xD800 ≤ (0xD800#21).toNat ∧ (0xD800#21).toNat ≤ 0xDFFF) ∧
    (0xD800 ≤ (0xDFFF#21).toNat ∧ (0xDFFF#21).toNat ≤ 0xDFFF) := by decide

theorem witness_FtIncCountsOneOccurrence :
    scalar 0x110000#21 = false ∧
    (scalar symD = true ∧ ftHas ({ tree1 with cfg := { Config.Params.vectors with nSym := 3 } } : State).ft symD = false ∧
      ({ tree1 with cfg := { Config.Params.vectors with nSym := 3 } } : State).ft.length = 3) ∧
    (ftHas [(symA, 0xFFFFFFFFFFFFFFFF#64)] symA = true ∧
      ftCount [(symA, 0xFFFFFFFFFFFFFFFF#64)] symA = 0xFFFFFFFFFFFFFFFF#64) ∧
    (scalar symA = true ∧ ftHas tree1.ft symA = true ∧ ftCount tree1.ft symA ≠ 0xFFFFFFFFFFFFFFFF#64) ∧
    (ftHas tree1.ft symD = false ∧ tree1.ft.length ≠ tree1.cfg.nSym ∧ ftWf tree1.ft = true) := by decide

theorem witness_FtSetSetsTheCount :
    scalar 0xD800#21 = false ∧
    (let s : State := { tree1 with arg := 1#64, cfg := { Config.Params.vectors with nSym := 3 } }
     scalar symD = true ∧ s.snapArg ≠ 0#64 ∧ ftHas s.ft symD = false ∧ s.ft.length = s.cfg.nSym) ∧
    (scalar symD = true ∧ tree1.snapArg = 0#64) ∧ ftHas tree1.ft symA = true ∧ tree1.ft.length ≠ tree1.cfg.nSym := by
  decide

theorem witness_FtReadReadsTheCount : scalar 0xDFFF#21 = false ∧ (scalar symD = true ∧ ftHas tree1.ft symD = false) ∧
    (scalar symC = true ∧ ftWf tree1.ft = true ∧ (symC, 2#64) ∈ tree1.ft) := by decide

/-- The largest total that fits (V-TREE-7), and a table with positions to look at. -/
theorem witness_BuildTreeMergesLeastKeys :
    ftWf [(symA, 0x7FFFFFFFFFFFFFFF#64), (symB, 0x8000000000000000#64)] = true ∧
    ftTotal [(symA, 0x7FFFFFFFFFFFFFFF#64), (symB, 0x8000000000000000#64)] = 2 ^ 64 - 1 ∧
    ftWf tree1.ft = true ∧ ftTotal tree1.ft < 2 ^ 64 ∧ tree1.ft[2]? = some (symC, 2#64) := by decide

/-- The least total that does not fit (V-TREE-6). -/
theorem witness_BuildTreeOverflowFailsWhole :
    ftWf [(symA, 0x8000000000000000#64), (symB, 0x8000000000000000#64)] = true ∧
    ftTotal [(symA, 0x8000000000000000#64), (symB, 0x8000000000000000#64)] = 2 ^ 64 := by decide

theorem witness_NodeReadReadsTheNode : State.reset.treeValid = false ∧
    (tree1.treeValid = true ∧ tree1.nodes.length ≤ (5#24).toNat) ∧
    tree1.nodes[(0#24).toNat]? = some (.leaf 1#64 symA) ∧
    tree1.nodes[(4#24).toNat]? = some (.internal 4#64 2 3) := by decide

/-- Every path of `tree1`. -/
theorem tree1_paths (bits : List Bool) (c : Sym) (h : CodePath tree1.nodes (tree1.nodes.length - 1) bits c) :
    bits.length ≤ 2 := by
  have below : ChildrenBelow tree1.nodes := (buildNodes_below (ft := tree1.ft) (by decide) rfl)
  have h := (codePath_iff below (fuel := 5) (by decide)).1 h
  have hp : ∀ p ∈ paths tree1.nodes 5 (tree1.nodes.length - 1), p.1.length ≤ 2 := by decide
  exact hp _ h

theorem witness_GenTableBindsLeavesToPaths :
    State.reset.treeValid = false ∧ (({ State.reset with treeValid := true } : State).nodes = []) ∧
    (loneLeaf.treeValid = true ∧ loneLeaf.nodes = [.leaf 3#64 0x7A#21] ∧ 1 ≤ loneLeaf.cfg.lMax) ∧
    (tree1Short.BuilderInv ∧ tree1Short.treeValid = true ∧ 2 ≤ tree1Short.nodes.length ∧
      ∃ bits c, CodePath tree1Short.nodes (tree1Short.nodes.length - 1) bits c ∧ tree1Short.cfg.lMax < bits.length) ∧
    (tree1.BuilderInv ∧ tree1.cfg.lMax ≤ 64 ∧ tree1.treeValid = true ∧ 2 ≤ tree1.nodes.length ∧
      ∀ bits c, CodePath tree1.nodes (tree1.nodes.length - 1) bits c → bits.length ≤ tree1.cfg.lMax) :=
  ⟨rfl, rfl, ⟨rfl, rfl, by decide⟩,
    ⟨tree1Short_builderInv, rfl, by decide, [true, false], symA,
      .right (i := 4) (f := 4#64) (l := 2) (r := 3) rfl
        (.left (i := 3) (f := 2#64) (l := 0) (r := 1) rfl (.leaf (f := 1#64) rfl)), by decide⟩,
    ⟨tree1_builderInv, by decide, rfl, by decide, fun bits c h => Nat.le_trans (tree1_paths bits c h) (by decide)⟩⟩

theorem witness_CodeTableAscendsLikeTheLeaves :
    ab.Inv ∧ ab.ctValid = true ∧ ab.ct[1]? = some { sym := symB, len := 1, val := 1#64 } := ⟨ab_inv, rfl, by decide⟩

theorem witness_CodeTableIsCompleteAndPrefixFree :
    (ab.Inv ∧ ab.ctValid = true ∧ 2 ≤ ab.ct.length) ∧
    (let s : State := { loneLeaf with
        ctValid := true, ct := [{ sym := 0x7A#21, len := 1, val := 0#64 }], ctMaxLen := 1 }
     s.Inv ∧ s.ctValid = true ∧ s.ct.length = 1) ∧
    (ab.treeValid = true ∧ ab.cfg.nSym - 1 ≤ ab.cfg.lMax) :=
  ⟨⟨ab_inv, rfl, by decide⟩, ⟨loneLeaf_inv, rfl, rfl⟩, rfl, by decide⟩

theorem witness_CtReadReadsTheEntry : State.reset.ctValid = false ∧
    (ab.ctValid = true ∧ ab.ct.length ≤ (2#24).toNat) ∧
    ab.ct[(1#24).toNat]? = some { sym := symB, len := 1, val := 1#64 } := by decide

/-- With a full OUTQ, NBITS = 7 is too much for a code of one bit and NBITS = 6 is not (V-ENC-6). -/
theorem witness_EncSymbolAppendsTheCode :
    scalar 0xD800#21 = false ∧ (scalar symA = true ∧ State.reset.ctValid = false) ∧
    (ab.ctValid = true ∧ ∀ e ∈ ab.ct, e.sym ≠ symC) ∧
    (let s : State := { ab with nbits := 7, outq := List.replicate 16 0#8 }
     findSym s.ct symA = some { sym := symA, len := 1, val := 0#64 } ∧
      s.cfg.outDepth < s.outq.length + (s.nbits + 1) / 8) ∧
    (let s : State := { ab with nbits := 6, outq := List.replicate 16 0#8 }
     scalar symA = true ∧ s.ctValid = true ∧ findSym s.ct symA = some { sym := symA, len := 1, val := 0#64 } ∧
      s.nbits < 8 ∧ s.outq.length + (s.nbits + 1) / 8 ≤ s.cfg.outDepth) := by decide

theorem witness_EncFlushEndsTheMessage :
    (let s : State := { ab with nbits := 1, outq := List.replicate 16 0#8 }
     0 < s.nbits ∧ s.outq.length = s.cfg.outDepth) ∧
    (let s : State := { ab with nbits := 1, outq := List.replicate 15 0#8 }
     0 < s.nbits ∧ s.outq.length ≠ s.cfg.outDepth) ∧
    ab.nbits = 0 ∧ ab.EncoderInv := ⟨by decide, by decide, rfl, ab_encoderInv⟩

theorem witness_EncodedMessageIsThePackedCodes : ab.EncoderInv ∧ ab.nbits = 0 ∧ ab.pend = none ∧ ab.err = false ∧
    ∃ t, issueAll ([symB, symA].map Instr.encSymbol ++ [.encFlush]) ab = .next t ∧ t.err = false :=
  ⟨ab_encoderInv, rfl, rfl, rfl, _, rfl, rfl⟩

/-- The snapshot of ARG2 at both ends of its range, and each way a code can be illegal. -/
theorem witness_DtLoadAppendsTheEntry :
    scalar 0xDFFF#21 = false ∧ (scalar symA = true ∧ ab.dtValid = true) ∧
    (let s : State := { State.reset with
        cfg := { Config.Params.vectors with nSym := 2 }, dt := incomplete.dt }
     s.dtValid = false ∧ s.dt.length = s.cfg.nSym) ∧
    (State.reset.dtValid = false ∧ State.reset.dt.length ≠ State.reset.cfg.nSym ∧ State.reset.snapArg2.toNat < 1) ∧
    (let s : State := { State.reset with arg2 := 65#7 }
     s.cfg.lMax < s.snapArg2.toNat) ∧
    (let s : State := { State.reset with arg := 2#64, arg2 := 1#7 }
     2 ^ s.snapArg2.toNat ≤ s.snapArg.toNat) ∧
    (let s : State := { State.reset with arg := 0xFFFFFFFFFFFFFFFF#64, arg2 := 64#7 }
     s.dtValid = false ∧ s.dt.length ≠ s.cfg.nSym ∧ 1 ≤ s.snapArg2.toNat ∧ s.snapArg2.toNat ≤ s.cfg.lMax ∧
      s.snapArg.toNat < 2 ^ s.snapArg2.toNat) := by decide

theorem witness_DtCommitValidatesTheTable :
    ab.dtValid = true ∧
    (let dt := [({ sym := symA, len := 1, val := 0#64 } : Entry), { sym := symA, len := 2, val := 2#64 }]
     ({ State.reset with dt := dt } : State).dtValid = false ∧
      dt[0]? = some { sym := symA, len := 1, val := 0#64 } ∧ dt[1]? = some { sym := symA, len := 2, val := 2#64 }) ∧
    (1 ≤ 2 ∧ (2#64) >>> (2 - 1) = 1#64) := by decide

/-- The codes of an accepted table, two by two. -/
theorem incomplete_codes : ∀ j k : Fin incomplete.dt.length, j ≠ k →
    (incomplete.dt[j]).sym ≠ (incomplete.dt[k]).sym ∧
      ¬ ((incomplete.dt[j]).len ≤ (incomplete.dt[k]).len ∧
        (incomplete.dt[k]).val >>> ((incomplete.dt[k]).len - (incomplete.dt[j]).len) = (incomplete.dt[j]).val) := by
  decide

/-- The accepted table meets the hypothesis. -/
theorem witness_DtCommitValidatesTheTable_accepts (j k : Nat) (a b : Entry) (ha : incomplete.dt[j]? = some a)
    (hb : incomplete.dt[k]? = some b) (hjk : j ≠ k) :
    a.sym ≠ b.sym ∧ ¬ (a.len ≤ b.len ∧ b.val >>> (b.len - a.len) = a.val) := by
  obtain ⟨hj, rfl⟩ := List.getElem?_eq_some_iff.1 ha
  obtain ⟨hk, rfl⟩ := List.getElem?_eq_some_iff.1 hb
  exact incomplete_codes ⟨j, hj⟩ ⟨k, hk⟩ fun h => hjk (Fin.mk.inj h)

theorem witness_DtFromCtCopiesTheTable : State.reset.ctValid = false ∧ ab.ctValid = true := ⟨rfl, rfl⟩

/-- Codes of 1 and of 64 bits. -/
theorem witness_PrefixTestIsThePrefixRelation :
    let a : Entry := { sym := symA, len := 1, val := 1#64 }
    let b : Entry := { sym := symB, len := 64, val := 0xFFFFFFFFFFFFFFFF#64 }
    a.len ≤ 64 ∧ b.len ≤ 64 ∧ a.val.toNat < 2 ^ a.len ∧ b.val.toNat < 2 ^ b.len ∧ a.isPrefixOf b = true ∧
      a.len = a.len := by decide

/-- Reading the byte 0x01 after the window "1": 10|0|0|0|0|0|0| and "1" is left. -/
theorem midway_reads : midway.windowBits ++ byteBits 0x01#8 8 =
    bitsOf ([{ sym := symB, len := 2, val := 2#64 }] ++ List.replicate 6 { sym := symA, len := 1, val := 0#64 }) ++
      [true] := by decide

/-- Nothing can be read with an empty table. -/
theorem emptyTable_reads_nothing (bits : List Bool) (hb : bits ≠ []) :
    ¬ ∃ (es : List Entry) (rest : List Bool), (∀ e ∈ es, e ∈ emptyTable.dt) ∧ emptyTable.windowBits ++ bits =
      bitsOf es ++ rest ∧ (∀ e ∈ emptyTable.dt, ¬ e.bits <+: rest) ∧ (rest = [] ∨ rest.length < emptyTable.dtMaxLen) := by
  rintro ⟨es, rest, hes, h, -, hr⟩
  have he : es = [] := List.eq_nil_iff_forall_not_mem.2 fun e hm => absurd (hes e hm) List.not_mem_nil
  have hr : rest = [] := hr.resolve_right (Nat.not_lt_zero _)
  rw [he, hr] at h
  exact hb h

theorem witness_DecByteDecodesEightBits :
    (State.reset.cfg.wf = true ∧ State.reset.DecoderInv ∧ State.reset.dtValid = false) ∧
    (let es := [({ sym := symB, len := 2, val := 2#64 } : Entry)] ++
        List.replicate 6 { sym := symA, len := 1, val := 0#64 }
     midway.cfg.wf = true ∧ midway.DecoderInv ∧ midway.dtValid = true ∧ midway.phase = .OPEN ∧
      (∀ e ∈ es, e ∈ midway.dt) ∧ midway.windowBits ++ byteBits 0x01#8 8 = bitsOf es ++ [true] ∧
      (∀ e ∈ midway.dt, ¬ e.bits <+: [true]) ∧ ([true].length < midway.dtMaxLen) ∧
      ({ midway with symq := List.replicate 9 symA } : State).symq.length + es.length = midway.cfg.symDepth ∧
      midway.cfg.symDepth < ({ midway with symq := List.replicate 10 symA } : State).symq.length + es.length) ∧
    (emptyTable.cfg.wf = true ∧ emptyTable.DecoderInv ∧ emptyTable.dtValid = true ∧ emptyTable.phase = .OPEN ∧
      ¬ ∃ (es : List Entry) (rest : List Bool), (∀ e ∈ es, e ∈ emptyTable.dt) ∧
        emptyTable.windowBits ++ byteBits 0#8 8 = bitsOf es ++ rest ∧ (∀ e ∈ emptyTable.dt, ¬ e.bits <+: rest) ∧
        (rest = [] ∨ rest.length < emptyTable.dtMaxLen)) :=
  ⟨⟨by decide, reset_decoderInv, rfl⟩,
    ⟨by decide, midway_decoderInv, rfl, rfl, by decide, midway_reads, by decide, by decide, by decide, by decide⟩,
    ⟨by decide, emptyTable_decoderInv, rfl, rfl, emptyTable_reads_nothing _ (by decide)⟩⟩

/-- Tail counts 0 and 9 are refused, 1 and 8 are not. -/
theorem witness_DecLastDecodesTheTailBits :
    (0#4).toNat < 1 ∧ 8 < (9#4).toNat ∧ (1 ≤ (1#4).toNat ∧ (8#4).toNat ≤ 8) ∧
    (State.reset.cfg.wf = true ∧ State.reset.DecoderInv ∧ State.reset.dtValid = false) ∧
    (let es := [({ sym := symB, len := 2, val := 2#64 } : Entry)]
     midway.cfg.wf = true ∧ midway.DecoderInv ∧ midway.dtValid = true ∧ midway.phase = .OPEN ∧
      (∀ e ∈ es, e ∈ midway.dt) ∧ midway.windowBits ++ byteBits 0x7F#8 (1#4).toNat = bitsOf es ++ [] ∧
      (∀ e ∈ midway.dt, ¬ e.bits <+: []) ∧ midway.symq.length + es.length ≤ midway.cfg.symDepth ∧
      midway.cfg.symDepth < ({ midway with symq := List.replicate 16 symA } : State).symq.length + es.length) ∧
    (emptyTable.cfg.wf = true ∧ emptyTable.DecoderInv ∧ emptyTable.dtValid = true ∧ emptyTable.phase = .OPEN ∧
      ¬ ∃ (es : List Entry) (rest : List Bool), (∀ e ∈ es, e ∈ emptyTable.dt) ∧
        emptyTable.windowBits ++ byteBits 0#8 (1#4).toNat = bitsOf es ++ rest ∧
        (∀ e ∈ emptyTable.dt, ¬ e.bits <+: rest) ∧ (rest = [] ∨ rest.length < emptyTable.dtMaxLen)) :=
  ⟨by decide, by decide, by decide, ⟨by decide, reset_decoderInv, rfl⟩,
    ⟨by decide, midway_decoderInv, rfl, rfl, by decide, by decide, by decide, by decide, by decide⟩,
    ⟨by decide, emptyTable_decoderInv, rfl, rfl, emptyTable_reads_nothing _ (by decide)⟩⟩

theorem witness_DecEndChecksTheWindow : State.reset.dtValid = false ∧ (midway.dtValid = true ∧ midway.wlen ≠ 0) ∧
    (ab.dtValid = true ∧ ab.wlen = 0) := by decide

/-- V-SRC-5, which just fits a SYMQ of 16; and an empty table that can read nothing. -/
theorem witness_DecodedMessageIsTheParse :
    (ab.cfg.wf = true ∧ ab.DecoderInv ∧ ab.dtValid = true ∧ ab.phase = .OPEN ∧ ab.wlen = 0 ∧ ab.pend = none ∧
      ab.err = false ∧ ab.symq.length + 8 * [0x96#8, 0x40#8].length = ab.cfg.symDepth ∧
      let a : Entry := { sym := symA, len := 1, val := 0#64 }
      let b : Entry := { sym := symB, len := 1, val := 1#64 }
      (∀ e ∈ [b, a, a, b, a, b, b, a, a, b, a], e ∈ ab.dt) ∧
      unpackBits 3 [0x96#8, 0x40#8] = bitsOf [b, a, a, b, a, b, b, a, a, b, a]) ∧
    (emptyTable.cfg.wf = true ∧ emptyTable.DecoderInv ∧ emptyTable.dtValid = true ∧ emptyTable.phase = .OPEN ∧
      emptyTable.wlen = 0 ∧ emptyTable.pend = none ∧ emptyTable.err = false ∧
      ¬ ∃ es : List Entry, (∀ e ∈ es, e ∈ emptyTable.dt) ∧ unpackBits 1 [0#8] = bitsOf es) :=
  ⟨⟨by decide, ab_decoderInv, rfl, rfl, rfl, rfl, rfl, by decide, by decide, by decide⟩,
    ⟨by decide, emptyTable_decoderInv, rfl, rfl, rfl, rfl, rfl, fun ⟨es, h1, h2⟩ =>
      emptyTable_reads_nothing [false] (by decide)
        ⟨es, [], h1, by rw [List.append_nil]; exact h2, by decide, .inl rfl⟩⟩⟩

theorem witness_BusErrorIsRecordedAndHarmless : (4095 < 4096 ∧ 4095 % 4 ≠ 0) ∧ (0 < 4096 ∧ (2 : Nat) ≠ 4) ∧
    ∃ t, step { State.reset with busFault := true } = .next t ∧ t.busFault = true :=
  ⟨by decide, by decide, _, rfl, rfl⟩

theorem witness_IdleReadHasNoSideEffect : ab.busy = false ∧ Reg.SYM_LEVEL ≠ .OUT_DATA ∧ Reg.SYM_LEVEL ≠ .SYM_DATA := by
  decide

theorem witness_RegistersShowTheState : ab.Inv := ab_inv

theorem witness_StatusShowsTheFlags : ab.busy = false ∧ (latch .nop ab).busy = true ∧
    ({ ab with nbits := 7, wlen := 64 } : State).nbits < 8 ∧ ({ ab with nbits := 7, wlen := 64 } : State).wlen ≤ 64 := by
  decide

theorem witness_ErrcodeShowsCodeAndOpcode : ab.ErrorInv ∧ ab.err = false := ⟨ab_inv.error, rfl⟩

theorem witness_OutDataPopsOneByte :
    (let s : State := { ab with outq := [0xFF#8] }
     s.busy = false ∧ s.outq = 0xFF#8 :: []) ∧ ab.outq = [] ∧
    (latch .nop { ab with outq := [0xFF#8] }).busy = true := by decide

theorem witness_SymDataPopsOneSymbol :
    (let s : State := { ab with symq := [0x10FFFF#21] }
     s.busy = false ∧ s.symq = 0x10FFFF#21 :: []) ∧ ab.symq = [] ∧
    (latch .nop { ab with symq := [0x10FFFF#21] }).busy = true := by decide

theorem witness_BusyReadsAreFreeDraws : (latch .nop ab).busy = true ∧
    Reg.ARG2 ∈ [Reg.ID, .CTRL, .CMD, .ARG_LO, .ARG_HI, .ARG2, .CAP_NSYM, .CAP_LMAX, .CAP_OUTD, .CAP_SYMD] ∧
    Reg.OUT_DATA ∈ [Reg.OUT_DATA, .SYM_DATA] ∧
    Reg.STATUS ∉ [Reg.ID, .CTRL, .CMD, .ARG_LO, .ARG_HI, .ARG2, .CAP_NSYM, .CAP_LMAX, .CAP_OUTD, .CAP_SYMD, .OUT_DATA,
      .SYM_DATA] := by decide

theorem witness_UnmappedOffsetsReadZero : (0x06C ≤ 0x06C ∧ 0x06C % 4 = 0) ∧ (0xFFC ≤ 0xFFC ∧ 0xFFC % 4 = 0) := by decide

theorem witness_WritesReachOnlyTheArguments : Reg.STATUS ∉ [Reg.CTRL, .CMD, .ARG_LO, .ARG_HI, .ARG2] := by decide

theorem witness_HardResetLeavesTheResetState :
    ({ ab with agenda := [.hardReset, .engine] } : State).agenda = .hardReset :: [.engine] := rfl

theorem witness_CtrlWriteIsSoftReset : (0xFFFFFFFF#32).getLsbD 0 = true ∧ (0xFFFFFFFE#32).getLsbD 0 = false := by decide

theorem witness_RegistersReadTheirResetValues :
    Reg.STATUS ∉ [Reg.ID, .CAP_NSYM, .CAP_LMAX, .CAP_OUTD, .CAP_SYMD] := by decide

/-- The least and the greatest parameters. -/
theorem witness_ResetStateMeetsTheInvariant :
    ({ nSym := 2, lMax := 1, outDepth := 9, symDepth := 8, base := 0 } : Config.Params).wf = true ∧
    ({ nSym := 2 ^ 21, lMax := 64, outDepth := 65535, symDepth := 65535, base := 4096 } : Config.Params).wf = true := by
  decide

theorem witness_EveryStepKeepsTheInvariant : ab.Inv ∧ ∃ t, step ab = .next t := ⟨ab_inv, _, rfl⟩

theorem witness_EveryStepKeepsTheParameters : ∃ t, step (latch .dtFromCt ab) = .next t := ⟨_, rfl⟩

/-- A command line issued with no command latched, and one while BUSY = 1. -/
theorem witness_PollingDoesNotChangeTheCommand :
    (∃ t, hostWrite (ab.cfg.base + 0x010) 4 (encode .dtFromCt) ab = .next t) ∧
    (∃ t, hostWrite (ab.cfg.base + 0x010) 4 (encode .dtFromCt) (latch .nop ab) = .next t) := ⟨⟨_, rfl⟩, ⟨_, rfl⟩⟩

/-- Codes of 1 bit and of 64, and the last tail count; and the empty payload. -/
theorem witness_ParseOfContainerGivesItBack :
    (let es : List Entry := [{ sym := symA, len := 1, val := 0#64 },
        { sym := symB, len := 64, val := 0xFFFFFFFFFFFFFFFF#64 }]
     64 ≤ 64 ∧ es.Pairwise (fun a b => a.sym.toNat < b.sym.toNat) ∧
      (∀ e ∈ es, scalar e.sym = true ∧ codeLegal 64 e.len e.val = true) ∧ 1 ≤ 8 ∧ 8 ≤ 8 ∧
      ([0x40#8] = ([] : List Byte) → 8 = 8)) ∧
    (([] : List Byte) = [] → 8 = 8) := by decide

/-- V-SRC-9, the row "ab". -/
theorem witness_DecodeOfEncodedTextIsTheText :
    Config.Params.vectors.wf = true ∧ (∀ c ∈ [symA, symB], scalar c = true) ∧
    [symA, symB].dedup.length ≤ Config.Params.vectors.nSym ∧ [symA, symB].length < 2 ^ 64 ∧
    ∀ nodes, buildNodes (ftOfText [symA, symB]) = .ok nodes →
      ∃ ct, codeTable Config.Params.vectors.lMax nodes = .ok ct := by
  refine ⟨by decide, List.forall_mem_cons.2 ⟨by decide, List.forall_mem_cons.2 ⟨by decide, nofun⟩⟩, by decide, by decide,
    fun nodes h => ⟨ab.ct, ?_⟩⟩
  have h' : buildNodes (ftOfText [symA, symB]) = .ok ab.nodes := rfl
  rw [h', Except.ok.injEq] at h
  rw [← h]
  rfl

end Sys2Proof.Tests
end

/-! The statements of 10_state.md: the invariant, the frame of the commands, how an error is cleared, and the register
window. -/

namespace Sys2Proof.Machine

/-! ### What the bounds and the legality tests say -/

theorem paramsWf_iff {p : Config.Params} : p.wf = true ↔
    2 ≤ p.nSym ∧ p.nSym ≤ 2 ^ 21 ∧ 1 ≤ p.lMax ∧ p.lMax ≤ 64 ∧ 9 ≤ p.outDepth ∧ p.outDepth ≤ 65535 ∧
      8 ≤ p.symDepth ∧ p.symDepth ≤ 65535 ∧ p.base % 4096 = 0 := by
  simp only [Config.Params.wf, Bool.and_eq_true, decide_eq_true_eq, beq_iff_eq, and_assoc]

theorem codeLegal_iff {lMax len : Nat} {val : CodeVal} : codeLegal lMax len val = true ↔
    1 ≤ len ∧ len ≤ lMax ∧ val.toNat < 2 ^ len := by
  simp only [codeLegal, Bool.and_eq_true, decide_eq_true_eq, and_assoc]

/-- A code has a bit, so the empty window completes none. -/
theorem Entry.not_bits_prefix_nil {e : Entry} {lMax : Nat} (h : codeLegal lMax e.len e.val = true) :
    ¬ e.bits <+: [] := by
  intro hp
  have hlen := hp.length_le
  have hpos := (codeLegal_iff.1 h).1
  simp only [Entry.length_bits, List.length_nil] at hlen
  omega

/-! ### The invariant under what every turn shares

`{ h.decoder with }` proves a group of the invariant for a state that has the fields of that group unchanged. -/

/-- No group of the invariant speaks of the interface registers, the latch and the model's own fields. -/
theorem State.Inv.interface {s : State} (h : s.Inv) (arg : BitVec 64) (arg2 : BitVec 7) (res : BitVec 64)
    (resAux resAux2 : Word) (pend : Option Latched) (agenda : List Move) (resp : BusResp) (busFault : Bool)
    (draws : Nat) :
    State.Inv { s with arg, arg2, res, resAux, resAux2, pend, agenda, resp, busFault, draws } :=
  ⟨h.params, { h.builder with }, { h.generator with }, { h.encoder with }, { h.decoder with }, { h.error with }⟩

/-- Recording an error other than NONE keeps the invariant (60_exceptions.md R225). -/
theorem State.Inv.recordError {s : State} (h : s.Inv) {e : ErrCode} (he : e ≠ .NONE) (opc : BitVec 8) :
    (s.recordError e opc).Inv := by
  cases herr : s.err with
  | true => rwa [State.recordError_of_err herr]
  | false =>
    rw [State.recordError_of_quiet herr]
    exact ⟨h.params, { h.builder with }, { h.generator with }, { h.encoder with }, { h.decoder with },
      ⟨nofun, fun _ => he⟩⟩

/-- The encoder with no bit held in ACC. -/
theorem State.encoderInv_of_empty {s : State} (hacc : s.acc = 0#8) (hnbits : s.nbits = 0) (htail : s.tail ≤ 8)
    (hroom : s.outq.length ≤ s.cfg.outDepth) : s.EncoderInv where
  nbitsRange := by omega
  accPadding i _ := by rw [hacc]; exact BitVec.getLsbD_zero
  tailRange := htail
  outqRoom := hroom

/-- The reset values meet the invariant (10_state.md R60). -/
theorem State.inv_hardReset {s : State} (h : s.cfg.wf = true) : s.hardReset.Inv where
  params := h
  builder := ⟨ftWf_nil, Nat.zero_le _, nofun, fun _ => rfl⟩
  generator := ⟨nofun, fun _ => ⟨rfl, rfl⟩⟩
  encoder := State.encoderInv_of_empty rfl rfl (Nat.zero_le _) (Nat.zero_le _)
  decoder := ⟨Nat.zero_le _, nofun, nofun, fun _ => ⟨rfl, rfl, rfl, rfl⟩, Nat.zero_lt_succ _, .inl rfl, nofun, nofun,
    Nat.zero_le _, nofun⟩
  error := ⟨fun _ => ⟨rfl, rfl⟩, nofun⟩

theorem State.Inv.popByte {s : State} (h : s.Inv) : State.Inv { s with outq := s.outq.tail } :=
  ⟨h.params, { h.builder with }, { h.generator with },
    { h.encoder with outqRoom := (List.tail_sublist _).length_le.trans h.encoder.outqRoom },
    { h.decoder with }, { h.error with }⟩

theorem State.Inv.popSymbol {s : State} (h : s.Inv) : State.Inv { s with symq := s.symq.tail } :=
  ⟨h.params, { h.builder with }, { h.generator with }, { h.encoder with },
    { h.decoder with
      symqRoom := (List.tail_sublist _).length_le.trans h.decoder.symqRoom
      symqScalar := fun c hc => h.decoder.symqScalar c (List.mem_of_mem_tail hc) },
    { h.error with }⟩

/-! ### The builder's and the generator's commands -/

/-- A new FT in canonical form and within its capacity, with the tree given up (40_tree_builder.md R126). -/
theorem State.Inv.setFt {s : State} (h : s.Inv) {ft : List (Sym × Count)} (hw : ftWf ft = true)
    (hroom : ft.length ≤ s.cfg.nSym) : (State.invalidateTree { s with ft := ft }).Inv :=
  ⟨h.params, ⟨hw, hroom, nofun, fun _ => rfl⟩, ⟨nofun, fun _ => ⟨rfl, rfl⟩⟩, { h.encoder with }, { h.decoder with },
    { h.error with }⟩

/-- A count set for a symbol that is in FT or for which FT has room. -/
theorem State.Inv.putFt {s : State} (h : s.Inv) {c : Sym} {n : Count} (hs : scalar c = true) (hn : n ≠ 0#64)
    (hroom : ftHas s.ft c = true ∨ s.ft.length ≠ s.cfg.nSym) :
    (State.invalidateTree { s with ft := ftPut s.ft c n }).Inv := by
  have hle := h.builder.ftRoom
  refine h.setFt (ftWf_ftPut h.builder.ftForm hs hn) ?_
  rw [length_ftPut _ (ftWf_iff.1 h.builder.ftForm).1]
  cases hhas : ftHas s.ft c with
  | true => simpa using hle
  | false =>
    have hne : s.ft.length ≠ s.cfg.nSym := by simpa [hhas] using hroom
    simp only [Bool.false_eq_true, if_false]
    omega

theorem ftCount_succ_ne_zero {ft : List (Sym × Count)} {c : Sym}
    (h : ftHas ft c = true → ftCount ft c ≠ 0xFFFFFFFFFFFFFFFF#64) : ftCount ft c + 1#64 ≠ 0#64 := by
  cases hhas : ftHas ft c with
  | true =>
    have hne := h hhas
    bv_omega
  | false => rw [ftCount_of_not_has hhas]; decide

theorem State.Inv.buildTree {s : State} (h : s.Inv) {nodes : List Node} (hn : buildNodes s.ft = .ok nodes) :
    State.Inv { s with treeValid := true, nodes := nodes, ctValid := false, ct := [], ctMaxLen := 0 } :=
  ⟨h.params, ⟨h.builder.ftForm, h.builder.ftRoom, fun _ => hn, nofun⟩, ⟨nofun, fun _ => ⟨rfl, rfl⟩⟩,
    { h.encoder with }, { h.decoder with }, { h.error with }⟩

theorem State.Inv.genTable {s : State} (h : s.Inv) (ht : s.treeValid = true) {ct : List Entry}
    (hc : codeTable s.cfg.lMax s.nodes = .ok ct) :
    State.Inv { s with ctValid := true, ct := ct, ctMaxLen := maxLen ct } :=
  ⟨h.params, { h.builder with }, ⟨fun _ => ⟨ht, hc, rfl⟩, nofun⟩, { h.encoder with }, { h.decoder with },
    { h.error with }⟩

/-- While CT_VALID = 1, CT is the table of a tree of FT. -/
theorem State.Inv.tableOf {s : State} (h : s.Inv) (hv : s.ctValid = true) :
    TableOf s.ft s.nodes s.cfg.lMax s.ct := by
  obtain ⟨ht, hc, _⟩ := h.generator.table hv
  obtain ⟨-, -, -, hl, -⟩ := paramsWf_iff.1 h.params
  exact codeTable_spec h.builder.ftForm (h.builder.tree ht) hl hc

theorem State.Inv.ct_length_le {s : State} (h : s.Inv) : s.ct.length ≤ s.ft.length := by
  cases hv : s.ctValid with
  | true => simpa using (congrArg List.length (h.tableOf hv).syms).le
  | false => rw [(h.generator.noTable hv).1]; exact Nat.zero_le _

/-! ### The encoder's commands -/

/-- Bits go to ACC and OUTQ when OUTQ has room for the bytes they fill (42_encoder.md R160, R161). -/
theorem State.EncoderInv.pushAll {s : State} (h : s.EncoderInv) (bits : List Bool)
    (hroom : s.outq.length + (s.nbits + bits.length) / 8 ≤ s.cfg.outDepth) {z : Serializer}
    (hz : z = Serializer.pushAll { acc := s.acc, nbits := s.nbits, out := [] } bits) :
    State.EncoderInv { s with acc := z.acc, nbits := z.nbits, outq := s.outq ++ z.out } := by
  obtain ⟨-, hnbits, hout, hpad⟩ :=
    Serializer.pushAll_spec { acc := s.acc, nbits := s.nbits, out := [] } h.nbitsRange bits
  rw [← hz] at hnbits hout hpad
  refine ⟨?_, hpad h.accPadding, h.tailRange, ?_⟩
  · show z.nbits < 8
    omega
  · show (s.outq ++ z.out).length ≤ s.cfg.outDepth
    rw [List.length_append, hout, List.length_nil, Nat.zero_add]
    exact hroom

/-- ENC_FLUSH with bits held in ACC (42_encoder.md R162). -/
theorem State.EncoderInv.flush {s : State} (h : s.EncoderInv) (hroom : s.outq.length ≠ s.cfg.outDepth) :
    State.EncoderInv { s with outq := s.outq ++ [s.acc], tail := s.nbits, acc := 0#8, nbits := 0 } := by
  refine State.encoderInv_of_empty rfl rfl h.nbitsRange.le ?_
  show (s.outq ++ [s.acc]).length ≤ s.cfg.outDepth
  have hle := h.outqRoom
  rw [List.length_append, List.length_singleton]
  omega

/-! ### The decoder's commands -/

/-- A decode table that may be committed, with the stream at the start of a message (44_decoder.md R185). -/
theorem State.decoderInv_decReset {s : State} (hroom : s.dt.length ≤ s.cfg.nSym)
    (hentries : ∀ e ∈ s.dt, scalar e.sym = true ∧ codeLegal s.cfg.lMax e.len e.val = true)
    (hcommitted : s.dtValid = true →
      hasDuplicateSym s.dt = false ∧ hasPrefixPair s.dt = false ∧ s.dtMaxLen = maxLen s.dt)
    (hloading : s.dtValid = false → s.dtMaxLen = 0) : s.decReset.DecoderInv where
  dtRoom := hroom
  dtEntries := hentries
  committed := hcommitted
  loading hv := ⟨hloading hv, rfl, rfl, rfl⟩
  windowBits := Nat.zero_lt_succ _
  windowShort := .inl rfl
  windowOpen e he := Entry.not_bits_prefix_nil (hentries e he).2
  doneClean := nofun
  symqRoom := Nat.zero_le _
  symqScalar := nofun

theorem State.DecoderInv.decReset {s : State} (h : s.DecoderInv) : s.decReset.DecoderInv :=
  State.decoderInv_decReset h.dtRoom h.dtEntries h.committed fun hv => (h.loading hv).1

/-- Before the commit the window is empty, so a legal entry can be added (44_decoder.md R181). -/
theorem State.DecoderInv.load {s : State} (h : s.DecoderInv) (hv : s.dtValid = false)
    (hroom : s.dt.length ≠ s.cfg.nSym) {e : Entry} (hs : scalar e.sym = true)
    (hl : codeLegal s.cfg.lMax e.len e.val = true) : State.DecoderInv { s with dt := s.dt ++ [e] } := by
  have hle := h.dtRoom
  obtain ⟨-, hwlen, -, -⟩ := h.loading hv
  refine { h with dtRoom := ?_, dtEntries := ?_, committed := ?_, windowOpen := ?_ }
  · show (s.dt ++ [e]).length ≤ s.cfg.nSym
    rw [List.length_append, List.length_singleton]
    omega
  · exact List.forall_mem_append.2 ⟨h.dtEntries, List.forall_mem_singleton.2 ⟨hs, hl⟩⟩
  · exact fun hc => absurd (hv.symm.trans hc) nofun
  · refine List.forall_mem_append.2 ⟨h.windowOpen, List.forall_mem_singleton.2 ?_⟩
    show ¬ e.bits <+: codeBits s.wlen s.w
    rw [hwlen]
    exact Entry.not_bits_prefix_nil hl

/-- The table of the generator is one that DT_COMMIT accepts (44_decoder.md R183). -/
theorem State.Inv.fromCt {s : State} (h : s.Inv) (hv : s.ctValid = true) :
    (State.decReset { s with dt := s.ct, dtValid := true, dtMaxLen := s.ctMaxLen }).DecoderInv := by
  have htab := h.tableOf hv
  refine State.decoderInv_decReset ?_ (fun e he => ⟨?_, htab.legal e he⟩) (fun _ => ⟨?_, ?_, ?_⟩) nofun
  · exact h.ct_length_le.trans h.builder.ftRoom
  · obtain ⟨p, hp, hsym⟩ := List.mem_map.1 (htab.syms ▸ List.mem_map_of_mem (f := Entry.sym) he)
    exact hsym ▸ ((ftWf_iff.1 h.builder.ftForm).2 p hp).1
  · refine hasDuplicateSym_false.2 ((htab.sorted h.builder.ftForm).imp fun hlt heq => ?_)
    rw [heq] at hlt
    exact lt_irrefl _ hlt
  · refine hasPrefixPair_false.2 (htab.noPrefixPair.imp_of_mem fun {a b} ha hb hab => ?_)
    obtain ⟨-, -, ha⟩ := codeLegal_iff.1 (htab.legal a ha)
    obtain ⟨-, -, hb⟩ := codeLegal_iff.1 (htab.legal b hb)
    rw [← Bool.not_eq_true, ← Bool.not_eq_true, Entry.isPrefixOf_iff ha hb, Entry.isPrefixOf_iff hb ha]
    exact hab
  · exact (h.generator.table hv).2.2

/-- A committed table has legal codes of at most DTMAXLEN bits. -/
theorem State.DecoderInv.tableLegal {s : State} (h : s.DecoderInv) (hc : s.cfg.wf = true) (hv : s.dtValid = true) :
    TableLegal s.dt s.dtMaxLen := by
  obtain ⟨-, -, hmax⟩ := h.committed hv
  obtain ⟨-, -, -, hl, -⟩ := paramsWf_iff.1 hc
  have hlegal := fun e he => codeLegal_iff.1 (h.dtEntries e he).2
  rw [hmax]
  exact ⟨fun e he => ⟨(hlegal e he).1, len_le_maxLen he, (hlegal e he).2.2⟩,
    (maxLen_le fun e he => (hlegal e he).2.1).trans hl⟩

/-- Feeding bits to a committed table keeps the decoder's invariant, in whichever phase it is left (44_decoder.md R186,
R193). -/
theorem State.DecoderInv.pushBits {s t : State} (h : s.DecoderInv) (hc : s.cfg.wf = true) (hv : s.dtValid = true)
    {bits : List Bool} (hp : State.pushBits { s with done := false } bits = .ok t) (phase : Phase) :
    State.DecoderInv { t with phase := phase } := by
  obtain ⟨m, hm, hroom, rfl⟩ := State.pushBits_ok hp
  obtain ⟨⟨hbound, hshort, hopen⟩, es, hes, -, hout⟩ :=
    Matcher.pushAll_sound (h.tableLegal hc hv) bits (m := { w := s.w, wlen := s.wlen, out := [] })
      ⟨h.windowBits, h.windowShort, h.windowOpen⟩ hm
  refine { h with
    loading := ?_, windowBits := hbound, windowShort := hshort, windowOpen := hopen, doneClean := nofun
    symqRoom := ?_, symqScalar := ?_ }
  · exact fun hf => absurd (hv.symm.trans hf) nofun
  · simpa using hroom
  · refine List.forall_mem_append.2 ⟨h.symqScalar, ?_⟩
    rw [hout]
    simpa using fun e he => (h.dtEntries e (hes e he)).1

/-! ### Every effect of a command keeps the invariant -/

/-- A change of the decoder's own fields. -/
theorem State.Inv.setDecoder {s t : State} (h : s.Inv) {dt dtValid dtMaxLen w wlen phase done symq}
    (ht : t = { s with dt, dtValid, dtMaxLen, w, wlen, phase, done, symq }) (hd : t.DecoderInv) : t.Inv := by
  subst ht
  exact ⟨h.params, { h.builder with }, { h.generator with }, { h.encoder with }, hd, { h.error with }⟩

theorem State.Inv.pushBits {s t : State} (h : s.Inv) (hv : s.dtValid = true)
    {bits : List Bool} (hp : State.pushBits { s with done := false } bits = .ok t) (phase : Phase) :
    State.Inv { t with phase := phase } := by
  have hdec := h.decoder.pushBits h.params hv hp phase
  obtain ⟨m, -, -, rfl⟩ := State.pushBits_ok hp
  exact h.setDecoder rfl hdec

/-- What a command that succeeds leaves meets the invariant. -/
theorem State.Inv.effect {s t : State} (h : s.Inv) {i : Instr} (he : Effect s t i) : t.Inv := by
  cases i with
  | nop => obtain rfl := he; exact h
  | errClr =>
    obtain rfl := he
    exact ⟨h.params, { h.builder with }, { h.generator with },
      State.encoderInv_of_empty rfl rfl (Nat.zero_le _) (Nat.zero_le _),
      { h.decoder.decReset with }, ⟨fun _ => ⟨rfl, rfl⟩, nofun⟩⟩
  | ftClear => obtain rfl := he; exact h.setFt ftWf_nil (Nat.zero_le _)
  | ftInc c =>
    obtain ⟨hs, hroom, hmax, rfl⟩ := he
    exact h.putFt hs (ftCount_succ_ne_zero hmax) hroom
  | ftSet c =>
    obtain ⟨hs, hroom, rfl⟩ := he
    by_cases ha : s.snapArg = 0#64
    · rw [if_pos ha]
      exact h.setFt (ftWf_ftRemove h.builder.ftForm c) ((List.length_filter_le _ _).trans h.builder.ftRoom)
    · rw [if_neg ha]
      exact h.putFt hs ha (hroom.resolve_left ha)
  | ftRead c => obtain ⟨-, rfl⟩ := he; exact h.interface ..
  | buildTree => obtain ⟨nodes, hn, rfl⟩ := he; exact h.buildTree hn
  | nodeRead n => obtain ⟨-, -, -, r, a, a2, rfl⟩ := he; exact h.interface ..
  | genTable => obtain ⟨ht, ct, hc, rfl⟩ := he; exact h.genTable ht hc
  | ctRead n => obtain ⟨-, e, -, rfl⟩ := he; exact h.interface ..
  | encSymbol c =>
    obtain ⟨-, -, e, -, hroom, z, hz, rfl⟩ := he
    exact ⟨h.params, { h.builder with }, { h.generator with },
      h.encoder.pushAll (codeBits e.len e.val) (by rwa [length_codeBits]) hz, { h.decoder with }, { h.error with }⟩
  | encFlush =>
    rcases he with ⟨-, hroom, rfl⟩ | ⟨-, rfl⟩
    · exact ⟨h.params, { h.builder with }, { h.generator with }, h.encoder.flush hroom, { h.decoder with },
        { h.error with }⟩
    · exact ⟨h.params, { h.builder with }, { h.generator with },
        State.encoderInv_of_empty rfl rfl (le_refl 8) h.encoder.outqRoom, { h.decoder with }, { h.error with }⟩
  | dtClear =>
    exact h.setDecoder he (he ▸ State.decoderInv_decReset (Nat.zero_le _) nofun nofun fun _ => rfl)
  | dtLoad c =>
    obtain ⟨hs, hv, hroom, hl, rfl⟩ := he
    exact h.setDecoder rfl (h.decoder.load hv hroom hs hl)
  | dtCommit =>
    obtain ⟨-, hdup, hpre, rfl⟩ := he
    exact h.setDecoder rfl
      (State.decoderInv_decReset h.decoder.dtRoom h.decoder.dtEntries (fun _ => ⟨hdup, hpre, rfl⟩) nofun)
  | dtFromCt => obtain ⟨hv, rfl⟩ := he; exact h.setDecoder rfl (h.fromCt hv)
  | decByte b => obtain ⟨hv, -, hp⟩ := he; exact h.pushBits hv hp t.phase
  | decLast b n => obtain ⟨-, hv, -, u, hp, rfl⟩ := he; exact h.pushBits hv hp .LAST
  | decEnd =>
    obtain ⟨hv, hwlen, rfl⟩ := he
    refine h.setDecoder rfl { h.decoder with
      loading := ?_, windowBits := Nat.two_pow_pos _, windowOpen := ?_, doneClean := ?_ }
    · exact fun hf => absurd (hv.symm.trans hf) nofun
    · intro e he
      show ¬ e.bits <+: codeBits s.wlen 0#64
      rw [hwlen]
      exact Entry.not_bits_prefix_nil (h.decoder.dtEntries e he).2
    · exact fun _ => ⟨rfl, hwlen⟩

/-! ### What a turn is made of -/

/-- A property that nothing a turn is made of can break. -/
structure TurnClosed (P : State → Prop) : Prop where
  interface (s : State) (arg : BitVec 64) (arg2 : BitVec 7) (pend : Option Latched) (agenda : List Move)
    (resp : BusResp) (draws : Nat) : P s → P { s with arg, arg2, pend, agenda, resp, draws }
  busError (s : State) : P s → P s.busError
  popByte (s : State) : P s → P { s with outq := s.outq.tail }
  popSymbol (s : State) : P s → P { s with symq := s.symq.tail }
  recordError (s : State) (e : ErrCode) (opc : BitVec 8) : e ≠ .NONE → P s → P (s.recordError e opc)
  hardReset (s : State) : P s → P s.hardReset
  effect (s t : State) (i : Instr) : Effect s t i → P s → P t

section
variable {P : State → Prop} (hP : TurnClosed P) {s t : State}
include hP

theorem TurnClosed.hostRead {addr width : Nat} (h : hostRead addr width s = .next t) (hs : P s) : P t := by
  rcases hostRead_cases h with rfl | rfl
  · exact hP.busError s hs
  · have hread : P (memRead (addr - s.cfg.base) s).2 := by
      rcases memRead_state (addr - s.cfg.base) s with hm | hm | hm | hm <;> rw [hm]
      · exact hs
      · exact hP.popByte s hs
      · exact hP.popSymbol s hs
      · exact hP.interface s _ _ _ _ _ _ hs
    exact hP.interface _ _ _ _ _ _ _ hread

theorem TurnClosed.submit (w : Word) (hs : P s) : P (submit w s) := by
  rcases submit_cases w s with ⟨-, hsub⟩ | ⟨-, -, hsub⟩ | ⟨-, hsub⟩ <;> rw [hsub]
  · exact hP.recordError s _ _ nofun hs
  · exact hs
  · exact hP.interface s _ _ _ _ _ _ hs

theorem TurnClosed.hostWrite {addr width : Nat} {v : Word} (h : hostWrite addr width v s = .next t) (hs : P s) :
    P t := by
  rcases hostWrite_cases h with rfl | ⟨-, off, -, rfl⟩
  · exact hP.busError s hs
  · have hwrite : P (memWrite off v s) := by
      rcases memWrite_cases off v s with hm | ⟨-, -, hm⟩ | ⟨-, hm⟩ | ⟨a, hm⟩ | ⟨a, hm⟩ <;> rw [hm]
      · exact hs
      · exact hP.hardReset s hs
      · exact hP.submit v hs
      · exact hP.interface s _ _ _ _ _ _ hs
      · exact hP.interface s _ _ _ _ _ _ hs
    exact hP.interface _ _ _ _ _ _ _ hwrite

theorem TurnClosed.exec {i : Instr} (h : exec i s = .next t) (hs : P s) : P t := by
  rcases exec_cases h with ⟨e, he, rfl⟩ | he
  · exact hP.recordError s e _ he hs
  · exact hP.effect s t i he hs

theorem TurnClosed.engineStep (h : engineStep s = .next t) (hs : P s) : P t := by
  rcases engineStep_cases h with ⟨-, rfl⟩ | ⟨p, i, u, -, -, hu, rfl⟩ | ⟨p, e, -, -, rfl⟩
  · exact hs
  · exact hP.interface u _ _ _ _ _ _ (hP.exec hu hs)
  · exact hP.interface _ _ _ _ _ _ _ (hP.recordError s _ _ nofun hs)

/-- Every step of every agent keeps the property. -/
theorem TurnClosed.step (h : step s = .next t) (hs : P s) : P t := by
  rcases step_cases h with ⟨-, h⟩ | ⟨m, rest, -, h⟩
  · exact hP.engineStep h hs
  · have hs' : P { s with agenda := rest } := hP.interface s _ _ _ _ _ _ hs
    cases m with
    | hostRead addr width => exact hP.hostRead h hs'
    | hostWrite addr width v => exact hP.hostWrite h hs'
    | engine => exact hP.engineStep h hs'
    | hardReset =>
      obtain rfl := Host.Outcome.next.inj h
      exact hP.hardReset _ hs'

end

theorem turnClosed_inv : TurnClosed State.Inv where
  interface _ _ _ _ _ _ _ h := h.interface ..
  busError _ h := h.interface ..
  popByte _ h := h.popByte
  popSymbol _ h := h.popSymbol
  recordError _ _ opc he h := h.recordError he opc
  hardReset _ h := State.inv_hardReset h.params
  effect _ _ _ he h := h.effect he

/-- Settles O54: no part of a turn breaks the invariant. -/
theorem everyStepKeepsTheInvariant : Obligations.EveryStepKeepsTheInvariant :=
  fun _ _ hs h => turnClosed_inv.step h hs

/-- Settles O53: a hard reset of the state after reset changes nothing. -/
theorem resetStateMeetsTheInvariant : Obligations.ResetStateMeetsTheInvariant :=
  ⟨fun p hp => State.inv_hardReset (s := State.resetWith p) hp, State.inv_hardReset (s := State.reset) (by decide)⟩

/-! ### What commands leave unchanged -/

/-- What no command writes: the parameters, ARG, ARG2 and PEND (10_state.md R45, R31, R55), and the model's own
fields. -/
def State.untouched (s : State) :
    Config.Params × BitVec 64 × BitVec 7 × Option Latched × List Move × BusResp × Bool × Nat :=
  (s.cfg, s.arg, s.arg2, s.pend, s.agenda, s.resp, s.busFault, s.draws)

/-- The three result registers (10_state.md R33 to R35). -/
def State.results (s : State) : BitVec 64 × Word × Word := (s.res, s.resAux, s.resAux2)

/-- The error state (10_state.md R56). -/
def State.errorState (s : State) : Bool × ErrCode × BitVec 8 := (s.err, s.ecode, s.eopc)

/-- The frame the effects of the commands share. -/
theorem Effect.frame {s t : State} {i : Instr} (h : Effect s t i) :
    t.untouched = s.untouched ∧
    ((∀ c, i ≠ .ftRead c) → (∀ n, i ≠ .nodeRead n) → (∀ n, i ≠ .ctRead n) → t.results = s.results) ∧
    (i ≠ .errClr → t.errorState = s.errorState) := by
  cases i with
  | nop | ftClear | dtClear => obtain rfl := h; exact ⟨rfl, fun _ _ _ => rfl, fun _ => rfl⟩
  | errClr => obtain rfl := h; exact ⟨rfl, fun _ _ _ => rfl, fun hne => absurd rfl hne⟩
  | ftInc | genTable | dtCommit => obtain ⟨-, -, -, rfl⟩ := h; exact ⟨rfl, fun _ _ _ => rfl, fun _ => rfl⟩
  | ftSet | buildTree | decEnd => obtain ⟨-, -, rfl⟩ := h; exact ⟨rfl, fun _ _ _ => rfl, fun _ => rfl⟩
  | ftRead c => obtain ⟨-, rfl⟩ := h; exact ⟨rfl, fun hf _ _ => absurd rfl (hf c), fun _ => rfl⟩
  | nodeRead n =>
    obtain ⟨-, -, -, -, -, -, rfl⟩ := h
    exact ⟨rfl, fun _ hn _ => absurd rfl (hn n), fun _ => rfl⟩
  | ctRead n => obtain ⟨-, -, -, rfl⟩ := h; exact ⟨rfl, fun _ _ hc => absurd rfl (hc n), fun _ => rfl⟩
  | encSymbol => obtain ⟨-, -, -, -, -, -, -, rfl⟩ := h; exact ⟨rfl, fun _ _ _ => rfl, fun _ => rfl⟩
  | encFlush => rcases h with ⟨-, -, rfl⟩ | ⟨-, rfl⟩ <;> exact ⟨rfl, fun _ _ _ => rfl, fun _ => rfl⟩
  | dtLoad => obtain ⟨-, -, -, -, rfl⟩ := h; exact ⟨rfl, fun _ _ _ => rfl, fun _ => rfl⟩
  | dtFromCt => obtain ⟨-, rfl⟩ := h; exact ⟨rfl, fun _ _ _ => rfl, fun _ => rfl⟩
  | decByte =>
    obtain ⟨-, -, hp⟩ := h
    obtain ⟨m, -, -, rfl⟩ := State.pushBits_ok hp
    exact ⟨rfl, fun _ _ _ => rfl, fun _ => rfl⟩
  | decLast =>
    obtain ⟨-, -, -, u, hp, rfl⟩ := h
    obtain ⟨m, -, -, rfl⟩ := State.pushBits_ok hp
    exact ⟨rfl, fun _ _ _ => rfl, fun _ => rfl⟩

/-- A recorded error leaves all but the error state unchanged. -/
theorem State.recordError_frame (s : State) (e : ErrCode) (opc : BitVec 8) :
    (s.recordError e opc).untouched = s.untouched ∧ (s.recordError e opc).results = s.results := by
  simp [State.untouched, State.results]

/-- Settles O9: a command that fails only records its error, and one that succeeds has the shared frame. -/
theorem commandsKeepArgumentsParametersAndResults : Obligations.CommandsKeepArgumentsParametersAndResults := by
  intro i s t h
  have hframe : t.untouched = s.untouched ∧
      ((∀ c, i ≠ .ftRead c) → (∀ n, i ≠ .nodeRead n) → (∀ n, i ≠ .ctRead n) → t.results = s.results) := by
    rcases exec_cases h with ⟨e, -, rfl⟩ | he
    · exact (s.recordError_frame e i.opcode).imp_right fun hr _ _ _ => hr
    · exact ⟨he.frame.1, he.frame.2.1⟩
  simp only [State.untouched, State.results, Prod.mk.injEq] at hframe
  obtain ⟨⟨hcfg, harg, harg2, hpend, hagenda, hresp, hfault, hdraws⟩, hres⟩ := hframe
  exact ⟨harg, harg2, hpend, hcfg, hagenda, hresp, hfault, hdraws, hres⟩

theorem turnClosed_cfg (p : Config.Params) : TurnClosed fun s => s.cfg = p where
  interface _ _ _ _ _ _ _ h := h
  busError _ h := h
  popByte _ h := h
  popSymbol _ h := h
  recordError s e opc _ h := (s.recordError_cfg e opc).trans h
  hardReset _ h := h
  effect _ _ _ he h := (congrArg Prod.fst he.frame.1).trans h

/-- Settles O55: no part of a turn changes the parameters. -/
theorem everyStepKeepsTheParameters : Obligations.EveryStepKeepsTheParameters :=
  fun s _ h => (turnClosed_cfg s.cfg).step h rfl

/-! ### How a recorded error is cleared -/

/-- The error state of a block that reports no error (10_state.md R56). -/
def noError : Bool × ErrCode × BitVec 8 := (false, .NONE, 0#8)

theorem exec_errorState {i : Instr} {s t : State} (h : exec i s = .next t) (herr : s.err = true) :
    t.errorState = s.errorState ∨ (t.errorState = noError ∧ i = .errClr) := by
  rcases exec_cases h with ⟨e, -, rfl⟩ | he
  · rw [State.recordError_of_err herr]
    exact .inl rfl
  · by_cases hi : i = .errClr
    · subst hi
      obtain rfl := he
      exact .inr ⟨rfl, rfl⟩
    · obtain ⟨-, -, hkeep⟩ := he.frame
      exact .inl (hkeep hi)

theorem engineStep_errorState {s t : State} (h : engineStep s = .next t) (herr : s.err = true) :
    t.errorState = s.errorState ∨
      (t.errorState = noError ∧ ∃ p, s.pend = some p ∧ decode p.word = .ok .errClr) := by
  rcases engineStep_cases h with ⟨-, rfl⟩ | ⟨p, i, u, hp, hi, hu, rfl⟩ | ⟨p, e, -, -, rfl⟩
  · exact .inl rfl
  · refine (exec_errorState hu herr).imp_right fun ⟨hclear, hclr⟩ => ⟨hclear, p, hp, ?_⟩
    rw [hi, hclr]
  · rw [State.recordError_of_err herr]
    exact .inl rfl

theorem hostRead_errorState {addr width : Nat} {s t : State} (h : hostRead addr width s = .next t) :
    t.errorState = s.errorState := by
  rcases hostRead_cases h with rfl | rfl
  · rfl
  · show (memRead (addr - s.cfg.base) s).2.errorState = s.errorState
    rcases memRead_state (addr - s.cfg.base) s with hm | hm | hm | hm <;> rw [hm] <;> rfl

theorem submit_errorState {w : Word} {s : State} (herr : s.err = true) : (submit w s).errorState = s.errorState := by
  rcases submit_cases w s with ⟨-, hsub⟩ | ⟨-, -, hsub⟩ | ⟨-, hsub⟩ <;> rw [hsub]
  · rw [State.recordError_of_err herr]
  · rfl

theorem hostWrite_errorState {addr width : Nat} {v : Word} {s t : State} (h : hostWrite addr width v s = .next t)
    (herr : s.err = true) :
    t.errorState = s.errorState ∨
      (t.errorState = noError ∧ addr = s.cfg.base + 0x004 ∧ width = 4 ∧ v.getLsbD 0 = true) := by
  rcases hostWrite_cases h with rfl | ⟨hwidth, off, haddr, rfl⟩
  · exact .inl rfl
  · show (memWrite off v s).errorState = s.errorState ∨ ((memWrite off v s).errorState = noError ∧ _)
    rcases memWrite_cases off v s with hm | ⟨rfl, hv, hm⟩ | ⟨-, hm⟩ | ⟨a, hm⟩ | ⟨a, hm⟩ <;> rw [hm]
    · exact .inl rfl
    · exact .inr ⟨rfl, haddr, hwidth, hv⟩
    · exact .inl (submit_errorState herr)
    · exact .inl rfl
    · exact .inl rfl

/-- The next turn is one of the three that clear a recorded error (10_state.md R56, 60_exceptions.md R235): a hard
reset, a soft reset, or the engine's on a latched ERR_CLR. -/
def ClearingTurn (s : State) : Prop :=
  (∃ rest, s.agenda = .hardReset :: rest) ∨
  (∃ v rest, s.agenda = .hostWrite (s.cfg.base + 0x004) 4 v :: rest ∧ v.getLsbD 0 = true) ∨
  ∃ p, s.pend = some p ∧ decode p.word = .ok .errClr ∧ (s.agenda = [] ∨ ∃ rest, s.agenda = .engine :: rest)

theorem step_errorState {s t : State} (h : step s = .next t) (herr : s.err = true) :
    t.errorState = s.errorState ∨ (t.errorState = noError ∧ ClearingTurn s) := by
  rcases step_cases h with ⟨hag, h⟩ | ⟨m, rest, hag, h⟩
  · exact (engineStep_errorState h herr).imp_right fun ⟨hclear, p, hp, hd⟩ =>
      ⟨hclear, .inr (.inr ⟨p, hp, hd, .inl hag⟩)⟩
  · cases m with
    | hostRead addr width => exact .inl (hostRead_errorState (s := { s with agenda := rest }) h)
    | hostWrite addr width v =>
      refine (hostWrite_errorState h herr).imp_right fun ⟨hclear, haddr, hwidth, hv⟩ =>
        ⟨hclear, .inr (.inl ⟨v, rest, ?_, hv⟩)⟩
      rw [hag, haddr, hwidth]
    | engine =>
      exact (engineStep_errorState h herr).imp_right fun ⟨hclear, p, hp, hd⟩ =>
        ⟨hclear, .inr (.inr ⟨p, hp, hd, .inr ⟨rest, hag⟩⟩)⟩
    | hardReset =>
      obtain rfl := Host.Outcome.next.inj h
      exact .inr ⟨rfl, .inl ⟨rest, hag⟩⟩

/-- Settles O12: each agent's turn keeps the error state as one value, or sets it to `noError`. -/
theorem errorIsClearedOnlyByErrClrOrReset : Obligations.ErrorIsClearedOnlyByErrClrOrReset := by
  intro s t h herr
  rcases step_errorState h herr with hkeep | ⟨hclear, hhow⟩
  · simp only [State.errorState, Prod.mk.injEq] at hkeep
    obtain ⟨hkerr, hcode, hopc⟩ := hkeep
    exact .inl ⟨hkerr.trans herr, hcode, hopc⟩
  · simp only [State.errorState, noError, Prod.mk.injEq] at hclear
    obtain ⟨hcerr, hcode, hopc⟩ := hclear
    exact .inr ⟨hcerr, hcode, hopc, hhow⟩

/-! ### Reads of the register window -/

theorem memRead_offset (r : Reg) (s : State) :
    memRead r.offset s = if s.busy then readBusy r s else readIdle r s := by
  simp only [memRead, Reg.at_offset_self]

theorem hostRead_of_busy {s : State} (h : s.busy = true) (r : Reg) :
    hostRead (s.cfg.base + r.offset) 4 s = .next ((readBusy r s).2.answer (readBusy r s).1) := by
  rw [hostRead_eq s r.offset_legal.1 r.offset_legal.2, memRead_offset, if_pos h]

theorem hostRead_of_idle {s : State} (h : s.busy = false) (r : Reg) :
    hostRead (s.cfg.base + r.offset) 4 s = .next ((readIdle r s).2.answer (readIdle r s).1) := by
  rw [hostRead_eq s r.offset_legal.1 r.offset_legal.2, memRead_offset, h, if_neg Bool.false_ne_true]

theorem readBusy_steady {r : Reg} (h : r.steadyWhileBusy = true) (s : State) : readBusy r s = (r.value s, s) :=
  if_pos h

theorem readBusy_fifo {r : Reg} (h : r = .OUT_DATA ∨ r = .SYM_DATA) (s : State) : readBusy r s = (0#32, s) := by
  rcases h with rfl | rfl <;> rfl

theorem readBusy_free {r : Reg} (h : r.steadyWhileBusy = false) (hfifo : ¬ (r = .OUT_DATA ∨ r = .SYM_DATA))
    (s : State) : readBusy r s =
      (if r = .STATUS then Config.freeWord s.draws ||| 1#32 else Config.freeWord s.draws,
        { s with draws := s.draws + 1 }) := by
  simp only [readBusy, h, Bool.false_eq_true, if_false, if_neg hfifo]

theorem Reg.steadyWhileBusy_iff {r : Reg} : r.steadyWhileBusy = true ↔
    r ∈ [.ID, .CTRL, .CMD, .ARG_LO, .ARG_HI, .ARG2, .CAP_NSYM, .CAP_LMAX, .CAP_OUTD, .CAP_SYMD] := by
  cases r <;> decide

theorem hostRead_fifo_of_busy {s : State} (h : s.busy = true) {r : Reg} (hr : r = .OUT_DATA ∨ r = .SYM_DATA) :
    hostRead (s.cfg.base + r.offset) 4 s = .next (s.answer 0#32) := by
  rw [hostRead_of_busy h, readBusy_fifo hr]

/-- Settles O47, by the three kinds of register of `readBusy`. -/
theorem busyReadsAreFreeDraws : Obligations.BusyReadsAreFreeDraws := by
  intro s r h
  refine ⟨fun hr => ?_, fun hr => hostRead_fifo_of_busy h (by simpa using hr), fun hr => ?_⟩
  · rw [hostRead_of_busy h, readBusy_steady (Reg.steadyWhileBusy_iff.2 hr)]
    rfl
  · obtain ⟨hsteady, hfifo⟩ : r.steadyWhileBusy = false ∧ ¬ (r = .OUT_DATA ∨ r = .SYM_DATA) := by
      revert hr
      cases r <;> decide
    rw [hostRead_of_busy h, readBusy_free hsteady hfifo]
    exact ⟨_, rfl, fun hst => if_pos hst, fun hst => if_neg hst⟩

/-- Settles O45: while BUSY = 0 the read pops the head of OUTQ, if there is one. -/
theorem outDataPopsOneByte : Obligations.OutDataPopsOneByte := by
  intro s
  refine ⟨fun b rest hidle hq => (hostRead_of_idle hidle .OUT_DATA).trans ?_, fun h => ?_, fun _ => ⟨rfl, rfl⟩⟩
  · simp only [readIdle, Reg.value, hq, List.tail_cons, State.answer]
  · cases hbusy : s.busy with
    | true => exact hostRead_fifo_of_busy hbusy (.inl rfl)
    | false =>
      have hq : s.outq = [] := h.resolve_right (Bool.eq_false_iff.1 hbusy)
      refine (hostRead_of_idle hbusy .OUT_DATA).trans ?_
      simp only [readIdle, Reg.value, hq, List.tail_nil, State.answer]

/-- Settles O46: while BUSY = 0 the read pops the head of SYMQ, if there is one. -/
theorem symDataPopsOneSymbol : Obligations.SymDataPopsOneSymbol := by
  intro s
  refine ⟨fun c rest hidle hq => (hostRead_of_idle hidle .SYM_DATA).trans ?_, fun h => ?_, fun _ => ⟨rfl, rfl⟩⟩
  · simp only [readIdle, Reg.value, hq, List.tail_cons, State.answer]
  · cases hbusy : s.busy with
    | true => exact hostRead_fifo_of_busy hbusy (.inr rfl)
    | false =>
      have hq : s.symq = [] := h.resolve_right (Bool.eq_false_iff.1 hbusy)
      refine (hostRead_of_idle hbusy .SYM_DATA).trans ?_
      simp only [readIdle, Reg.value, hq, List.tail_nil, State.answer]

/-! ### Fields of a word -/

theorem extractLsb'_append_of_le {n m start len : Nat} (h : m ≤ start) (x : BitVec n) (y : BitVec m) :
    (x ++ y).extractLsb' start len = x.extractLsb' (start - m) len := by
  ext j hj
  simp only [BitVec.getElem_extractLsb', BitVec.getLsbD_append]
  rw [if_neg (by omega), Nat.sub_add_comm h]

theorem extractLsb'_append_of_ge {n m start len : Nat} (h : start + len ≤ m) (x : BitVec n) (y : BitVec m) :
    (x ++ y).extractLsb' start len = y.extractLsb' start len := by
  ext j hj
  simp only [BitVec.getElem_extractLsb', BitVec.getLsbD_append]
  rw [if_pos (by omega)]

theorem getLsbD_append_bit_zero {n : Nat} (x : BitVec n) (b : Bool) : (x ++ bit b).getLsbD 0 = b := by
  rw [BitVec.getLsbD_append]
  cases b <;> rfl

theorem getLsbD_append_bit_succ {n : Nat} (x : BitVec n) (b : Bool) (k : Nat) :
    (x ++ bit b).getLsbD (k + 1) = x.getLsbD k := by
  rw [BitVec.getLsbD_append, if_neg (by omega), Nat.add_sub_cancel]

theorem toNat_ofNat_of_lt {n v : Nat} (hv : v < 2 ^ n) : (BitVec.ofNat n v).toNat = v := by
  rw [BitVec.toNat_ofNat, Nat.mod_eq_of_lt hv]

theorem field_toNat {n v : Nat} (hn : n ≤ 32) (hv : v < 2 ^ n) : (field n v).toNat = v := by
  rw [field, BitVec.toNat_setWidth_of_le hn, toNat_ofNat_of_lt hv]

/-! ### STATUS and ERRCODE -/

/-- The one-bit fields of STATUS (10_state.md R28). -/
theorem status_flags (s : State) :
    s.status.getLsbD 0 = s.busy ∧ s.status.getLsbD 1 = s.err ∧ s.status.getLsbD 2 = s.treeValid ∧
    s.status.getLsbD 3 = s.ctValid ∧ s.status.getLsbD 4 = s.dtValid ∧ s.status.getLsbD 5 = s.lastFlag ∧
    s.status.getLsbD 6 = s.done ∧ s.status.getLsbD 7 = false := by
  rw [State.status, show (0#1 : BitVec 1) = bit false from rfl]
  simp only [getLsbD_append_bit_zero, getLsbD_append_bit_succ, and_self]

/-- The wider fields of STATUS and the reserved ones (10_state.md R28). -/
theorem status_fields (s : State) :
    s.status.extractLsb' 8 3 = BitVec.ofNat 3 s.nbits ∧ s.status.extractLsb' 11 5 = 0#5 ∧
    s.status.extractLsb' 16 7 = BitVec.ofNat 7 s.wlen ∧ s.status.extractLsb' 23 9 = 0#9 := by
  unfold State.status
  simp (disch := decide) only [extractLsb'_append_of_le, extractLsb'_append_of_ge]
  exact ⟨BitVec.extractLsb'_eq_self, BitVec.extractLsb'_zero, BitVec.extractLsb'_eq_self, BitVec.extractLsb'_zero⟩

/-- Settles O44: the two fields of the concatenation EOPC || ECODE. -/
theorem errcodeShowsCodeAndOpcode : Obligations.ErrcodeShowsCodeAndOpcode := by
  intro s
  unfold State.errcode
  refine ⟨?_, ?_, ?_, fun hinv herr => ?_⟩
  · rw [BitVec.extractLsb'_setWidth_of_le (by decide), extractLsb'_append_of_ge (by decide), BitVec.extractLsb'_eq_self]
  · rw [BitVec.extractLsb'_setWidth_of_le (by decide), extractLsb'_append_of_le (by decide), BitVec.extractLsb'_eq_self]
  · ext j hj
    simp
  · obtain ⟨hcode, hopc⟩ := hinv.quiet herr
    rw [hcode, hopc]
    decide

/-- Settles O43: the reads are those of every register, and the fields those of the concatenation. -/
theorem statusShowsTheFlags : Obligations.StatusShowsTheFlags := by
  intro s
  obtain ⟨hbusy, herr, htree, hct, hdt, hlast, hdone, h7⟩ := status_flags s
  obtain ⟨hnbits, h11, hwlen, h23⟩ := status_fields s
  refine ⟨fun h => hostRead_of_idle h .STATUS, fun h => hostRead_of_busy h .STATUS, hbusy, herr, htree, hct, hdt, ?_,
    hdone, h7, fun hn => ?_, h11, fun hw => ?_, h23⟩
  · rw [hlast, State.lastFlag]
    cases s.phase <;> rfl
  · rw [hnbits, toNat_ofNat_of_lt hn]
  · rw [hwlen, toNat_ofNat_of_lt (by omega)]

/-! ### The other registers -/

/-- Settles O52: no register but the CAP registers depends on the parameters. -/
theorem registersReadTheirResetValues : Obligations.RegistersReadTheirResetValues := by
  intro p
  refine ⟨rfl, rfl, rfl, rfl, rfl, fun r hr => ?_⟩
  cases r with
  | ID | CAP_NSYM | CAP_LMAX | CAP_OUTD | CAP_SYMD => simp at hr
  | STATUS => show State.reset.status = 0#32; decide
  | ERRCODE => show State.reset.errcode = 0#32; decide
  | ARG_HI | RES_HI => exact BitVec.extractLsb'_zero
  | _ => rfl

/-- The two halves of a 64-bit register. -/
theorem append_halves (x : BitVec 64) : (x.extractLsb' 32 32 ++ x.extractLsb' 0 32 : BitVec 64) = x := by
  rw [BitVec.extractLsb'_append_extractLsb'_eq_extractLsb' (by decide)]
  exact BitVec.extractLsb'_eq_self

theorem State.Inv.nodes_length_le {s : State} (h : s.Inv) : s.nodes.length ≤ 2 * s.ft.length - 1 := by
  cases hv : s.treeValid with
  | true => exact (buildNodes_length h.builder.ftForm (h.builder.tree hv)).le
  | false => rw [h.builder.noTree hv]; exact Nat.zero_le _

theorem State.Inv.ctMaxLen_le {s : State} (h : s.Inv) : s.ctMaxLen ≤ s.cfg.lMax := by
  cases hv : s.ctValid with
  | true =>
    rw [(h.generator.table hv).2.2]
    exact maxLen_le fun e he => (codeLegal_iff.1 ((h.tableOf hv).legal e he)).2.1
  | false => rw [(h.generator.noTable hv).2]; exact Nat.zero_le _

theorem State.DecoderInv.dtMaxLen_le {s : State} (h : s.DecoderInv) : s.dtMaxLen ≤ s.cfg.lMax := by
  cases hv : s.dtValid with
  | true =>
    rw [(h.committed hv).2.2]
    exact maxLen_le fun e he => (codeLegal_iff.1 (h.dtEntries e he).2).2.1
  | false => rw [(h.loading hv).1]; exact Nat.zero_le _

/-- Settles O42: the invariant bounds each number by what its field holds. -/
theorem registersShowTheState : Obligations.RegistersShowTheState := by
  intro s h
  obtain ⟨-, hnSym, -, hlMax, -, hout, -, hsym, -⟩ := paramsWf_iff.1 h.params
  have hft := h.builder.ftRoom
  have hnodes := h.nodes_length_le
  have hct := h.ct_length_le
  have hctMax := h.ctMaxLen_le
  have hdt := h.decoder.dtRoom
  have hdtMax := h.decoder.dtMaxLen_le
  have htail := h.encoder.tailRange
  have houtq := h.encoder.outqRoom
  have hsymq := h.decoder.symqRoom
  refine ⟨rfl, rfl, rfl, append_halves _, BitVec.toNat_setWidth_of_le (by decide), append_halves _, rfl, rfl,
    field_toNat (by decide) ?_, field_toNat (by decide) ?_, field_toNat (by decide) ?_, field_toNat (by decide) ?_,
    field_toNat (by decide) ?_, field_toNat (by decide) ?_, field_toNat (by decide) ?_, field_toNat (by decide) ?_,
    field_toNat (by decide) ?_, toNat_ofNat_of_lt ?_, toNat_ofNat_of_lt ?_, toNat_ofNat_of_lt ?_,
    toNat_ofNat_of_lt ?_⟩ <;>
    omega

end Sys2Proof.Machine

/-! The statements of 20_memory.md: the host's accesses of the register window, and what a latched command cannot
see. -/

namespace Sys2Proof.Machine

/-! ### A latched command and ARG, ARG2 -/

/-- `s` with other values in ARG and ARG2 (10_state.md R31, R32). -/
abbrev State.setArgs (s : State) (v : BitVec 64) (v2 : BitVec 7) : State := { s with arg := v, arg2 := v2 }

/-- The same attempt, with other values in ARG and ARG2 of the state it leaves. -/
def Attempt.setArgs (a : Attempt) (v : BitVec 64) (v2 : BitVec 7) : Attempt := a.map (·.setArgs v v2)

section
variable {s t : State} {v : BitVec 64} {v2 : BitVec 7}

/-- With a command latched, its snapshots are those of the latch (30_encoding.md R107, R111). -/
theorem snapArgs_setArgs (h : s.busy = true) (v : BitVec 64) (v2 : BitVec 7) :
    (s.setArgs v v2).snapArg = s.snapArg ∧ (s.setArgs v v2).snapArg2 = s.snapArg2 := by
  obtain ⟨p, hp⟩ := Option.isSome_iff_exists.1 h
  simp only [State.snapArg, State.snapArg2, hp, and_self]

theorem failIf_setArgs (bad : Bool) (e : ErrCode) (a : Attempt) :
    failIf bad e (a.setArgs v v2) = (failIf bad e a).setArgs v v2 := by
  cases bad <;> rfl

theorem recordError_setArgs (s : State) (e : ErrCode) (opc : BitVec 8) :
    (s.setArgs v v2).recordError e opc = (s.recordError e opc).setArgs v v2 := by
  unfold State.recordError
  split <;> rfl

/-- A command whose attempt differs only in ARG and ARG2 ends in a state that differs only there. -/
theorem finish_setArgs {opc : BitVec 8} {a b : Attempt} (hb : b = a.setArgs v v2) (h : finish s opc a = .next t) :
    finish (s.setArgs v v2) opc b = .next (t.setArgs v v2) := by
  subst hb
  rcases finish_cases h with rfl | ⟨e, rfl, rfl⟩
  · rfl
  · exact congrArg _ (recordError_setArgs s e opc)

theorem pushBits_setArgs (s : State) (bits : List Bool) :
    (s.setArgs v v2).pushBits bits = (s.pushBits bits).setArgs v v2 := by
  unfold State.pushBits
  cases Matcher.pushAll s.dt s.dtMaxLen { w := s.w, wlen := s.wlen, out := [] } bits with
  | error e => rfl
  | ok m =>
    simp only [← failIf_setArgs]
    rfl

/-- The outcome of a latched command depends on ARG and ARG2 only through the latch. -/
theorem exec_setArgs {i : Instr} (hbusy : s.busy = true) (h : exec i s = .next t) :
    exec i (s.setArgs v v2) = .next (t.setArgs v v2) := by
  obtain ⟨harg, harg2⟩ := snapArgs_setArgs hbusy v v2
  cases i with
  | nop | errClr | ftClear | dtClear =>
    obtain rfl := Host.Outcome.next.inj h
    rfl
  | ftInc | ftSet | ftRead | dtLoad | dtCommit | dtFromCt | decEnd =>
    refine finish_setArgs ?_ h
    simp only [harg, harg2, ← failIf_setArgs]
    rfl
  | buildTree =>
    refine finish_setArgs ?_ h
    cases buildNodes s.ft <;> rfl
  | nodeRead idx =>
    refine finish_setArgs ?_ h
    rw [← failIf_setArgs]
    rcases s.nodes[idx.toNat]? with _ | _ | _ <;> rfl
  | genTable =>
    refine finish_setArgs ?_ h
    rw [← failIf_setArgs]
    cases codeTable s.cfg.lMax s.nodes <;> rfl
  | ctRead idx =>
    refine finish_setArgs ?_ h
    rw [← failIf_setArgs]
    cases s.ct[idx.toNat]? <;> rfl
  | encSymbol c =>
    refine finish_setArgs ?_ h
    simp only [← failIf_setArgs]
    cases findSym s.ct c with
    | none => rfl
    | some e =>
      simp only [← failIf_setArgs]
      rfl
  | encFlush =>
    refine finish_setArgs ?_ h
    rw [← failIf_setArgs]
    dsimp only
    split <;> rfl
  | decByte b =>
    refine finish_setArgs ?_ h
    rw [← failIf_setArgs, ← pushBits_setArgs]
  | decLast b n =>
    refine finish_setArgs ?_ h
    have hpush := pushBits_setArgs (v := v) (v2 := v2) { s with done := false } (byteBits b n.toNat)
    simp only [← failIf_setArgs, hpush]
    cases State.pushBits { s with done := false } (byteBits b n.toNat) <;> rfl

end

/-- Settles O10: the engine executes the latch. -/
theorem latchedCommandIgnoresLaterArguments : Obligations.LatchedCommandIgnoresLaterArguments :=
  fun _ _ _ _ _ hbusy h => exec_setArgs hbusy h

/-! ### Bus errors -/

theorem accessLegal_eq_false {off width : Nat} (h : width ≠ 4 ∨ off % 4 ≠ 0) : accessLegal off width = false := by
  simpa only [accessLegal, Bool.and_eq_false_iff, beq_eq_false_iff_ne] using h

theorem hostRead_illegal (s : State) {off width : Nat} (h : off < 4096) (hl : width ≠ 4 ∨ off % 4 ≠ 0) :
    hostRead (s.cfg.base + off) width s = .next s.busError := by
  simp [hostRead, inWindow_offset s h, accessLegal_eq_false hl]

theorem hostWrite_illegal (s : State) (v : Word) {off width : Nat} (h : off < 4096)
    (hl : width ≠ 4 ∨ off % 4 ≠ 0) : hostWrite (s.cfg.base + off) width v s = .next s.busError := by
  simp [hostWrite, inWindow_offset s h, accessLegal_eq_false hl]

theorem turnClosed_busFault : TurnClosed fun s => s.busFault = true where
  interface _ _ _ _ _ _ _ h := h
  busError _ _ := rfl
  popByte _ h := h
  popSymbol _ h := h
  recordError s e opc _ h := (s.recordError_busFault e opc).trans h
  hardReset _ h := h
  effect _ _ _ he h := by
    obtain ⟨hkeep, -⟩ := he.frame
    simp only [State.untouched, Prod.mk.injEq] at hkeep
    obtain ⟨-, -, -, -, -, -, hfault, -⟩ := hkeep
    exact hfault.trans h

/-- Settles O40: an illegal access is a bus error, and no part of a turn clears the record of one. -/
theorem busErrorIsRecordedAndHarmless : Obligations.BusErrorIsRecordedAndHarmless :=
  ⟨fun s _ _ v h hl => ⟨hostRead_illegal s h hl, _, hostWrite_illegal s v h hl⟩,
    fun _ _ h hs => turnClosed_busFault.step h hs⟩

/-! ### Idle reads -/

theorem readIdle_of_not_fifo {r : Reg} (hout : r ≠ .OUT_DATA) (hsym : r ≠ .SYM_DATA) (s : State) :
    readIdle r s = (r.value s, s) := by
  unfold readIdle
  split
  · exact absurd rfl hout
  · exact absurd rfl hsym
  · rfl

/-- Settles O41: only the FIFO registers have a branch of their own in `readIdle`. -/
theorem idleReadHasNoSideEffect : Obligations.IdleReadHasNoSideEffect := by
  intro s r hidle hout hsym
  rw [hostRead_of_idle hidle, readIdle_of_not_fifo hout hsym]
  rfl

/-! ### The unmapped offsets -/

theorem Reg.offset_le (r : Reg) : r.offset ≤ 0x068 := by cases r <;> decide

theorem Reg.at_unmapped {off : Nat} (h : 0x06C ≤ off) : Reg.at off = none := by
  refine Option.eq_none_iff_forall_ne_some.2 fun r hr => ?_
  have hoff := Reg.at_offset hr
  have hle := r.offset_le
  omega

theorem memRead_unmapped {off : Nat} (h : 0x06C ≤ off) (s : State) : memRead off s = (0#32, s) := by
  simp only [memRead, Reg.at_unmapped h]

theorem memWrite_unmapped {off : Nat} (h : 0x06C ≤ off) (v : Word) (s : State) : memWrite off v s = s := by
  simp only [memWrite, Reg.at_unmapped h]

/-- Settles O48: no register has an offset above 0x068. -/
theorem unmappedOffsetsReadZero : Obligations.UnmappedOffsetsReadZero := by
  intro s off v hlo hhi h4
  have hwindow : off < 4096 := by omega
  rw [hostRead_eq s hwindow h4, hostWrite_eq s v hwindow h4, memRead_unmapped hlo, memWrite_unmapped hlo]
  exact ⟨rfl, _, rfl⟩

/-! ### Writes of the register window -/

theorem hostWrite_offset (r : Reg) (v : Word) (s : State) :
    hostWrite (s.cfg.base + r.offset) 4 v s = .next ((memWrite r.offset v s).answer 0#32) :=
  hostWrite_eq s v r.offset_legal.1 r.offset_legal.2

theorem memWrite_of_readOnly {r : Reg} (h : r ∉ [.CTRL, .CMD, .ARG_LO, .ARG_HI, .ARG2]) (v : Word) (s : State) :
    memWrite r.offset v s = s := by
  rw [memWrite, Reg.at_offset_self]
  cases r with
  | CTRL | CMD | ARG_LO | ARG_HI | ARG2 => exact absurd (by decide) h
  | _ => rfl

/-- Settles O49: `memWrite` keeps the other half of ARG, and has no branch for the registers that are only read. -/
theorem writesReachOnlyTheArguments : Obligations.WritesReachOnlyTheArguments := by
  intro s v
  have hlow (hi lo : BitVec 32) : (hi ++ lo).extractLsb' 0 32 = lo := BitVec.extractLsb'_append_eq_right
  have hhigh (hi lo : BitVec 32) : (hi ++ lo).extractLsb' 32 32 = hi := BitVec.extractLsb'_append_eq_left
  refine ⟨⟨_, _, hostWrite_offset .ARG_LO v s, hlow _ v, hhigh _ v⟩,
    ⟨_, _, hostWrite_offset .ARG_HI v s, hhigh v _, hlow v _⟩,
    ⟨_, hostWrite_offset .ARG2 v s⟩, fun r hr => ⟨0#32, ?_⟩⟩
  rw [hostWrite_offset, memWrite_of_readOnly hr]
  rfl

end Sys2Proof.Machine

/-! The statements of 30_encoding.md: a command and its word, the write of CMD, the engine's turn, and WAIT. -/

namespace Sys2Proof.Machine

/-! ### The fields of a command word -/

@[simp] theorem opcField_encode (i : Instr) : opcField (encode i) = i.opcode :=
  (Laws.OpcodeField.fields_append _ _).1

theorem opcField_append_opndField (w : Word) : opcField w ++ opndField w = w := by
  rw [opcField, opndField, BitVec.extractLsb'_append_extractLsb'_eq_extractLsb' (by decide), BitVec.extractLsb'_eq_self]

theorem encode_eq_of_fields {w : Word} {i : Instr} (hopc : opcField w = i.opcode) (hopnd : opndField w = i.operand) :
    encode i = w := by
  rw [encode, ← hopc, ← hopnd, opcField_append_opndField]

/-! ### Each format reads the operand it lays out (30_encoding.md R102 to R106) -/

theorem formatN_append (opc : BitVec 8) (i : Instr) : formatN (opc ++ 0#24) i = .ok i :=
  if_pos BitVec.extractLsb'_append_eq_right

theorem formatS_append (opc : BitVec 8) (c : Sym) (mk : Sym → Instr) :
    formatS (opc ++ (0#3 ++ c : BitVec 24)) mk = .ok (mk c) := by
  simp (disch := decide) only [formatS, extractLsb'_append_of_ge, extractLsb'_append_of_le,
    BitVec.extractLsb'_eq_self, BitVec.extractLsb'_zero, Nat.sub_self]
  rfl

theorem formatI_append (opc : BitVec 8) (n : BitVec 24) (mk : BitVec 24 → Instr) :
    formatI (opc ++ n) mk = .ok (mk n) := by
  rw [formatI, (Laws.OpcodeField.fields_append opc n).2]

theorem formatB_append (opc : BitVec 8) (b : Byte) (mk : Byte → Instr) :
    formatB (opc ++ (0#16 ++ b : BitVec 24)) mk = .ok (mk b) := by
  simp (disch := decide) only [formatB, extractLsb'_append_of_ge, extractLsb'_append_of_le,
    BitVec.extractLsb'_eq_self, BitVec.extractLsb'_zero, Nat.sub_self]
  rfl

theorem formatT_append (opc : BitVec 8) (b : Byte) (t : BitVec 4) (mk : Byte → BitVec 4 → Instr) :
    formatT (opc ++ ((0#12 ++ t : BitVec 16) ++ b : BitVec 24)) mk = .ok (mk b t) := by
  simp (disch := decide) only [formatT, extractLsb'_append_of_ge, extractLsb'_append_of_le,
    BitVec.extractLsb'_eq_self, BitVec.extractLsb'_zero, Nat.sub_self]
  rfl

/-- The decoder reads what the encoder writes. -/
theorem decode_encode (i : Instr) : decode (encode i) = .ok i := by
  rw [decode, opcField_encode]
  cases i with
  | nop | errClr | ftClear | buildTree | genTable | encFlush | dtClear | dtCommit | dtFromCt | decEnd =>
    exact formatN_append _ _
  | ftInc c | ftSet c | ftRead c | encSymbol c | dtLoad c => exact formatS_append _ c _
  | nodeRead n | ctRead n => exact formatI_append _ n _
  | decByte b => exact formatB_append _ b _
  | decLast b t => exact formatT_append _ b t _

/-- Settles O1: every format reads the operand it lays out. -/
theorem decodeOfEncodeIsTheCommand : Obligations.DecodeOfEncodeIsTheCommand := decode_encode

/-! ### Each format lays out the operand it reads -/

section
variable {w : Word} {i : Instr}

theorem formatN_ok {j : Instr} (h : formatN w j = .ok i) : i = j ∧ opndField w = 0#24 := by
  unfold formatN at h
  split at h
  next hz => exact ⟨(Except.ok.inj h).symm, hz⟩
  · cases h

theorem formatS_ok {mk : Sym → Instr} (h : formatS w mk = .ok i) :
    ∃ c : Sym, i = mk c ∧ opndField w = 0#3 ++ c := by
  unfold formatS at h
  split at h
  next hz =>
    refine ⟨_, (Except.ok.inj h).symm, ?_⟩
    rw [← hz, BitVec.extractLsb'_append_extractLsb'_eq_extractLsb' (by decide)]
    rfl
  · cases h

theorem formatI_ok {mk : BitVec 24 → Instr} (h : formatI w mk = .ok i) : i = mk (opndField w) :=
  (Except.ok.inj h).symm

theorem formatB_ok {mk : Byte → Instr} (h : formatB w mk = .ok i) :
    ∃ b : Byte, i = mk b ∧ opndField w = 0#16 ++ b := by
  unfold formatB at h
  split at h
  next hz =>
    refine ⟨_, (Except.ok.inj h).symm, ?_⟩
    rw [← hz, BitVec.extractLsb'_append_extractLsb'_eq_extractLsb' (by decide)]
    rfl
  · cases h

theorem formatT_ok {mk : Byte → BitVec 4 → Instr} (h : formatT w mk = .ok i) :
    ∃ (b : Byte) (t : BitVec 4), i = mk b t ∧ opndField w = (0#12 ++ t : BitVec 16) ++ b := by
  unfold formatT at h
  split at h
  next hz =>
    refine ⟨_, _, (Except.ok.inj h).symm, ?_⟩
    rw [← hz, BitVec.extractLsb'_append_extractLsb'_eq_extractLsb' (by decide),
      BitVec.extractLsb'_append_extractLsb'_eq_extractLsb' (by decide)]
    rfl
  · cases h

/-- The encoder writes what the decoder reads; the arms are those of the map of 30_encoding.md R108, in its order. -/
theorem encode_of_decode (h : decode w = .ok i) : encode i = w := by
  unfold decode at h
  split at h
  case h_1 hopc | h_2 hopc | h_3 hopc | h_7 hopc | h_9 hopc | h_12 hopc | h_13 hopc | h_15 hopc | h_16 hopc
      | h_19 hopc =>
    obtain ⟨rfl, hopnd⟩ := formatN_ok h
    exact encode_eq_of_fields hopc hopnd
  case h_4 hopc | h_5 hopc | h_6 hopc | h_11 hopc | h_14 hopc =>
    obtain ⟨c, rfl, hopnd⟩ := formatS_ok h
    exact encode_eq_of_fields hopc hopnd
  case h_8 hopc | h_10 hopc =>
    obtain rfl := formatI_ok h
    exact encode_eq_of_fields hopc rfl
  case h_17 hopc =>
    obtain ⟨b, rfl, hopnd⟩ := formatB_ok h
    exact encode_eq_of_fields hopc hopnd
  case h_18 hopc =>
    obtain ⟨b, t, rfl, hopnd⟩ := formatT_ok h
    exact encode_eq_of_fields hopc hopnd
  case h_20 => cases h

end

/-- Settles O2: a word is its two fields, and every arm of the decoder fixes both. -/
theorem encodeOfDecodeIsTheWord : Obligations.EncodeOfDecodeIsTheWord := fun _ _ h => encode_of_decode h

/-- Settles O4: its words are fixed, so both directions are evaluated. -/
theorem exampleWordsOfTheSpecDecode : Obligations.ExampleWordsOfTheSpecDecode := by
  unfold Obligations.ExampleWordsOfTheSpecDecode
  decide

/-! ### Illegal words -/

theorem engineStep_illegal {s : State} {p : Latched} {e : Illegal} (hp : s.pend = some p)
    (hd : decode p.word = .error e) : engineStep s = .next (s.recordError .ILLEGAL_CMD (opcField p.word)).clearPend := by
  simp only [engineStep, hp, hd, retire_next]

/-- A word that encodes no command is illegal (30_encoding.md R109). -/
theorem wordIllegal_of_forall_ne_encode {w : Word} (h : ∀ i, w ≠ encode i) : WordIllegal w := by
  intro s a a2 hp
  cases hd : decode w with
  | ok i => exact absurd (encode_of_decode hd).symm (h i)
  | error e => exact engineStep_illegal (p := ⟨w, a, a2⟩) hp hd

theorem opcode_mem (i : Instr) : i.opcode ∈ [0x00#8, 0x01#8, 0x10#8, 0x11#8, 0x12#8, 0x13#8, 0x20#8, 0x21#8,
    0x22#8, 0x23#8, 0x30#8, 0x31#8, 0x40#8, 0x41#8, 0x42#8, 0x43#8, 0x48#8, 0x49#8, 0x4A#8] := by
  cases i <;> simp [Instr.opcode]

section
variable {i : Instr}

theorem extractLsb'_encode {start len : Nat} (h : start + len ≤ 24) :
    (encode i).extractLsb' start len = i.operand.extractLsb' start len :=
  extractLsb'_append_of_ge h _ _

theorem operand_of_formatN (h : i.opcode ∈ [0x00#8, 0x01#8, 0x10#8, 0x20#8, 0x22#8, 0x31#8, 0x40#8, 0x42#8, 0x43#8,
    0x4A#8]) : i.operand = 0#24 := by
  cases i with
  | nop | errClr | ftClear | buildTree | genTable | encFlush | dtClear | dtCommit | dtFromCt | decEnd => rfl
  | _ => simp [Instr.opcode] at h

theorem operand_of_formatS (h : i.opcode ∈ [0x11#8, 0x12#8, 0x13#8, 0x30#8, 0x41#8]) :
    ∃ c : Sym, i.operand = 0#3 ++ c := by
  cases i with
  | ftInc c | ftSet c | ftRead c | encSymbol c | dtLoad c => exact ⟨c, rfl⟩
  | _ => simp [Instr.opcode] at h

theorem operand_of_formatB (h : i.opcode = 0x48#8) : ∃ b : Byte, i.operand = 0#16 ++ b := by
  cases i with
  | decByte b => exact ⟨b, rfl⟩
  | _ => simp [Instr.opcode] at h

theorem operand_of_formatT (h : i.opcode = 0x49#8) :
    ∃ (b : Byte) (t : BitVec 4), i.operand = (0#12 ++ t : BitVec 16) ++ b := by
  cases i with
  | decLast b t => exact ⟨b, t, rfl⟩
  | _ => simp [Instr.opcode] at h

end

/-- Settles O3: the encoding of a command has an opcode of the map, and every must-be-0 bit of its format is 0. -/
theorem reservedOpcodesAndBitsAreIllegal : Obligations.ReservedOpcodesAndBitsAreIllegal := by
  intro w
  refine ⟨fun hopc => ?_, fun hopc hbits => ?_, fun hopc hbits => ?_, fun hopc hbits => ?_, fun hopc hbits => ?_⟩ <;>
    refine wordIllegal_of_forall_ne_encode ?_ <;> rintro i rfl <;> rw [opcField_encode] at hopc
  · exact hopc (opcode_mem i)
  · refine hbits ?_
    rw [extractLsb'_encode (by decide), operand_of_formatN hopc]
    rfl
  · obtain ⟨c, hc⟩ := operand_of_formatS hopc
    refine hbits ?_
    rw [extractLsb'_encode (by decide), hc, extractLsb'_append_of_le (by decide)]
    rfl
  · obtain ⟨b, hb⟩ := operand_of_formatB hopc
    refine hbits ?_
    rw [extractLsb'_encode (by decide), hb, extractLsb'_append_of_le (by decide)]
    rfl
  · obtain ⟨b, t, hbt⟩ := operand_of_formatT hopc
    refine hbits ?_
    rw [extractLsb'_encode (by decide), hbt, extractLsb'_append_of_le (by decide), extractLsb'_append_of_le (by decide)]
    rfl

/-! ### The write of CMD (30_encoding.md R111) -/

theorem hostWrite_cmd (w : Word) (s : State) :
    hostWrite (s.cfg.base + 0x010) 4 w s = .next ((submit w s).answer 0#32) :=
  hostWrite_offset .CMD w s

theorem submit_of_busy (w : Word) {s : State} (hbusy : s.busy = true) :
    submit w s = s.recordError .BUSY_CMD (w.extractLsb' 24 8) := if_pos hbusy

theorem submit_of_err {w : Word} {s : State} (hidle : s.busy = false) (herr : s.err = true)
    (hopc : w.extractLsb' 24 8 ∉ [0x00#8, 0x01#8]) : submit w s = s := by
  rw [List.mem_pair, not_or] at hopc
  simp [submit, hidle, herr, hopc]

theorem submit_latches {w : Word} {s : State} (hidle : s.busy = false)
    (htaken : s.err = false ∨ w.extractLsb' 24 8 ∈ [0x00#8, 0x01#8]) :
    submit w s = { s with pend := some { word := w, arg := s.arg, arg2 := s.arg2 } } := by
  unfold submit
  rw [hidle, if_neg Bool.false_ne_true, if_neg]
  rcases htaken with herr | hopc
  · simp [herr]
  · rcases List.mem_pair.1 hopc with h | h <;> simp [h]

/-- Settles O5: a write of CMD is `submit`, by its three branches. -/
theorem cmdWriteSubmitsTheWord : Obligations.CmdWriteSubmitsTheWord := by
  intro s w
  rw [hostWrite_cmd]
  refine ⟨fun hbusy => ⟨0#32, ?_⟩, fun hidle herr hopc => ⟨0#32, ?_⟩,
    fun hidle htaken => ⟨_, 0#32, rfl, ?_, ?_⟩⟩
  · rw [submit_of_busy w hbusy]
  · rw [submit_of_err hidle herr hopc]
  · rw [submit_latches hidle htaken]
    rfl
  · rw [submit_latches hidle htaken]
    rfl

/-! ### The outcome of a command (30_encoding.md R112) -/

/-- Settles O8: a command that succeeds leaves the error state alone, but for ERR_CLR. -/
theorem failedCommandChangesOnlyTheErrorState : Obligations.FailedCommandChangesOnlyTheErrorState := by
  intro i s t h
  rcases exec_cases h with hfail | heffect
  · exact .inl hfail
  · by_cases hi : i = .errClr
    · subst hi
      obtain rfl := heffect
      exact .inr (.inl ⟨rfl, rfl, rfl, rfl⟩)
    · obtain ⟨-, -, hkeep⟩ := heffect.frame
      exact .inr (.inr (by simpa only [State.errorState, Prod.mk.injEq] using hkeep hi))

/-- No arm of `exec` stops the machine (60_exceptions.md R222). -/
theorem exec_next (i : Instr) (s : State) : ∃ t, exec i s = .next t := by
  cases i with
  | nop | errClr | ftClear | dtClear => exact ⟨_, rfl⟩
  | _ => exact finish_next s _ _

/-! ### The engine's turn (30_encoding.md R112) -/

theorem engineStep_idle {s : State} (hp : s.pend = none) : engineStep s = .next s := by
  simp only [engineStep, hp]

/-- An engine turn takes place and leaves no command latched. -/
theorem engineStep_next (s : State) : ∃ t, engineStep s = .next t ∧ t.pend = none := by
  cases hp : s.pend with
  | none => exact ⟨s, engineStep_idle hp, hp⟩
  | some p =>
    cases hd : decode p.word with
    | ok i =>
      obtain ⟨t, ht⟩ := exec_next i s
      exact ⟨_, engineStep_latched hp hd ht, rfl⟩
    | error e => exact ⟨_, engineStep_illegal hp hd, rfl⟩

theorem step_of_agenda_nil {s : State} (h : s.agenda = []) : step s = engineStep s := by
  rw [step, turn, h]
  rfl

theorem step_of_agenda_cons {s : State} {m : Move} {rest : List Move} (h : s.agenda = m :: rest) :
    step s = act m { s with agenda := rest } := by
  rw [step, turn, h]

/-- The first step after `withFetchWord` is the engine's on the latched word. -/
theorem step_withFetchWord_encode (s : State) (i : Instr) :
    step (s.withFetchWord 32 (encode i).toNat) = engineStep (s.latchCommand i) := by
  rw [step_of_agenda_cons rfl, State.withFetchWord, Nat.mod_eq_of_lt (encode i).isLt, BitVec.ofNat_toNat,
    BitVec.setWidth_eq]
  rfl

/-- Settles O6: a step is the listed turn, or the engine's when none is. -/
theorem engineTurnRunsTheDecodedCommand : Obligations.EngineTurnRunsTheDecodedCommand := by
  refine ⟨fun s t p i rest hp hd => ⟨fun hag hx => ?_, fun hag hx => ?_⟩, fun s t i hx => ?_,
    fun s addr width v rest => ⟨step_of_agenda_cons, step_of_agenda_cons⟩⟩
  · rw [step_of_agenda_cons hag]
    exact engineStep_latched (s := { s with agenda := rest }) hp hd hx
  · rw [step_of_agenda_nil hag]
    exact engineStep_latched hp hd hx
  · rw [step_withFetchWord_encode]
    exact engineStep_latched (s := s.latchCommand i) rfl (decode_encode i) hx

/-! ### WAIT and a command line (30_encoding.md R114) -/

/-- A WAIT, with a command latched or not, leaves what the engine's turn leaves, but for the bus's answer and the count
of draws; its last read is the one that finds BUSY = 0. -/
theorem wait_eq (n : Nat) {s t : State} (h : engineStep s = .next t) (hp : t.pend = none) :
    ∃ d, (wait n).run s = (t.status, t.outside { value := t.status, error := false } d) := by
  cases hbusy : s.busy with
  | false =>
    have hidle : s.pend = none := by simpa [State.busy] using hbusy
    obtain rfl := Host.Outcome.next.inj ((engineStep_idle hidle).symm.trans h)
    exact ⟨s.draws, wait_idle n s hidle⟩
  | true =>
    obtain ⟨a, d, hwait⟩ := wait_busy n s hbusy
    have hturn : take .engine (s.outside a d) = ((), t.outside a d) :=
      take_next (m := .engine) (engineStep_outside a d h)
    refine ⟨d, ?_⟩
    rw [StateT.run, hwait, hturn, rd_idle .STATUS (t.outside a d) hp (by decide) (by decide)]
    rfl

theorem commandNoWait_state {i : Instr} {s t : State} (h : hostWrite (s.cfg.base + 0x010) 4 (encode i) s = .next t) :
    ((commandNoWait i).run s).2 = t :=
  congrArg Prod.snd (take_next (m := .hostWrite (s.cfg.base + 0x010) 4 (encode i)) h)

theorem command_state (n : Nat) (i : Instr) (s : State) :
    ((command n i).run s).2 = ((wait n).run ((commandNoWait i).run s).2).2 := rfl

/-- A command line under any number of polls leaves one state, but for the count of draws. -/
theorem command_polls (n m : Nat) (i : Instr) (s : State) :
    ∃ d, ((command n i).run s).2 = { ((command m i).run s).2 with draws := d } := by
  obtain ⟨t, ht, hp⟩ := engineStep_next ((commandNoWait i).run s).2
  obtain ⟨d, hn⟩ := wait_eq n ht hp
  obtain ⟨d', hm⟩ := wait_eq m ht hp
  refine ⟨d, ?_⟩
  rw [command_state, command_state, hn, hm]

/-- Settles O56: a poll is a read of STATUS, which the engine's turn does not see. -/
theorem pollingDoesNotChangeTheCommand : Obligations.PollingDoesNotChangeTheCommand := by
  intro n i s
  obtain ⟨d, hpolls⟩ := command_polls n 0 i s
  obtain ⟨u, hu, hp⟩ := engineStep_next s
  obtain ⟨d', hwait⟩ := wait_eq n hu hp
  have hidle : u.busy = false := by rw [State.busy, hp, Option.isSome_none]
  refine ⟨d, hpolls, ⟨u, d', hu, hidle, ?_, hwait⟩, fun t ht => ⟨commandNoWait_state ht, ?_⟩⟩
  · rw [status_bit_zero, hidle]
  · rw [command_state, commandNoWait_state ht]

end Sys2Proof.Machine

/-! The statements of 40_tree_builder.md: the formats of its commands, the frequency table, and the tree. -/

namespace Sys2Proof.Machine

/-! ### The words of a command, by its format (30_encoding.md R102 to R104) -/

/-- The engine runs what the decoder reads. -/
theorem wordRuns_of_decode {w : Word} {i : Instr} (hd : decode w = .ok i) : WordRuns w i :=
  fun _ _ a a2 hp hx => engineStep_latched (p := ⟨w, a, a2⟩) hp hd hx

/-- A word with the two fields of a command runs it. -/
theorem wordRuns_of_fields {w : Word} {i : Instr} (hopc : opcField w = i.opcode) (hopnd : opndField w = i.operand) :
    WordRuns w i :=
  wordRuns_of_decode (encode_eq_of_fields hopc hopnd ▸ decode_encode i)

theorem hasFormatN_of_opcode {opc : BitVec 8} {i : Instr}
    (h : opc ∈ [0x00#8, 0x01#8, 0x10#8, 0x20#8, 0x22#8, 0x31#8, 0x40#8, 0x42#8, 0x43#8, 0x4A#8])
    (hopc : i.opcode = opc) : HasFormatN opc i := by
  intro w hw
  obtain ⟨-, hbits, -⟩ := reservedOpcodesAndBitsAreIllegal w
  exact ⟨fun h0 => wordRuns_of_fields (hw.trans hopc.symm) (h0.trans (operand_of_formatN (hopc ▸ h)).symm),
    hbits (hw ▸ h)⟩

theorem hasFormatS_of_operand {opc : BitVec 8} {mk : Sym → Instr}
    (h : opc ∈ [0x11#8, 0x12#8, 0x13#8, 0x30#8, 0x41#8]) (hopc : ∀ c, (mk c).opcode = opc)
    (hopnd : ∀ c, (mk c).operand = 0#3 ++ c) : HasFormatS opc mk := by
  intro w hw
  obtain ⟨-, -, hbits, -⟩ := reservedOpcodesAndBitsAreIllegal w
  refine ⟨fun h0 => wordRuns_of_fields (hw.trans (hopc _).symm) ?_, hbits (hw ▸ h)⟩
  rw [hopnd, ← h0, BitVec.extractLsb'_append_extractLsb'_eq_extractLsb' (by decide)]
  rfl

theorem hasFormatI_of_operand {opc : BitVec 8} {mk : BitVec 24 → Instr} (hopc : ∀ n, (mk n).opcode = opc)
    (hopnd : ∀ n, (mk n).operand = n) : HasFormatI opc mk := fun _ hw =>
  wordRuns_of_fields (hw.trans (hopc _).symm) (hopnd _).symm

/-! ### The frequency table (R127 to R130) -/

/-- Settles O17: FT_CLEAR has no check. -/
theorem ftClearEmptiesFt : Obligations.FtClearEmptiesFt :=
  ⟨hasFormatN_of_opcode (by decide) rfl, fun _ => rfl⟩

/-- Settles O18: FT_INC is one `ftPut` behind its three checks. -/
theorem ftIncCountsOneOccurrence : Obligations.FtIncCountsOneOccurrence := by
  refine ⟨hasFormatS_of_operand (by decide) (fun _ => rfl) fun _ => rfl, fun s c =>
    ⟨fun hc => ?_, fun hc hhas hfull => ?_, fun hc hhas hmax => ?_, fun hc hmax hroom =>
      ⟨ftPut s.ft c (ftCount s.ft c + 1#64), ?_, ftCount_ftPut _ _ _, ftHas_ftPut _ _ _,
        fun hw => length_ftPut _ (ftWf_iff.1 hw).1 _ _⟩⟩⟩
  · simp [exec, execFtInc, hc]
  · simp [exec, execFtInc, hc, hhas, hfull]
  · simp [exec, execFtInc, hc, hhas, hmax]
  · have hcount : ftHas s.ft c = true → (ftCount s.ft c).toNat ≠ 0xFFFFFFFFFFFFFFFF :=
      fun hhas heq => hmax hhas (BitVec.eq_of_toNat_eq heq)
    cases hhas : ftHas s.ft c with
    | true => simp [exec, execFtInc, hc, hhas, beq_false_of_ne (hcount hhas), State.invalidateTree]
    | false => simp [exec, execFtInc, hc, hhas, beq_false_of_ne (hroom hhas), State.invalidateTree]

theorem ftHas_ftRemove (ft : List (Sym × Count)) (c x : Sym) :
    ftHas (ftRemove ft c) x = if x = c then false else ftHas ft x := by
  rw [Bool.eq_iff_iff]
  split
  next h => simp [ftHas_iff, ftRemove, h]
  next h => simp [ftHas_iff, ftRemove, h]

/-- Settles O19: FT_SET is one `ftRemove` or one `ftPut` behind its two checks. -/
theorem ftSetSetsTheCount : Obligations.FtSetSetsTheCount := by
  refine ⟨hasFormatS_of_operand (by decide) (fun _ => rfl) fun _ => rfl, fun s c =>
    ⟨fun hc => ?_, fun hc ha hhas hfull => ?_, fun hc hroom =>
      ⟨if s.snapArg = 0#64 then ftRemove s.ft c else ftPut s.ft c s.snapArg, ?_, fun x => ?_, fun x => ?_⟩⟩⟩
  · simp [exec, execFtSet, hc]
  · simp [exec, execFtSet, hc, bne_iff_ne.2 ha, hhas, hfull]
  · have hpass : (s.snapArg != 0#64 && !ftHas s.ft c && s.ft.length == s.cfg.nSym) = false := by
      rcases hroom with h | h | h <;> simp [h]
    simp [exec, execFtSet, hc, hpass, State.invalidateTree]
  · split
    next ha => rw [ftCount_ftRemove, ha]
    next => rw [ftCount_ftPut]
  · split
    next ha => simp [ftHas_ftRemove, ha]
    next ha => by_cases hx : x = c <;> simp [ftHas_ftPut, ha, hx]

/-- A pair of a table in canonical form is the only one of its symbol. -/
theorem ftCount_of_mem {ft : List (Sym × Count)} (hw : ftWf ft = true) {c : Sym} {n : Count} (h : (c, n) ∈ ft) :
    ftCount ft c = n := by
  replace hw := (ftWf_iff.1 hw).1
  induction ft with
  | nil => cases h
  | cons p rest ih =>
    obtain ⟨hlt, hrest⟩ := List.pairwise_cons.1 hw
    rcases List.mem_cons.1 h with rfl | h
    · exact if_pos rfl
    · have hne : p.1 ≠ c := fun he => absurd (hlt _ h) (he ▸ lt_irrefl _)
      rw [ftCount_cons, if_neg hne, ih h hrest]

theorem exec_ftRead_scalar {c : Sym} (hc : scalar c = true) (s : State) :
    exec (.ftRead c) s = .next (s.setResult (ftCount s.ft c) 0#32 0#32) := by
  simp [exec, execFtRead, hc]

/-- Settles O20: FT_READ is `ftCount` behind its one check. -/
theorem ftReadReadsTheCount : Obligations.FtReadReadsTheCount := by
  refine ⟨hasFormatS_of_operand (by decide) (fun _ => rfl) fun _ => rfl, fun s c =>
    ⟨fun hc => ?_, fun hc hhas => ?_, fun n hc hw hmem => ?_⟩⟩
  · simp [exec, execFtRead, hc]
  · rw [exec_ftRead_scalar hc, ftCount_of_not_has hhas]
    rfl
  · rw [exec_ftRead_scalar hc, ftCount_of_mem hw hmem]
    rfl

/-! ### BUILD_TREE (R131 to R137) -/

theorem exec_buildTree_ok {s : State} {nodes : List Node} (h : buildNodes s.ft = .ok nodes) :
    exec .buildTree s = .next { s with
      treeValid := true, nodes := nodes, ctValid := false, ct := [], ctMaxLen := 0 } := by
  simp only [exec, execBuildTree, h, finish_ok]

theorem exec_buildTree_error {s : State} {e : ErrCode} (h : buildNodes s.ft = .error e) :
    exec .buildTree s = .next (s.recordError e 0x20#8) := by
  simp only [exec, execBuildTree, h, finish_error]

/-- No merge sum is more than the total of the counts. -/
theorem buildNodes_ok_of_total {ft : List (Sym × Count)} (h : ftTotal ft < 2 ^ 64) :
    ∃ nodes, buildNodes ft = .ok nodes := by
  cases hb : buildNodes ft with
  | ok nodes => exact ⟨nodes, rfl⟩
  | error e => exact absurd hb (mergeLoop_ok ((loopInv_init ft).total ▸ h))

/-- The last member of the queue holds the total, in 64 bits. -/
theorem total_lt_of_buildNodes {ft : List (Sym × Count)} {nodes : List Node} (hw : ftWf ft = true)
    (h : buildNodes ft = .ok nodes) : ftTotal ft < 2 ^ 64 := by
  obtain ⟨q, hq, hl⟩ := buildNodes_inv hw h
  rw [← hq.total]
  match q, hl with
  | [], _ => simp
  | [x], _ => simpa using x.1.freq.isLt

/-- Settles O21: the loop's invariant holds of the finished arena, with one member left in the queue. -/
theorem buildTreeMergesLeastKeys : Obligations.BuildTreeMergesLeastKeys := by
  refine ⟨hasFormatN_of_opcode (by decide) rfl, fun s hw htotal => ?_⟩
  obtain ⟨nodes, hb⟩ := buildNodes_ok_of_total htotal
  obtain ⟨q, hq, hl⟩ := buildNodes_inv hw hb
  refine ⟨nodes, exec_buildTree_ok hb, buildNodes_length hw hb, hq.leaves, hq.merges, fun j hj => ?_⟩
  obtain ⟨m, hm⟩ := hq.has_parent hl hj
  exact ⟨m, hm, fun m' hm' => hq.oneParent j m' m hm' hm⟩

/-- Settles O22: a finished arena has a total below 2^64, and a merge raises no other error. -/
theorem buildTreeOverflowFailsWhole : Obligations.BuildTreeOverflowFailsWhole := by
  intro s hw htotal
  cases hb : buildNodes s.ft with
  | ok nodes => exact absurd (total_lt_of_buildNodes hw hb) htotal.not_gt
  | error e =>
    obtain rfl := mergeLoop_error hb
    exact exec_buildTree_error hb

/-! ### NODE_READ (R138) -/

/-- Settles O23: an index below 2^24 keeps its value in a result register. -/
theorem nodeReadReadsTheNode : Obligations.NodeReadReadsTheNode := by
  refine ⟨hasFormatI_of_operand (fun _ => rfl) fun _ => rfl, fun s i =>
    ⟨fun hv => ?_, fun hv hi => ?_, fun f c hv hn => ?_, fun f l r hv hn hl hr => ?_⟩⟩
  · simp [exec, execNodeRead, hv]
  · simp [exec, execNodeRead, hv, List.getElem?_eq_none hi]
  · simp [exec, execNodeRead, hv, hn, State.setResult]
  · simp [exec, execNodeRead, hv, hn, State.setResult,
      BitVec.setWidth_ofNat_of_le_of_lt (by decide : 24 ≤ 32) hl,
      BitVec.setWidth_ofNat_of_le_of_lt (by decide : 24 ≤ 32) hr]

end Sys2Proof.Machine

/-! The statements of 41_code_table.md: GEN_TABLE, the code table while CT_VALID = 1, and CT_READ. -/

namespace Sys2Proof.Machine

/-! ### GEN_TABLE (41_code_table.md R146 to R148) -/

theorem exec_genTable_ok {s : State} {ct : List Entry} (ht : s.treeValid = true)
    (h : codeTable s.cfg.lMax s.nodes = .ok ct) :
    exec .genTable s = .next { s with ctValid := true, ct := ct, ctMaxLen := maxLen ct } := by
  simp [exec, execGenTable, ht, h]

theorem exec_genTable_error {s : State} {e : ErrCode} (ht : s.treeValid = true)
    (h : codeTable s.cfg.lMax s.nodes = .error e) :
    exec .genTable s = .next (s.recordError e 0x22#8) := by
  simp [exec, execGenTable, ht, h]

theorem codeTable_nil (lMax : Nat) : codeTable lMax [] = .ok [] := rfl

theorem codeTable_leaf {lMax : Nat} (h : 1 ≤ lMax) (f : Count) (c : Sym) :
    codeTable lMax [.leaf f c] = .ok [{ sym := c, len := 1, val := 0#64 }] :=
  if_neg (show ¬ lMax < 1 from h.not_gt)

/-- The ways the table is made of are the paths from the root, the last node. -/
theorem mem_codePaths_iff {nodes : List Node} (h : ChildrenBelow nodes) (h2 : 2 ≤ nodes.length) {bits : List Bool}
    {c : Sym} : (bits, c) ∈ codePaths nodes ↔ CodePath nodes (nodes.length - 1) bits c := by
  rw [codePaths_of_two h2, codePath_iff h (fuel := nodes.length) (by omega)]

/-- With L_MAX at least N_SYM - 1 no code is too long (41_code_table.md R150). -/
theorem State.Inv.codeTable_ok {s : State} (h : s.Inv) (ht : s.treeValid = true) (hroom : s.cfg.nSym - 1 ≤ s.cfg.lMax) :
    ∃ ct, codeTable s.cfg.lMax s.nodes = .ok ct := by
  refine Machine.codeTable_ok fun p hp => ?_
  obtain ⟨-, -, hmin, -⟩ := paramsWf_iff.1 h.params
  have hlen := (codePaths_length h.builder.ftForm (h.builder.tree ht) hp).2
  have hft := h.builder.ftRoom
  omega

/-! ### The table of a tree (41_code_table.md R149, R150) -/

section
variable {ft : List (Sym × Count)} {nodes : List Node} {lMax : Nat} {ct : List Entry}

theorem TableOf.length_eq (h : TableOf ft nodes lMax ct) : ct.length = ft.length := by
  simpa using congrArg List.length h.syms

/-- The ways of the tree and the entries of the table are one another's. -/
theorem TableOf.mem_codePaths (h : TableOf ft nodes lMax ct) {p : List Bool × Sym} :
    p ∈ codePaths nodes ↔ ∃ e ∈ ct, (e.bits, e.sym) = p := by
  rw [← h.codes.mem_iff, List.mem_map]

theorem TableOf.bits_mem (h : TableOf ft nodes lMax ct) {e : Entry} (he : e ∈ ct) :
    (e.bits, e.sym) ∈ codePaths nodes := h.mem_codePaths.2 ⟨e, he, rfl⟩

theorem TableOf.val_lt (h : TableOf ft nodes lMax ct) {e : Entry} (he : e ∈ ct) : e.val.toNat < 2 ^ e.len :=
  (codeLegal_iff.1 (h.legal e he)).2.2

/-- An entry is a way of the tree, read as a length and a number. -/
theorem TableOf.mem_iff (h : TableOf ft nodes lMax ct) {e : Entry} :
    e ∈ ct ↔ ∃ bits, (bits, e.sym) ∈ codePaths nodes ∧ e.len = bits.length ∧ e.val.toNat = bitsValue bits := by
  constructor
  · exact fun he => ⟨e.bits, h.bits_mem he, e.length_bits.symm, (bitsValue_codeBits (h.val_lt he)).symm⟩
  · rintro ⟨bits, hp, hlen, hval⟩
    obtain ⟨e', he', heq⟩ := h.mem_codePaths.1 hp
    obtain ⟨rfl, hsym⟩ := Prod.mk.inj heq
    have hlen' : e.len = e'.len := hlen.trans e'.length_bits
    have hval' : e.val = e'.val := BitVec.eq_of_toNat_eq (hval.trans (bitsValue_codeBits (h.val_lt he')))
    have hee' : e' = e := by
      cases e; cases e'
      exact Entry.mk.injEq .. ▸ ⟨hsym, hlen'.symm, hval'.symm⟩
    exact hee' ▸ he'

theorem TableOf.len_bounds (h : TableOf ft nodes lMax ct) (hw : ftWf ft = true) (hb : buildNodes ft = .ok nodes)
    {e : Entry} (he : e ∈ ct) : 1 ≤ e.len ∧ e.len ≤ max 1 (ct.length - 1) := by
  simpa [h.length_eq] using codePaths_length hw hb (h.bits_mem he)

theorem TableOf.pairwise_bits_ne (h : TableOf ft nodes lMax ct) : ct.Pairwise fun a b => a.bits ≠ b.bits :=
  h.noPrefixPair.imp fun ⟨hab, _⟩ heq => hab (heq ▸ List.prefix_rfl)

theorem TableOf.pairwise_sym_ne (h : TableOf ft nodes lMax ct) (hw : ftWf ft = true) :
    ct.Pairwise fun a b => a.sym ≠ b.sym :=
  (h.sorted hw).imp fun hlt heq => hlt.ne (congrArg BitVec.toNat heq)

theorem TableOf.sym_mem_iff (h : TableOf ft nodes lMax ct) (c : Sym) :
    (∃ e ∈ ct, e.sym = c) ↔ ftHas ft c = true := by
  have hmem : c ∈ ct.map Entry.sym ↔ c ∈ ft.map Prod.fst := by rw [h.syms]
  simpa [ftHas_iff] using hmem

/-- The Kraft sum is that of the ways from the root. -/
theorem TableOf.kraft (h : TableOf ft nodes lMax ct) (hw : ftWf ft = true) (hb : buildNodes ft = .ok nodes)
    (h2 : 2 ≤ ct.length) : (ct.map fun e => 2 ^ (maxLen ct - e.len)).sum = 2 ^ maxLen ct := by
  have hn : 2 ≤ nodes.length := by
    have := buildNodes_length hw hb
    have := h.length_eq
    omega
  have hsum := (h.codes.map fun p => 2 ^ (maxLen ct - p.1.length)).sum_eq
  simp only [List.map_map, Function.comp_def, Entry.length_bits] at hsum
  rw [hsum, codePaths_of_two hn]
  refine paths_kraft (buildNodes_below hw hb) (by omega) (by omega) fun p hp => ?_
  obtain ⟨e, he, rfl⟩ := h.mem_codePaths.1 (codePaths_of_two hn ▸ hp)
  exact e.length_bits.symm ▸ len_le_maxLen he

/-- The code of a lone symbol has one bit, so its Kraft sum is 1/2. -/
theorem TableOf.kraft_of_lone (h : TableOf ft nodes lMax ct) (hw : ftWf ft = true) (hb : buildNodes ft = .ok nodes)
    (h1 : ct.length = 1) : 2 * (ct.map fun e => 2 ^ (maxLen ct - e.len)).sum = 2 ^ maxLen ct := by
  obtain ⟨e, rfl⟩ := List.length_eq_one_iff.1 h1
  have hlen := h.len_bounds hw hb (List.mem_singleton_self e)
  have : e.len = 1 := by simpa using le_antisymm hlen.2 hlen.1
  simp [maxLen, this]

/-- Entry k is the code of leaf k. -/
theorem TableOf.leaf_of_getElem? (h : TableOf ft nodes lMax ct) (hw : ftWf ft = true)
    (hb : buildNodes ft = .ok nodes) {k : Nat} {e : Entry} (he : ct[k]? = some e) :
    ∃ f, nodes[k]? = some (.leaf f e.sym) := by
  obtain ⟨q, hq, -⟩ := buildNodes_inv hw hb
  have hsym : (ft.map Prod.fst)[k]? = some e.sym := by rw [← h.syms, List.getElem?_map, he]; rfl
  rw [List.getElem?_map, Option.map_eq_some_iff] at hsym
  obtain ⟨⟨c, n⟩, hk, rfl⟩ := hsym
  exact ⟨n, hq.leaves k _ n hk⟩

end

/-! ### The statements about the table -/

/-- Settles O24: the table is made of the ways from the root, and fails if one of them is longer than L_MAX. -/
theorem genTableBindsLeavesToPaths : Obligations.GenTableBindsLeavesToPaths := by
  refine ⟨hasFormatN_of_opcode (by decide) rfl, fun s =>
    ⟨fun ht => ?_, fun ht hn => ?_, fun f c ht hn hl => ?_, fun hb ht h2 hlong => ?_, fun hb hl ht h2 hshort => ?_⟩⟩
  · simp [exec, execGenTable, ht]
  · exact exec_genTable_ok ht (hn ▸ codeTable_nil _)
  · exact exec_genTable_ok ht (hn ▸ codeTable_leaf hl f c)
  · obtain ⟨bits, c, hp, hlen⟩ := hlong
    have hbelow := buildNodes_below hb.ftForm (hb.tree ht)
    exact exec_genTable_error ht (codeTable_tooLong ((mem_codePaths_iff hbelow h2).2 hp) hlen)
  · have hbelow := buildNodes_below hb.ftForm (hb.tree ht)
    obtain ⟨ct, hct⟩ := codeTable_ok fun p hp => hshort p.1 p.2 ((mem_codePaths_iff hbelow h2).1 hp)
    have htab := codeTable_spec hb.ftForm (hb.tree ht) hl hct
    refine ⟨ct, exec_genTable_ok ht hct, htab.sorted hb.ftForm, fun e => ?_⟩
    simp only [htab.mem_iff, mem_codePaths_iff hbelow h2]

/-- Settles O25: the symbols of the table are those of FT, in order, and so are those of the leaves. -/
theorem codeTableAscendsLikeTheLeaves : Obligations.CodeTableAscendsLikeTheLeaves := by
  intro s h hv
  have hb := h.builder.tree (h.generator.table hv).1
  exact ⟨(h.tableOf hv).sorted h.builder.ftForm, fun _ _ => (h.tableOf hv).leaf_of_getElem? h.builder.ftForm hb⟩

/-- Settles O26: by what is known of the table of a tree of FT. -/
theorem codeTableIsCompleteAndPrefixFree : Obligations.CodeTableIsCompleteAndPrefixFree := by
  refine fun s h => ⟨fun hv => ?_, fun ht hroom => ?_⟩
  · obtain ⟨ht, -, hmax⟩ := h.generator.table hv
    have hw := h.builder.ftForm
    have hb := h.builder.tree ht
    have htab := h.tableOf hv
    rw [hmax]
    refine ⟨htab.pairwise_sym_ne hw, htab.sym_mem_iff, htab.noPrefixPair, htab.pairwise_bits_ne,
      fun h2 => ⟨fun e he => ?_, htab.kraft hw hb h2⟩, htab.kraft_of_lone hw hb⟩
    rw [← max_eq_right (by omega : 1 ≤ s.ct.length - 1)]
    exact htab.len_bounds hw hb he
  · obtain ⟨ct, hct⟩ := h.codeTable_ok ht hroom
    exact ⟨ct, exec_genTable_ok ht hct⟩

/-! ### CT_READ (41_code_table.md R151) -/

/-- What CT_READ puts in RES_AUX: the length from bit 24 on and the symbol from bit 0 on. -/
def ctReadAux (len : BitVec 7) (c : Sym) : Word := (len.setWidth 32 <<< 24) ||| c.setWidth 32

theorem exec_ctRead_ok {s : State} {i : BitVec 24} {e : Entry} (hv : s.ctValid = true) (he : s.ct[i.toNat]? = some e) :
    exec (.ctRead i) s = .next (s.setResult e.val (ctReadAux (BitVec.ofNat 7 e.len) e.sym) 0#32) := by
  simp [exec, execCtRead, hv, he, ctReadAux]

/-- The two fields do not overlap, and the bits above each of them are 0. -/
theorem ctReadAux_fields (len : BitVec 7) (c : Sym) :
    (ctReadAux len c).extractLsb' 0 21 = c ∧ (ctReadAux len c).extractLsb' 24 7 = len ∧
    (ctReadAux len c).extractLsb' 21 3 = 0#3 ∧ (ctReadAux len c).getLsbD 31 = false := by
  unfold ctReadAux
  refine ⟨?_, ?_, ?_, by simp⟩
  · ext j hj
    simp [show j < 24 by omega, show j < 32 by omega, BitVec.getLsbD_eq_getElem hj]
  · ext j hj
    have hsym : c.getLsbD (24 + j) = false := BitVec.getLsbD_of_ge _ _ (by omega)
    simp [hsym, show 24 + j < 32 by omega, BitVec.getLsbD_eq_getElem hj]
  · ext j hj
    simp [show 21 + j < 24 by omega]

/-- Settles O27: an entry of the table is put together in the result registers, behind the two checks. -/
theorem ctReadReadsTheEntry : Obligations.CtReadReadsTheEntry := by
  refine ⟨hasFormatI_of_operand (fun _ => rfl) fun _ => rfl, fun s i =>
    ⟨fun hv => ?_, fun hv hi => ?_, fun e hv he => ⟨_, exec_ctRead_ok hv he, ctReadAux_fields _ _⟩⟩⟩
  · simp [exec, execCtRead, hv]
  · simp [exec, execCtRead, hv, List.getElem?_eq_none hi]

end Sys2Proof.Machine

/-! The statements of 42_encoder.md: ENC_SYMBOL, ENC_FLUSH, and a message of the two. -/

namespace Sys2Proof.Machine

/-! ### The serializer -/

/-- `z` with the bytes `out` emitted before its own. -/
def Serializer.prepend (out : List Byte) (z : Serializer) : Serializer := { z with out := out ++ z.out }

theorem Serializer.push_prepend (out : List Byte) (z : Serializer) (b : Bool) :
    (z.prepend out).push b = (z.push b).prepend out := by
  by_cases h : z.nbits + 1 = 8 <;> simp [Serializer.push, Serializer.prepend, h]

/-- The loop of ENC_SYMBOL does not look at the bytes it has emitted. -/
theorem Serializer.pushAll_prepend (out : List Byte) (z : Serializer) (bits : List Bool) :
    (z.prepend out).pushAll bits = (z.pushAll bits).prepend out := by
  induction bits generalizing z with
  | nil => rfl
  | cons b bits ih => rw [Serializer.pushAll_cons, Serializer.push_prepend, ih, Serializer.pushAll_cons]

theorem Serializer.pushAll_append (z : Serializer) (as bs : List Bool) :
    z.pushAll (as ++ bs) = (z.pushAll as).pushAll bs := by
  induction as generalizing z with
  | nil => rfl
  | cons a as ih => exact ih (z.push a)

/-- The byte ENC_FLUSH pushes, if a bit is held (42_encoder.md R162). -/
def Serializer.lastByte (z : Serializer) : List Byte := if z.nbits = 0 then [] else [z.acc]

theorem Serializer.length_bits (z : Serializer) : z.bits.length = 8 * z.out.length + z.nbits := by
  simp [Serializer.bits, List.length_flatMap, Nat.mul_comm]

/-- The bits of ACC below the held ones are the zeros that fill the last byte. -/
theorem Serializer.padded.byteBits_eq {z : Serializer} (h : z.padded) (hn : z.nbits < 8) :
    byteBits z.acc 8 = byteBits z.acc z.nbits ++ List.replicate (8 - z.nbits) false := by
  refine List.ext_getElem (by simp; omega) fun k hk _ => ?_
  simp only [length_byteBits] at hk
  rw [List.getElem_append]
  split
  next => simp [byteBits]
  next hge =>
    rw [length_byteBits] at hge
    simpa [byteBits] using h (7 - k) (by omega)

/-- The bytes of a flushed serializer are its bits and the zeros that fill the last byte (42_encoder.md R163). -/
theorem Serializer.padded.packed {z : Serializer} (h : z.padded) (hn : z.nbits < 8) :
    (z.out ++ z.lastByte).length = (z.bits.length + 7) / 8 ∧
    (z.out ++ z.lastByte).flatMap (fun b => byteBits b 8) =
      z.bits ++ List.replicate (8 * (z.out ++ z.lastByte).length - z.bits.length) false := by
  have hbits := z.length_bits
  unfold Serializer.lastByte
  split
  next h0 =>
    have hfull : 8 * z.out.length - z.bits.length = 0 := by omega
    rw [List.append_nil, hfull]
    exact ⟨by omega, by simp [Serializer.bits, h0]⟩
  next h0 =>
    have hfill : 8 * (z.out ++ [z.acc]).length - z.bits.length = 8 - z.nbits := by
      rw [List.length_append, List.length_singleton]
      omega
    rw [hfill, List.length_append, List.length_singleton]
    exact ⟨by omega, by simp [Serializer.bits, h.byteBits_eq hn]⟩

/-! ### The encoder with more bits (42_encoder.md R160) -/

/-- The serializer an encoder command begins with. -/
def State.serializer (s : State) : Serializer := { acc := s.acc, nbits := s.nbits, out := [] }

/-- The state with `bits` appended to the stream. -/
def State.emit (s : State) (bits : List Bool) : State :=
  { s with
    acc := (s.serializer.pushAll bits).acc
    nbits := (s.serializer.pushAll bits).nbits
    outq := s.outq ++ (s.serializer.pushAll bits).out }

theorem State.emit_nil (s : State) : s.emit [] = s := by simp [State.emit, State.serializer]

theorem State.emit_append (s : State) (as bs : List Bool) : s.emit (as ++ bs) = (s.emit as).emit bs := by
  have hz : s.serializer.pushAll as = ((s.emit as).serializer).prepend (s.serializer.pushAll as).out := by
    simp [State.emit, State.serializer, Serializer.prepend]
  have h : s.serializer.pushAll (as ++ bs) =
      ((s.emit as).serializer.pushAll bs).prepend (s.serializer.pushAll as).out := by
    rw [Serializer.pushAll_append, ← Serializer.pushAll_prepend, ← hz]
  rw [State.emit, h]
  simp [State.emit, Serializer.prepend]

theorem State.encodedBits_emit {s : State} (h : s.nbits < 8) (bits : List Bool) :
    (s.emit bits).encodedBits = s.encodedBits ++ bits := by
  obtain ⟨hbits, -⟩ := s.serializer.pushAll_spec h bits
  simp only [Serializer.bits, State.serializer, List.flatMap_nil, List.nil_append] at hbits
  simp [State.encodedBits, State.emit, State.serializer, hbits]

theorem findSym_none {t : List Entry} {c : Sym} (h : ∀ e ∈ t, e.sym ≠ c) : findSym t c = none :=
  List.find?_eq_none.2 (by simpa using h)

theorem exec_encSymbol_ok {s : State} {c : Sym} {e : Entry} (hc : scalar c = true) (hv : s.ctValid = true)
    (he : findSym s.ct c = some e) (hroom : s.outq.length + (s.nbits + e.len) / 8 ≤ s.cfg.outDepth) :
    exec (.encSymbol c) s = .next (s.emit e.bits) := by
  simp [exec, execEncSymbol, hc, hv, he, hroom.not_gt, State.emit, State.serializer, Entry.bits]

/-- Settles O28: the four checks in their order, then the serializer's loop on the bits of the code. -/
theorem encSymbolAppendsTheCode : Obligations.EncSymbolAppendsTheCode := by
  refine ⟨hasFormatS_of_operand (by decide) (fun _ => rfl) fun _ => rfl, fun s c =>
    ⟨fun hc => ?_, fun hc hv => ?_, fun hc hv hnone => ?_, fun e hc hv he hfull => ?_,
      fun e hc hv he hn hroom => ?_⟩⟩
  · simp [exec, execEncSymbol, hc]
  · simp [exec, execEncSymbol, hc, hv]
  · simp [exec, execEncSymbol, hc, hv, findSym_none hnone]
  · simp [exec, execEncSymbol, hc, hv, he, hfull]
  · obtain ⟨-, hnbits, hout, hpad⟩ := s.serializer.pushAll_spec hn e.bits
    rw [e.length_bits] at hnbits hout
    refine ⟨(s.serializer.pushAll e.bits).acc, (s.serializer.pushAll e.bits).out, ?_⟩
    rw [show (s.nbits + e.len) % 8 = _ from hnbits.symm]
    exact ⟨exec_encSymbol_ok hc hv he hroom, by simpa [State.serializer] using hout, State.encodedBits_emit hn _, hpad⟩

/-- Settles O29: the two branches of ENC_FLUSH behind its check, and the padding of the invariant. -/
theorem encFlushEndsTheMessage : Obligations.EncFlushEndsTheMessage := by
  refine ⟨hasFormatN_of_opcode (by decide) rfl, fun s =>
    ⟨fun hn hfull => ?_, fun hn hroom => ?_, fun hn => ?_, fun h k hk hk8 => h.accPadding _ (by omega)⟩⟩
  · simp [exec, execEncFlush, hn, hfull]
  · simp [exec, execEncFlush, hn, beq_false_of_ne hroom]
  · simp [exec, execEncFlush, hn]

/-! ### Commands issued one after another -/

theorem issueAll_cons_of_next {i : Instr} {rest : List Instr} {s u : State} (h : issue i s = .next u) :
    issueAll (i :: rest) s = issueAll rest u := by
  simp only [issueAll, h]

theorem issueAll_singleton (i : Instr) (s : State) : issueAll [i] s = issue i s := by
  rw [issueAll]
  cases issue i s <;> rfl

/-- With an error recorded every command but NOP and ERR_CLR is dropped (30_encoding.md R111). -/
theorem issue_of_err {i : Instr} {s : State} (hp : s.pend = none) (herr : s.err = true)
    (hi : i.opcode ∉ [0x00#8, 0x01#8]) : issue i s = .next s := by
  rw [issue, submit_of_err (by simp [State.busy, hp]) herr (by rwa [← opcField, opcField_encode]), engineStep_idle hp]

theorem issueAll_of_err {is : List Instr} {s : State} (hp : s.pend = none) (herr : s.err = true)
    (h : ∀ i ∈ is, i.opcode ∉ [0x00#8, 0x01#8]) : issueAll is s = .next s := by
  induction is with
  | nil => rfl
  | cons i is ih =>
    obtain ⟨hi, his⟩ := List.forall_mem_cons.1 h
    rw [issueAll_cons_of_next (issue_of_err hp herr hi), ih his]

/-- A command issued to an idle block with no error recorded is executed: it fails, or has its effect. -/
theorem issue_cases (i : Instr) {s : State} (hp : s.pend = none) (herr : s.err = false) :
    ∃ t, issue i s = .next t.clearPend ∧ (t.err = true ∨ Effect (s.latchCommand i) t i) := by
  obtain ⟨t, hx⟩ := exec_next i (s.latchCommand i)
  refine ⟨t, ?_, (exec_cases hx).imp_left fun ⟨e, _, ht⟩ => ht ▸ State.recordError_err _ _ _⟩
  rw [issue, submit_latches (by simp [State.busy, hp]) (.inl herr)]
  exact engineStep_latched (s := s.latchCommand i) rfl (decode_encode i) hx

/-! ### A message (42_encoder.md R163) -/

theorem textBits_cons_of_findSym {t : List Entry} {c : Sym} {e : Entry} (h : findSym t c = some e) (cs : List Sym) :
    textBits t (c :: cs) = e.bits ++ textBits t cs := by
  simp [textBits, h]

/-- The latch of a command that appends bits is free again. -/
theorem State.clearPend_emit_latchCommand {s : State} (hp : s.pend = none) (i : Instr) (bits : List Bool) :
    ((s.latchCommand i).emit bits).clearPend = s.emit bits := by
  simp [State.clearPend, State.latchCommand, State.emit, State.serializer, hp]

/-- An ENC_SYMBOL issued to an idle block with no error recorded fails, or appends the bits of its code. -/
theorem issue_encSymbol_cases (c : Sym) {s : State} (hp : s.pend = none) (herr : s.err = false) :
    ∃ u, issue (.encSymbol c) s = .next u ∧ u.pend = none ∧
      (u.err = true ∨ ∃ e, findSym s.ct c = some e ∧ u = s.emit e.bits) := by
  obtain ⟨t, ht, hfail | heffect⟩ := issue_cases (.encSymbol c) hp herr
  · exact ⟨_, ht, rfl, .inl hfail⟩
  · obtain ⟨-, -, e, he, -, z, rfl, rfl⟩ := heffect
    exact ⟨_, ht, rfl, .inr ⟨e, he, State.clearPend_emit_latchCommand hp _ _⟩⟩

/-- ENC_SYMBOLs that leave no error have appended the codes of their text. -/
theorem issueAll_encSymbols {rest : List Instr} (hrest : ∀ i ∈ rest, i.opcode ∉ [0x00#8, 0x01#8]) {t : State}
    (ht : t.err = false) (text : List Sym) {s : State} (hp : s.pend = none) (herr : s.err = false)
    (h : issueAll (text.map Instr.encSymbol ++ rest) s = .next t) :
    issueAll rest (s.emit (textBits s.ct text)) = .next t := by
  induction text generalizing s with
  | nil => simpa [textBits, State.emit_nil] using h
  | cons c cs ih =>
    obtain ⟨u, hu, hpu, hcase⟩ := issue_encSymbol_cases c hp herr
    rw [List.map_cons, List.cons_append, issueAll_cons_of_next hu] at h
    rcases hcase with hfail | ⟨e, he, rfl⟩
    · have hkept := issueAll_of_err hpu hfail (is := cs.map Instr.encSymbol ++ rest)
        (List.forall_mem_append.2 ⟨by simp [Instr.opcode], hrest⟩)
      obtain rfl := Host.Outcome.next.inj (hkept.symm.trans h)
      exact absurd (ht.symm.trans hfail) nofun
    · rw [textBits_cons_of_findSym he, State.emit_append]
      exact ih hp herr h

/-- An ENC_FLUSH that leaves no error has pushed the last byte and set the tail count. -/
theorem issue_encFlush {s t : State} (hp : s.pend = none) (herr : s.err = false) (ht : t.err = false)
    (h : issue .encFlush s = .next t) :
    t = { s with
      outq := s.outq ++ s.serializer.lastByte, acc := 0#8, nbits := 0
      tail := if s.nbits = 0 then 8 else s.nbits } := by
  obtain ⟨u, hu, hfail | ⟨hpos, -, rfl⟩ | ⟨hzero, rfl⟩⟩ := issue_cases .encFlush hp herr <;> rw [hu] at h <;> cases h
  · exact absurd (ht.symm.trans hfail) nofun
  · replace hpos : s.nbits ≠ 0 := hpos.ne'
    simp [State.clearPend, State.latchCommand, State.serializer, Serializer.lastByte, hp, hpos]
  · replace hzero : s.nbits = 0 := hzero
    simp [State.clearPend, State.latchCommand, State.serializer, Serializer.lastByte, hp, hzero]

/-- Settles O30: the ENC_SYMBOLs put the codes through one serializer, and the ENC_FLUSH empties it. -/
theorem encodedMessageIsThePackedCodes : Obligations.EncodedMessageIsThePackedCodes := by
  intro s t text hinv hn hp herr h ht
  have hflush := issueAll_encSymbols (by simp [Instr.opcode]) ht text hp herr h
  rw [issueAll_singleton] at hflush
  obtain ⟨hbits, hnbits, -, hpad⟩ := s.serializer.pushAll_spec hinv.nbitsRange (textBits s.ct text)
  have hnil : s.serializer.bits = [] := by simp [Serializer.bits, State.serializer, hn]
  have hheld : (s.serializer.pushAll (textBits s.ct text)).nbits = (textBits s.ct text).length % 8 := by
    rw [hnbits, show s.serializer.nbits = 0 from hn, Nat.zero_add]
  have hpacked := (hpad hinv.accPadding).packed (by omega)
  rw [hbits, hnil, List.nil_append] at hpacked
  refine ⟨_, (issue_encFlush (s := s.emit _) hp herr ht hflush).trans ?_, hpacked⟩
  rw [← hheld, ← List.append_assoc]
  rfl

end Sys2Proof.Machine

/-! The statements of 43_container.md: the container and its parse, and the round trip of host `encode` and `decode`. -/

namespace Sys2Proof.Machine

/-! ### Little-endian numbers (43_container.md R170) -/

@[simp] theorem length_leBytes (n x : Nat) : (leBytes n x).length = n := by
  induction n generalizing x with
  | zero => rfl
  | succ n ih => rw [leBytes, List.length_cons, ih]

theorem leNat_leBytes {n x : Nat} (h : x < 256 ^ n) : leNat (leBytes n x) = x := by
  induction n generalizing x with
  | zero => rw [pow_zero, Nat.lt_one_iff] at h; exact h.symm
  | succ n ih =>
    have hdiv : x / 256 < 256 ^ n := Nat.div_lt_of_lt_mul (by rwa [pow_succ'] at h)
    rw [leBytes, leNat, ih hdiv, BitVec.toNat_ofNat]
    exact Nat.mod_add_div x 256

/-! ### The bytes of a code (43_container.md R172) -/

@[simp] theorem length_codeBytes (e : Entry) : (codeBytes e).length = codeByteCount e.len := by simp [codeBytes]

theorem le_codeByteCount (len : Nat) : len ≤ 8 * codeByteCount len := by unfold codeByteCount; omega

/-- A code stands in the top bits of its bytes, and the bits below it are 0. -/
theorem beNat_codeBytes {e : Entry} (h : e.val.toNat < 2 ^ e.len) :
    beNat (codeBytes e) = e.val.toNat * 2 ^ (8 * codeByteCount e.len - e.len) := by
  rw [beNat, codeBytes, List.reverse_reverse, leNat_leBytes]
  calc e.val.toNat * 2 ^ (8 * codeByteCount e.len - e.len)
      < 2 ^ e.len * 2 ^ (8 * codeByteCount e.len - e.len) := Nat.mul_lt_mul_of_pos_right h (Nat.two_pow_pos _)
    _ = 2 ^ (8 * codeByteCount e.len) := by rw [← pow_add, Nat.add_sub_cancel' (le_codeByteCount _)]
    _ = 256 ^ codeByteCount e.len := pow_mul 2 8 _

/-! ### The table (43_container.md R172, R175) -/

/-- One turn of the parse's loop reads the entry that was written first. -/
theorem parseEntries_cons {lMax n : Nat} {prev : Option Nat} {e : Entry} {es : List Entry} {more : List Byte}
    (hmax : lMax ≤ 64) (hs : scalar e.sym = true) (hl : codeLegal lMax e.len e.val = true)
    (hprev : prev.any (fun p => e.sym.toNat ≤ p) = false)
    (h : parseEntries lMax n (some e.sym.toNat) more = .ok es) :
    parseEntries lMax (n + 1) prev (serializeEntry e ++ more) = .ok (e :: es) := by
  obtain ⟨hpos, hlen, hval⟩ := codeLegal_iff.1 hl
  have hsym : leNat (leBytes 4 e.sym.toNat) = e.sym.toNat := leNat_leBytes (by have := e.sym.isLt; omega)
  have hlen8 : leNat (leBytes 1 e.len) = e.len := leNat_leBytes (by omega)
  have hdrop4 : (serializeEntry e ++ more).drop 4 = leBytes 1 e.len ++ (codeBytes e ++ more) := by
    simp [serializeEntry, List.drop_left']
  have hdrop5 : (serializeEntry e ++ more).drop 5 = codeBytes e ++ more := by
    rw [← List.drop_drop (i := 1) (j := 4), hdrop4, List.drop_left' (length_leBytes _ _)]
  have htake4 : (serializeEntry e ++ more).take 4 = leBytes 4 e.sym.toNat := by
    simp [serializeEntry, List.take_left']
  have hscalar : scalarNat e.sym.toNat = true := hs
  rw [parseEntries]
  simp only [htake4, hdrop4, hdrop5, List.take_left' (length_leBytes _ _), List.take_left' (length_codeBytes _),
    List.drop_left' (length_codeBytes _), hsym, hlen8, beNat_codeBytes hval, hprev, hscalar, h]
  rw [if_neg (by simp [serializeEntry]; omega)]
  simp [hpos.not_gt, hlen.not_gt, Nat.mul_div_cancel _ (Nat.two_pow_pos _)]

/-- The parse's loop reads the entries that were written, in ascending symbol order. -/
theorem parseEntries_serialized {lMax : Nat} (hmax : lMax ≤ 64) {es : List Entry} {prev : Option Nat}
    (hsorted : es.Pairwise fun a b => a.sym.toNat < b.sym.toNat)
    (hlegal : ∀ e ∈ es, scalar e.sym = true ∧ codeLegal lMax e.len e.val = true)
    (hprev : ∀ e ∈ es, prev.any (fun p => e.sym.toNat ≤ p) = false) :
    parseEntries lMax es.length prev (es.flatMap serializeEntry) = .ok es := by
  induction es generalizing prev with
  | nil => rfl
  | cons e es ih =>
    obtain ⟨hlt, hsorted⟩ := List.pairwise_cons.1 hsorted
    obtain ⟨⟨hs, hl⟩, hlegal⟩ := List.forall_mem_cons.1 hlegal
    refine parseEntries_cons hmax hs hl (hprev e List.mem_cons_self) (ih hsorted hlegal fun f hf => ?_)
    simpa using hlt f hf

/-- A table in strictly ascending symbol order has no more entries than there are symbols. -/
theorem length_le_of_sorted {es : List Entry} (h : es.Pairwise fun a b => a.sym.toNat < b.sym.toNat) :
    es.length ≤ 2 ^ 21 := by
  have hnodup : (es.map fun e => e.sym.toNat).Nodup := List.pairwise_map.2 (h.imp fun hlt => hlt.ne)
  have hsub : (es.map fun e => e.sym.toNat) ⊆ List.range (2 ^ 21) := by
    intro n hn
    obtain ⟨e, -, rfl⟩ := List.mem_map.1 hn
    exact List.mem_range.2 e.sym.isLt
  simpa using (hnodup.subperm hsub).length_le

theorem parseTable_serializeTable {lMax : Nat} (hmax : lMax ≤ 64) {es : List Entry}
    (hsorted : es.Pairwise fun a b => a.sym.toNat < b.sym.toNat)
    (hlegal : ∀ e ∈ es, scalar e.sym = true ∧ codeLegal lMax e.len e.val = true) :
    parseTable lMax (serializeTable es) = .ok es := by
  have hcount : leNat (leBytes 4 es.length) = es.length :=
    leNat_leBytes (by have := length_le_of_sorted hsorted; omega)
  have hlong : ¬ (serializeTable es).length < 4 := by simp [serializeTable]
  rw [parseTable, if_neg hlong, serializeTable, List.take_left' (length_leBytes _ _),
    List.drop_left' (length_leBytes _ _), hcount]
  exact parseEntries_serialized hmax hsorted hlegal fun _ _ => rfl

/-- A serialized table of codes of at most 64 bits has far fewer than 2^64 bytes. -/
theorem length_serializeTable_lt {es : List Entry} (hsorted : es.Pairwise fun a b => a.sym.toNat < b.sym.toNat)
    (hlen : ∀ e ∈ es, e.len ≤ 64) : (serializeTable es).length < 2 ^ 64 := by
  have hentry : ∀ n ∈ es.map fun e => (serializeEntry e).length, n ≤ 13 := by
    intro n hn
    obtain ⟨e, he, rfl⟩ := List.mem_map.1 hn
    have := hlen e he
    simp only [serializeEntry, List.length_append, length_leBytes, length_codeBytes, codeByteCount]
    omega
  have hsum := List.sum_le_card_nsmul _ _ hentry
  have hcount := length_le_of_sorted hsorted
  simp only [List.length_map, smul_eq_mul] at hsum
  simp only [serializeTable, List.length_append, length_leBytes, List.length_flatMap]
  omega

/-! ### The container (43_container.md R170, R175) -/

/-- The parts of a container are where the parse looks for them. -/
theorem parse_container {lMax : Nat} {table payload : List Byte} {tail : Nat} {es : List Entry}
    (htable : table.length < 2 ^ 64) (hpos : 1 ≤ tail) (hle : tail ≤ 8) (hempty : payload = [] → tail = 8)
    (h : parseTable lMax table = .ok es) : parse lMax (container table payload tail) = .ok (es, payload, tail) := by
  have hlen : (container table payload tail).length = 8 + table.length + payload.length + 1 := by
    simp [container, Nat.add_assoc]
  have hsize : leNat ((container table payload tail).take 8) = table.length := by
    simp only [container, List.append_assoc, List.take_left' (length_leBytes _ _)]
    exact leNat_leBytes htable
  have hdrop8 : (container table payload tail).drop 8 = table ++ (payload ++ leBytes 1 tail) := by
    simp [container, List.drop_left']
  have hdrop : (container table payload tail).drop (8 + table.length) = payload ++ leBytes 1 tail := by
    rw [← List.drop_drop, hdrop8, List.drop_left' rfl]
  have hlast : (container table payload tail).drop (8 + table.length + payload.length) = leBytes 1 tail := by
    rw [← List.drop_drop, hdrop, List.drop_left' rfl]
  have htail : leNat (leBytes 1 tail) = tail := leNat_leBytes (by omega)
  unfold parse
  simp only [hlen, hsize, hdrop8, hdrop, Nat.add_sub_cancel, hlast, htail, Nat.add_sub_cancel_left,
    List.take_left' rfl, h]
  rw [if_neg (by omega), if_neg (by omega), if_neg (by omega), if_neg fun ⟨hp, ht⟩ => ht (hempty hp)]

/-- Settles O57: each part is where the parse looks for it, and each number fits its bytes. -/
theorem parseOfContainerGivesItBack : Obligations.ParseOfContainerGivesItBack := by
  intro lMax es payload tail hmax hsorted hlegal hpos hle hempty
  have hlen : ∀ e ∈ es, e.len ≤ 64 := fun e he => (codeLegal_iff.1 (hlegal e he).2).2.1.trans hmax
  exact parse_container (length_serializeTable_lt hsorted hlen) hpos hle hempty
    (parseTable_serializeTable hmax hsorted hlegal)

/-- Settles O58: the bytes are evaluated, and with no entry the parse does not look at L_MAX. -/
theorem emptyTextContainer : Obligations.EmptyTextContainer := ⟨by decide, fun _ => rfl⟩

/-! ### Runs of a host program (30_encoding.md R114, R115) -/

/-- The block takes a command and reports no error (30_encoding.md R111). -/
abbrev State.Ready (u : State) : Prop := u.pend = none ∧ u.err = false

/-- The state with OUTQ read empty. -/
def State.drained (u : State) : State := { u with outq := [] }

/-- Begun in `u`, `x` returns `v` and leaves `t`, but for the bus's answer and the count of draws, whatever these were
at the beginning. -/
def Runs {α : Type} (x : HostM α) (u : State) (v : α) (t : State) : Prop :=
  ∀ a d, ∃ a' d', x (u.outside a d) = (v, t.outside a' d')

section
variable {α β : Type} {u t : State}

theorem Runs.returns {x : HostM α} {v : α} (h : Runs x u v t) : (x.run u).1 = v := by
  obtain ⟨a', d', h⟩ := h u.resp u.draws
  exact congrArg Prod.fst h

theorem Runs.pure {v w : α} (h : v = w) : Runs (pure v) u w u := fun a d => ⟨a, d, h ▸ rfl⟩

theorem Runs.bind {x : HostM α} {f : α → HostM β} {v : α} {w : β} {z : State} (hx : Runs x u v t)
    (hf : Runs (f v) t w z) : Runs (x >>= f) u w z := by
  intro a d
  obtain ⟨a1, d1, hx⟩ := hx a d
  obtain ⟨a2, d2, hf⟩ := hf a1 d1
  refine ⟨a2, d2, ?_⟩
  simp only [Bind.bind, StateT.bind, hx, hf]

theorem Runs.rd {r : Reg} (hp : u.pend = none) (hout : r ≠ .OUT_DATA) (hsym : r ≠ .SYM_DATA) :
    Runs (rd r) u (r.value u) u := by
  intro a d
  obtain ⟨a', h⟩ := rd_outside r u a d hp hout hsym
  exact ⟨a', d, h⟩

theorem Runs.drainAllOut (hp : u.pend = none) : Runs drainAllOut u u.outq u.drained := by
  intro a d
  obtain ⟨a', h⟩ := drainOut_all u.outq (u.outq.length + 1) u a d (Nat.lt_succ_self _) hp rfl
  exact ⟨a', d, h⟩

theorem Runs.drainAllSyms (hp : u.pend = none) : Runs drainAllSyms u u.symq { u with symq := [] } := by
  intro a d
  obtain ⟨a', h⟩ := drainSyms_all u.symq (u.symq.length + 1) u a d (Nat.lt_succ_self _) hp rfl
  exact ⟨a', d, h⟩

theorem Runs.argLo (v : Word) (u : State) :
    Runs (wr .ARG_LO v) u () { u with arg := u.arg.extractLsb' 32 32 ++ v } :=
  fun _ d => ⟨_, d, wr_eq ..⟩

theorem Runs.argHi (v : Word) (u : State) :
    Runs (wr .ARG_HI v) u () { u with arg := v ++ u.arg.extractLsb' 0 32 } :=
  fun _ d => ⟨_, d, wr_eq ..⟩

theorem Runs.setArg (v : BitVec 64) (u : State) : Runs (setArg v) u () { u with arg := v } := by
  have h := (Runs.argLo (v.extractLsb' 0 32) u).bind (f := fun _ => wr .ARG_HI (v.extractLsb' 32 32)) (Runs.argHi _ _)
  rw [BitVec.extractLsb'_append_eq_right, append_halves] at h
  exact h

theorem Runs.arg2 (w : Word) (u : State) : Runs (wr .ARG2 w) u () { u with arg2 := w.extractLsb' 0 7 } :=
  fun _ d => ⟨_, d, wr_eq ..⟩

theorem State.clearPend_latchCommand (hp : u.pend = none) (i : Instr) : (u.latchCommand i).clearPend = u := by
  simp [State.clearPend, State.latchCommand, ← hp]

/-- A command line whose command succeeds leaves what the command leaves, with the latch free. -/
theorem Runs.command {n : Nat} {i : Instr} (hx : exec i (u.latchCommand i) = .next (t.latchCommand i)) (hu : u.Ready)
    (ht : t.Ready) : Runs (command n i) u () t := by
  intro a d
  obtain ⟨a', d', h⟩ := command_next (n := n) (decode_encode i) hu.1 hu.2 hx a d
  rw [State.clearPend_latchCommand ht.1] at h
  exact ⟨a', d', h⟩

end

/-! ### The frequency table of a text (40_tree_builder.md R125, R128) -/

theorem ftOfText_concat (text : List Sym) (c : Sym) :
    ftOfText (text ++ [c]) = ftPut (ftOfText text) c (ftCount (ftOfText text) c + 1#64) := by
  simp [ftOfText]

/-- A write changes the total by the change of the one count. -/
theorem ftTotal_ftPut {ft : List (Sym × Count)} (h : ft.Pairwise fun p q => p.1.toNat < q.1.toNat) (c : Sym)
    (n : Count) : ftTotal (ftPut ft c n) + (ftCount ft c).toNat = ftTotal ft + n.toNat := by
  induction ft with
  | nil => simp [ftPut, ftTotal]
  | cons p rest ih =>
    obtain ⟨k, m⟩ := p
    obtain ⟨hk, hrest⟩ := List.pairwise_cons.1 h
    have hcons (q : Sym × Count) (l : List (Sym × Count)) : ftTotal (q :: l) = q.2.toNat + ftTotal l := rfl
    by_cases heq : c = k
    · subst heq
      simp only [ftPut, if_true, ftCount_cons, hcons]
      omega
    · by_cases hlt : c.toNat < k.toNat
      · have habsent : ftHas ((k, m) :: rest) c = false := by
          refine Bool.eq_false_iff.2 fun hhas => ?_
          obtain ⟨n', hn'⟩ := ftHas_iff.1 hhas
          rcases List.mem_cons.1 hn' with he | hn'
          · exact heq (congrArg Prod.fst he)
          · exact absurd (hk _ hn') hlt.le.not_gt
        rw [ftCount_of_not_has habsent, ftPut, if_neg heq, if_pos hlt, hcons]
        simp only [BitVec.toNat_ofNat, Nat.zero_mod]
        omega
      · have hih := ih hrest
        simp only [ftPut, if_neg heq, if_neg hlt, ftCount_cons, if_neg (Ne.symm heq), hcons]
        omega

theorem ftCount_le_ftTotal {ft : List (Sym × Count)} (h : ft.Pairwise fun p q => p.1.toNat < q.1.toNat) (c : Sym) :
    (ftCount ft c).toNat ≤ ftTotal ft := by
  have hput := ftTotal_ftPut h c 0#64
  simp only [BitVec.toNat_ofNat, Nat.zero_mod] at hput
  omega

/-- `ft` counts the characters of `text`. -/
structure CountsText (ft : List (Sym × Count)) (text : List Sym) : Prop where
  form : ftWf ft = true
  total : ftTotal ft = text.length
  keys : ∀ c, ftHas ft c = true ↔ c ∈ text

theorem CountsText.count_le {ft : List (Sym × Count)} {text : List Sym} (h : CountsText ft text) (c : Sym) :
    (ftCount ft c).toNat ≤ text.length :=
  h.total ▸ ftCount_le_ftTotal (ftWf_iff.1 h.form).1 c

/-- Fewer than 2^64 characters overflow no count. -/
theorem countsText_ftOfText {text : List Sym} (hs : ∀ c ∈ text, scalar c = true) (hlen : text.length < 2 ^ 64) :
    CountsText (ftOfText text) text := by
  induction text using List.reverseRecOn with
  | nil => exact ⟨ftWf_nil, rfl, by simp [ftOfText]⟩
  | append_singleton text c ih =>
    rw [List.length_append, List.length_singleton] at hlen
    obtain ⟨hs, hc⟩ := List.forall_mem_append.1 hs
    have h := ih hs (by omega)
    have hsucc : (ftCount (ftOfText text) c + 1#64).toNat = (ftCount (ftOfText text) c).toNat + 1 := by
      have := h.count_le c
      bv_omega
    have htotal := ftTotal_ftPut (ftWf_iff.1 h.form).1 c (ftCount (ftOfText text) c + 1#64)
    have hkeep := h.total
    rw [ftOfText_concat]
    refine ⟨ftWf_ftPut h.form (hc c (List.mem_singleton_self c)) fun h0 => ?_, ?_, fun x => ?_⟩
    · rw [h0] at hsucc
      exact absurd hsucc nofun
    · rw [List.length_append, List.length_singleton]
      omega
    · simp [ftHas_ftPut, h.keys, or_comm]

/-- FT has no more entries than the text has distinct characters. -/
theorem CountsText.length_le {ft : List (Sym × Count)} {part text : List Sym} (h : CountsText ft part)
    (hsub : part ⊆ text) : ft.length ≤ text.dedup.length := by
  have hkeys : ft.map Prod.fst ⊆ text.dedup := by
    intro c hc
    obtain ⟨⟨_, n⟩, hmem, rfl⟩ := List.mem_map.1 hc
    exact List.mem_dedup.2 (hsub ((h.keys _).1 (ftHas_iff.2 ⟨n, hmem⟩)))
  simpa using ((ftWf_nodup h.form).subperm hkeys).length_le

/-! ### COUNT_TEXT (30_encoding.md R115) -/

theorem exec_ftInc_ok {s : State} {c : Sym} (hc : scalar c = true)
    (hroom : ftHas s.ft c = true ∨ s.ft.length ≠ s.cfg.nSym) (hmax : (ftCount s.ft c).toNat ≠ 2 ^ 64 - 1) :
    exec (.ftInc c) s = .next (State.invalidateTree { s with ft := ftPut s.ft c (ftCount s.ft c + 1#64) }) := by
  have hfits : (!ftHas s.ft c && s.ft.length == s.cfg.nSym) = false := by
    rcases hroom with h | h <;> simp [h]
  have hcount : (ftHas s.ft c && (ftCount s.ft c).toNat == 2 ^ 64 - 1) = false := by
    rw [beq_false_of_ne hmax, Bool.and_false]
  rw [exec, execFtInc, hc, hfits, hcount]
  rfl

/-- The state with the frequency table `ft`, and the tree given up (40_tree_builder.md R126). -/
def State.counting (u : State) (ft : List (Sym × Count)) : State := State.invalidateTree { u with ft := ft }

section
variable {u : State} {text : List Sym} (hu : u.Ready) (hs : ∀ c ∈ text, scalar c = true) (hlen : text.length < 2 ^ 64)
  (hroom : text.dedup.length ≤ u.cfg.nSym)
include hu hs hlen hroom

/-- With `part` counted, FT_INC for the `rest` of the text counts the whole. -/
theorem runs_countAll {part rest : List Sym} (h : part ++ rest = text) (polls : Nat → Nat) :
    Runs (countAll polls rest) (u.counting (ftOfText part)) () (u.counting (ftOfText text)) := by
  induction rest generalizing part polls with
  | nil =>
    rw [List.append_nil] at h
    exact h ▸ Runs.pure rfl
  | cons c rest ih =>
    have hnext : (part ++ [c]) ++ rest = text := by rw [← h, List.append_assoc, List.singleton_append]
    have hsub : part ++ [c] ⊆ text := hnext ▸ List.subset_append_left _ _
    have hshort : part.length + 1 ≤ text.length := by simp [← hnext]
    have hc : scalar c = true := hs c (hsub (by simp))
    have hpart := countsText_ftOfText (text := part) (fun x hx => hs x (hsub (by simp [hx]))) (by omega)
    have hmore := countsText_ftOfText (text := part ++ [c]) (fun x hx => hs x (hsub hx)) (by simp; omega)
    have hfits : ftHas (ftOfText part) c = true ∨ (ftOfText part).length ≠ u.cfg.nSym := by
      refine or_iff_not_imp_left.2 fun habsent => ?_
      have hle := hmore.length_le hsub
      rw [ftOfText_concat, length_ftPut _ (ftWf_iff.1 hpart.form).1, if_neg habsent] at hle
      omega
    have hmax : (ftCount (ftOfText part) c).toNat ≠ 2 ^ 64 - 1 := by
      have := hpart.count_le c
      omega
    have hx : exec (.ftInc c) ((u.counting (ftOfText part)).latchCommand (.ftInc c)) =
        .next ((u.counting (ftOfText (part ++ [c]))).latchCommand (.ftInc c)) :=
      ftOfText_concat part c ▸ exec_ftInc_ok hc hfits hmax
    refine (Runs.command hx hu hu).bind ?_
    exact ih hnext _

theorem runs_countText (polls : Nat → Nat) : Runs (countText polls text) u () (u.counting (ftOfText text)) :=
  (Runs.command (t := u.counting []) rfl hu hu).bind (runs_countAll hu hs hlen hroom (List.nil_append text) _)

end

/-! ### The code table, as the host reads it (43_container.md R176) -/

theorem findSym_of_mem {t : List Entry} {e : Entry} (he : e ∈ t) : ∃ f, findSym t e.sym = some f :=
  Option.isSome_iff_exists.1 (List.find?_isSome.2 ⟨e, he, beq_self_eq_true _⟩)

section
variable {u : State} (hu : u.Ready) (hv : u.ctValid = true)
include hu hv

theorem runs_readEntry {i : Nat} {e : Entry} (hi : i < 2 ^ 24) (he : u.ct[i]? = some e) (hlen : e.len < 2 ^ 7)
    (n : Nat) : Runs (readEntry n i) u e (u.setResult e.val (ctReadAux (BitVec.ofNat 7 e.len) e.sym) 0#32) := by
  obtain ⟨hsym, haux, -, -⟩ := ctReadAux_fields (BitVec.ofNat 7 e.len) e.sym
  have hx : exec (.ctRead (BitVec.ofNat 24 i)) (u.latchCommand (.ctRead (BitVec.ofNat 24 i))) = .next
      ((u.setResult e.val (ctReadAux (BitVec.ofNat 7 e.len) e.sym) 0#32).latchCommand (.ctRead (BitVec.ofNat 24 i))) :=
    exec_ctRead_ok (s := u.latchCommand _) hv (by rwa [toNat_ofNat_of_lt hi])
  have hidle : (u.setResult e.val (ctReadAux (BitVec.ofNat 7 e.len) e.sym) 0#32).pend = none := hu.1
  refine (Runs.command hx hu hu).bind ?_
  refine (Runs.rd hidle (by decide) (by decide)).bind ?_
  refine (Runs.rd hidle (by decide) (by decide)).bind ?_
  refine (Runs.rd hidle (by decide) (by decide)).bind ?_
  have hentry : ({ sym := (ctReadAux (BitVec.ofNat 7 e.len) e.sym).extractLsb' 0 21
                   len := ((ctReadAux (BitVec.ofNat 7 e.len) e.sym).extractLsb' 24 7).toNat
                   val := e.val.extractLsb' 32 32 ++ e.val.extractLsb' 0 32 } : Entry) = e := by
    rw [hsym, haux, append_halves, toNat_ofNat_of_lt hlen]
  exact Runs.pure hentry

/-- CT_READ of the indices of entries reads them, and changes only the result registers. -/
theorem runs_readEntries {ct : List Entry} (hct : u.ct = ct) (hlen : ∀ e ∈ ct, e.len < 2 ^ 7) {is : List Nat}
    {es : List Entry} (h : List.Forall₂ (fun i e => i < 2 ^ 24 ∧ ct[i]? = some e) is es) (polls : Nat → Nat) :
    ∃ r a a2, Runs (readEntries polls is) u es (u.setResult r a a2) := by
  induction h generalizing u polls with
  | nil => exact ⟨u.res, u.resAux, u.resAux2, Runs.pure rfl⟩
  | cons hie _ ih =>
    obtain ⟨hi, he⟩ := hie
    have hread := runs_readEntry hu hv hi (hct ▸ he) (hlen _ (List.mem_of_getElem? he)) (polls 0)
    obtain ⟨r, a, a2, hrest⟩ := ih (u := u.setResult _ (ctReadAux _ _) 0#32) hu hv hct (fun k => polls (k + 1))
    refine ⟨r, a, a2, hread.bind ?_⟩
    refine hrest.bind ?_
    exact Runs.pure rfl

/-- CT_READ of every index below NCT reads the table. -/
theorem runs_readTable (hlen : ∀ e ∈ u.ct, e.len < 2 ^ 7) (hcount : u.ct.length ≤ 2 ^ 21) (polls : Nat → Nat) :
    ∃ r a a2, Runs (readEntries polls (List.range (Reg.NCT.value u).toNat)) u u.ct (u.setResult r a a2) := by
  have hnct : (Reg.NCT.value u).toNat = u.ct.length := field_toNat (by decide) (by omega)
  refine runs_readEntries hu hv rfl hlen (List.forall₂_iff_get.2 ⟨by simp [hnct], fun i hi he => ?_⟩) polls
  simp only [List.get_eq_getElem, List.getElem_range]
  exact ⟨by omega, List.getElem?_eq_getElem he⟩

end

/-! ### ENC_TEXT and ENC_FLUSH (30_encoding.md R115, 42_encoder.md R162) -/

theorem Serializer.nbits_pushAll_lt {z : Serializer} (h : z.nbits < 8) (bits : List Bool) :
    (z.pushAll bits).nbits < 8 := by
  obtain ⟨-, hnbits, -⟩ := z.pushAll_spec h bits
  rw [hnbits]
  exact Nat.mod_lt _ (by decide)

/-- What TAIL holds after ENC_FLUSH: the valid bits of the last byte. -/
def Serializer.tailCount (z : Serializer) : Nat := if z.nbits = 0 then 8 else z.nbits

theorem Serializer.one_le_tailCount (z : Serializer) : 1 ≤ z.tailCount := by
  unfold Serializer.tailCount
  split <;> omega

theorem Serializer.tailCount_of_payload_nil {z : Serializer} (h : z.out ++ z.lastByte = []) : z.tailCount = 8 := by
  by_cases h0 : z.nbits = 0
  · exact if_pos h0
  · simp [Serializer.lastByte, h0] at h

/-- What ENC_FLUSH leaves. -/
def State.flushed (s : State) : State :=
  { s with outq := s.outq ++ s.serializer.lastByte, tail := s.serializer.tailCount, acc := 0#8, nbits := 0 }

theorem exec_encFlush_ok {s : State} (h : s.outq.length < s.cfg.outDepth) : exec .encFlush s = .next s.flushed := by
  by_cases h0 : s.nbits = 0
  · simp [exec, execEncFlush, State.flushed, State.serializer, Serializer.lastByte, Serializer.tailCount, h0]
  · simp [exec, execEncFlush, State.flushed, State.serializer, Serializer.lastByte, Serializer.tailCount, h0,
      Nat.pos_of_ne_zero h0, beq_false_of_ne h.ne]

theorem State.drained_of_empty {u : State} (h : u.outq = []) : u.drained = u := by
  rw [State.drained, ← h]

/-- Every character of the text has a code of at most 64 bits. -/
def Encodable (ct : List Entry) (text : List Sym) : Prop :=
  ∀ c ∈ text, scalar c = true ∧ ∃ e, findSym ct c = some e ∧ e.len ≤ 64

/-- Read after each character, OUTQ never holds more than the eight bytes of one code, and the bytes read are those of
the packed codes. -/
theorem runs_encText {u : State} {text : List Sym} (hu : u.Ready) (hv : u.ctValid = true) (hq : u.outq = [])
    (hn : u.nbits < 8) (hdepth : 9 ≤ u.cfg.outDepth) (htext : Encodable u.ct text) (polls : Nat → Nat) :
    Runs (encText polls text) u (u.emit (textBits u.ct text)).outq (u.emit (textBits u.ct text)).drained := by
  induction text generalizing u polls with
  | nil =>
    have hnil : u.emit (textBits u.ct []) = u := u.emit_nil
    rw [hnil, hq, State.drained_of_empty hq]
    exact Runs.pure rfl
  | cons c text ih =>
    obtain ⟨⟨hc, e, he, hlen⟩, htext⟩ := List.forall_mem_cons.1 htext
    rw [textBits_cons_of_findSym he, State.emit_append]
    have hroom : u.outq.length + (u.nbits + e.len) / 8 ≤ u.cfg.outDepth := by
      rw [hq, List.length_nil]
      omega
    have hx : exec (.encSymbol c) (u.latchCommand (.encSymbol c)) =
        .next ((u.emit e.bits).latchCommand (.encSymbol c)) :=
      exec_encSymbol_ok (s := u.latchCommand _) hc hv he hroom
    have hn' : (u.emit e.bits).nbits < 8 := Serializer.nbits_pushAll_lt hn e.bits
    have hrest := ih (u := (u.emit e.bits).drained) hu hv rfl hn' hdepth htext (fun k => polls (k + 1))
    refine (Runs.command hx hu hu).bind ?_
    refine (Runs.drainAllOut (u := u.emit e.bits) hu.1).bind ?_
    exact hrest.bind (Runs.pure rfl)

/-! ### The bits of a payload (44_decoder.md R189) -/

theorem unpackBits_concat (tail : Nat) (bytes : List Byte) (b : Byte) :
    unpackBits tail (bytes ++ [b]) = bytes.flatMap (fun b => byteBits b 8) ++ byteBits b tail := by
  induction bytes with
  | nil => rfl
  | cons b' bytes ih =>
    rw [List.flatMap_cons, List.append_assoc, ← ih]
    cases bytes <;> rfl

theorem unpackBits_full (bytes : List Byte) : unpackBits 8 bytes = bytes.flatMap fun b => byteBits b 8 := by
  induction bytes using List.reverseRecOn with
  | nil => rfl
  | append_singleton bytes b _ => simp [unpackBits_concat]

/-- The payload of a flushed serializer, with its tail count, is its bits. -/
theorem Serializer.unpackBits_payload (z : Serializer) :
    unpackBits z.tailCount (z.out ++ z.lastByte) = z.bits := by
  by_cases h0 : z.nbits = 0
  · simp [Serializer.tailCount, Serializer.lastByte, Serializer.bits, h0, unpackBits_full]
  · simp [Serializer.tailCount, Serializer.lastByte, Serializer.bits, h0, unpackBits_concat]

/-! ### Host `encode` (43_container.md R176) -/

/-- The serializer that packs a message. -/
def packed (bits : List Bool) : Serializer := Serializer.pushAll { acc := 0#8, nbits := 0, out := [] } bits

theorem bits_packed (bits : List Bool) : (packed bits).bits = bits := by
  obtain ⟨hbits, -⟩ := Serializer.pushAll_spec { acc := 0#8, nbits := 0, out := [] } (by decide) bits
  exact hbits

theorem tailCount_packed_le (bits : List Bool) : (packed bits).tailCount ≤ 8 := by
  have hlt : (packed bits).nbits < 8 := Serializer.nbits_pushAll_lt (by decide) bits
  unfold Serializer.tailCount
  split <;> omega

/-- What host `encode` makes of a message with the table `ct`. -/
def messageContainer (ct : List Entry) (bits : List Bool) : List Byte :=
  container (serializeTable ct) ((packed bits).out ++ (packed bits).lastByte) (packed bits).tailCount

/-- The two flags of STATUS that the host procedures end with (10_state.md R28). -/
theorem status_err_done (s : State) :
    (Reg.STATUS.value s).getLsbD 1 = s.err ∧ (Reg.STATUS.value s).getLsbD 6 = s.done := by
  obtain ⟨-, herr, -, -, -, -, hdone, -⟩ := status_flags s
  exact ⟨herr, hdone⟩

/-- What BUILD_TREE leaves (40_tree_builder.md R135). -/
def State.withTree (u : State) (nodes : List Node) : State :=
  { u with treeValid := true, nodes := nodes, ctValid := false, ct := [], ctMaxLen := 0 }

/-- What GEN_TABLE leaves (41_code_table.md R147). -/
def State.withTable (u : State) (ct : List Entry) : State :=
  { u with ctValid := true, ct := ct, ctMaxLen := maxLen ct }

section
variable {u : State} (hu : u.Ready)
include hu

theorem runs_buildTree {nodes : List Node} (h : buildNodes u.ft = .ok nodes) (n : Nat) :
    Runs (command n .buildTree) u () (u.withTree nodes) :=
  Runs.command (exec_buildTree_ok (s := u.latchCommand _) h) hu hu

theorem runs_genTable {ct : List Entry} (hv : u.treeValid = true) (h : codeTable u.cfg.lMax u.nodes = .ok ct)
    (n : Nat) : Runs (command n .genTable) u () (u.withTable ct) :=
  Runs.command (exec_genTable_ok (s := u.latchCommand _) hv h) hu hu

theorem runs_encFlush (h : u.outq.length < u.cfg.outDepth) (n : Nat) : Runs (command n .encFlush) u () u.flushed :=
  Runs.command (exec_encFlush_ok (s := u.latchCommand _) h) hu hu

end

/-- What is known of a text, its tree and its table, within the limits of 43_container.md R178. -/
structure Encodes (p : Config.Params) (text : List Sym) (nodes : List Node) (ct : List Entry) : Prop where
  params : p.wf = true
  chars : ∀ c ∈ text, scalar c = true
  short : text.length < 2 ^ 64
  room : text.dedup.length ≤ p.nSym
  tree : buildNodes (ftOfText text) = .ok nodes
  table : codeTable p.lMax nodes = .ok ct

section
variable {p : Config.Params} {text : List Sym} {nodes : List Node} {ct : List Entry} (h : Encodes p text nodes ct)
include h

theorem Encodes.counts : CountsText (ftOfText text) text := countsText_ftOfText h.chars h.short

theorem Encodes.lMax_le : p.lMax ≤ 64 := by
  obtain ⟨-, -, -, hl, -⟩ := paramsWf_iff.1 h.params
  exact hl

theorem Encodes.tableOf : TableOf (ftOfText text) nodes p.lMax ct :=
  codeTable_spec h.counts.form h.tree h.lMax_le h.table

theorem Encodes.len_le {e : Entry} (he : e ∈ ct) : e.len ≤ 64 :=
  (codeLegal_iff.1 (h.tableOf.legal e he)).2.1.trans h.lMax_le

theorem Encodes.length_le : ct.length ≤ p.nSym :=
  h.tableOf.length_eq.trans_le ((h.counts.length_le (List.Subset.refl text)).trans h.room)

theorem Encodes.encodable : Encodable ct text := by
  intro c hc
  obtain ⟨e, he, rfl⟩ := (h.tableOf.sym_mem_iff c).2 ((h.counts.keys c).2 hc)
  obtain ⟨f, hf⟩ := findSym_of_mem he
  exact ⟨h.chars _ hc, f, hf, h.len_le (findSym_some hf).1⟩

/-- Host `encode` packs the codes of the text. -/
theorem runs_hostEncode (polls : Schedule) :
    ∃ t, Runs (hostEncode polls text) (State.resetWith p) (.ok (messageContainer ct (textBits ct text))) t := by
  obtain ⟨-, hnSym, -, -, hdepth, -⟩ := paramsWf_iff.1 h.params
  have hready : (State.resetWith p).Ready := ⟨rfl, rfl⟩
  let counted := (State.resetWith p).counting (ftOfText text)
  let tabled := (counted.withTree nodes).withTable ct
  obtain ⟨r, a, a2, hread⟩ := runs_readTable (u := tabled) hready rfl
    (fun e he => (h.len_le he).trans_lt (by decide)) (h.length_le.trans hnSym) (polls 3)
  let sent := ((tabled.setResult r a a2).emit (textBits ct text)).drained
  have htail : (Reg.TAIL.value sent.flushed.drained).toNat = (packed (textBits ct text)).tailCount :=
    field_toNat (by decide) ((tailCount_packed_le _).trans_lt (by decide))
  have herr : (Reg.STATUS.value sent.flushed.drained).getLsbD 1 = false := (status_err_done _).1
  refine ⟨sent.flushed.drained, ?_⟩
  unfold hostEncode
  refine (runs_countText hready h.chars h.short h.room _).bind ?_
  refine (runs_buildTree (u := counted) hready h.tree _).bind ?_
  refine (runs_genTable (u := counted.withTree nodes) hready rfl h.table _).bind ?_
  refine (Runs.rd (u := tabled) rfl (by decide) (by decide)).bind ?_
  refine hread.bind ?_
  refine (runs_encText (u := tabled.setResult r a a2) hready rfl rfl (Nat.zero_lt_succ 7) hdepth h.encodable _).bind ?_
  refine (runs_encFlush (u := sent) hready (Nat.zero_lt_of_lt hdepth) _).bind ?_
  refine (Runs.drainAllOut (u := sent.flushed) rfl).bind ?_
  refine (Runs.rd (u := sent.flushed.drained) rfl (by decide) (by decide)).bind ?_
  refine (Runs.rd (u := sent.flushed.drained) rfl (by decide) (by decide)).bind ?_
  rw [herr, htail]
  exact Runs.pure rfl

end

/-! ### The matcher, run in pieces (44_decoder.md R186) -/

/-- `m` with the symbols `out` put out before its own. -/
def Matcher.prepend (out : List Sym) (m : Matcher) : Matcher := { m with out := out ++ m.out }

/-- `m` with no symbol put out yet. -/
def Matcher.drained (m : Matcher) : Matcher := { m with out := [] }

theorem Matcher.push_prepend (dt : List Entry) (n : Nat) (out : List Sym) (m : Matcher) (b : Bool) :
    (m.prepend out).push dt n b = (m.push dt n b).map (Matcher.prepend out) := by
  unfold Matcher.push Matcher.prepend
  dsimp only
  cases findCode dt (m.wlen + 1) ((m.w <<< 1) ||| (BitVec.ofBool b).setWidth 64) with
  | some e => simp [Except.map]
  | none => dsimp only; split <;> rfl

/-- The matcher does not look at the symbols it has put out. -/
theorem Matcher.pushAll_prepend (dt : List Entry) (n : Nat) (out : List Sym) (m : Matcher) (bits : List Bool) :
    (m.prepend out).pushAll dt n bits = (m.pushAll dt n bits).map (Matcher.prepend out) := by
  induction bits generalizing m with
  | nil => rfl
  | cons b bits ih =>
    rw [Matcher.pushAll_cons, Matcher.pushAll_cons, Matcher.push_prepend]
    cases m.push dt n b with
    | error e => rfl
    | ok m' => exact ih m'

section
variable {dt : List Entry} {n : Nat} {m m' : Matcher}

theorem Matcher.pushAll_append_ok {as bs : List Bool} (h : m.pushAll dt n (as ++ bs) = .ok m') :
    ∃ m1, m.pushAll dt n as = .ok m1 ∧ m1.pushAll dt n bs = .ok m' := by
  induction as generalizing m with
  | nil => exact ⟨m, rfl, h⟩
  | cons a as ih =>
    rw [List.cons_append, Matcher.pushAll_cons] at h
    rw [Matcher.pushAll_cons]
    cases hpush : m.push dt n a with
    | error e => rw [hpush] at h; cases h
    | ok m1 => rw [hpush] at h; exact ih h

/-- What follows a piece is matched as if nothing had been put out before. -/
theorem Matcher.pushAll_drained {bits : List Bool} (h : m.pushAll dt n bits = .ok m') :
    ∃ m2, m.drained.pushAll dt n bits = .ok m2 ∧ m' = m2.prepend m.out := by
  have hm : m = m.drained.prepend m.out := by simp [Matcher.drained, Matcher.prepend]
  rw [hm, Matcher.pushAll_prepend] at h
  cases hpush : m.drained.pushAll dt n bits with
  | error e => rw [hpush] at h; cases h
  | ok m2 =>
    rw [hpush] at h
    exact ⟨m2, rfl, (Except.ok.inj h).symm⟩

/-- Every bit puts out at most one symbol. -/
theorem Matcher.length_out_le {bits : List Bool} (h : m.pushAll dt n bits = .ok m') :
    m'.out.length ≤ m.out.length + bits.length := by
  induction bits generalizing m with
  | nil =>
    obtain rfl := Except.ok.inj h
    exact Nat.le_refl _
  | cons b bits ih =>
    rw [Matcher.pushAll_cons] at h
    rcases Matcher.push_cases dt n m b with ⟨e, -, -, -, hpush⟩ | ⟨-, -, hpush⟩ | ⟨-, -, hpush⟩ <;> rw [hpush] at h
    · have := ih h
      simp only [List.length_append, List.length_cons, List.length_nil] at this ⊢
      omega
    · cases h
    · have := ih h
      simp only [List.length_cons] at this ⊢
      omega

end

/-! ### Loading a decode table (44_decoder.md R181, R182) -/

theorem exec_dtLoad_ok {s : State} {e : Entry} (hs : scalar e.sym = true) (hv : s.dtValid = false)
    (hroom : s.dt.length ≠ s.cfg.nSym) (hl : codeLegal s.cfg.lMax e.len e.val = true) (hval : s.snapArg = e.val)
    (hlen : s.snapArg2.toNat = e.len) : exec (.dtLoad e.sym) s = .next { s with dt := s.dt ++ [e] } := by
  rw [exec, execDtLoad, hs, hv, beq_false_of_ne hroom, hval, hlen, hl]
  rfl

theorem exec_dtCommit_ok {s : State} (hv : s.dtValid = false) (hdup : hasDuplicateSym s.dt = false)
    (hpre : hasPrefixPair s.dt = false) :
    exec .dtCommit s = .next (State.decReset { s with dtValid := true, dtMaxLen := maxLen s.dt }) := by
  rw [exec, execDtCommit, hv, hdup, hpre]
  rfl

/-- DT_LOADC for legal entries of scalar symbols for which DT has room appends them, and leaves the last one's code in
ARG and ARG2 (30_encoding.md R115). -/
theorem runs_loadAll {u : State} (hu : u.Ready) (hv : u.dtValid = false) (hmax : u.cfg.lMax ≤ 64) {es : List Entry}
    (hroom : u.dt.length + es.length ≤ u.cfg.nSym)
    (hlegal : ∀ e ∈ es, scalar e.sym = true ∧ codeLegal u.cfg.lMax e.len e.val = true) (polls : Nat → Nat) :
    ∃ arg arg2, Runs (loadAll polls es) u () { u with dt := u.dt ++ es, arg := arg, arg2 := arg2 } := by
  induction es generalizing u polls with
  | nil =>
    refine ⟨u.arg, u.arg2, ?_⟩
    rw [List.append_nil]
    exact Runs.pure rfl
  | cons e es ih =>
    obtain ⟨⟨hs, hl⟩, hlegal⟩ := List.forall_mem_cons.1 hlegal
    rw [List.length_cons] at hroom
    let args : State := { u with arg := e.val, arg2 := (BitVec.ofNat 32 e.len).extractLsb' 0 7 }
    let loaded : State := { args with dt := u.dt ++ [e] }
    have hlen : args.arg2.toNat = e.len := by
      obtain ⟨-, hle, -⟩ := codeLegal_iff.1 hl
      simp only [args, BitVec.extractLsb'_toNat, BitVec.toNat_ofNat]
      omega
    have hfits : u.dt.length ≠ u.cfg.nSym := by omega
    have hx : exec (.dtLoad e.sym) (args.latchCommand (.dtLoad e.sym)) = .next (loaded.latchCommand (.dtLoad e.sym)) :=
      exec_dtLoad_ok (s := args.latchCommand _) hs hv hfits hl rfl hlen
    have hmore : (u.dt ++ [e]).length + es.length ≤ u.cfg.nSym := by
      rw [List.length_append, List.length_singleton]
      omega
    obtain ⟨arg, arg2, hrest⟩ := ih (u := loaded) hu hv hmax hmore hlegal (fun k => polls (k + 1))
    refine ⟨arg, arg2, ?_⟩
    have hload : Runs (dtLoadC (polls 0) e) u () loaded := by
      refine (Runs.setArg e.val u).bind ?_
      refine (Runs.arg2 _ _).bind ?_
      exact Runs.command hx hu hu
    rw [← List.append_cons] at hrest
    exact hload.bind hrest

/-! ### Feeding a payload (43_container.md R177) -/

/-- `u` with the decoder where the matcher `m` stands, its symbols in SYMQ. -/
def State.decoding (u : State) (m : Matcher) (phase : Phase) : State :=
  { u with w := m.w, wlen := m.wlen, symq := m.out, phase := phase, done := false }

theorem State.pushBits_of_pushAll {s : State} {bits : List Bool} {m : Matcher}
    (h : Matcher.pushAll s.dt s.dtMaxLen { w := s.w, wlen := s.wlen, out := [] } bits = .ok m)
    (hroom : s.symq.length + m.out.length ≤ s.cfg.symDepth) :
    s.pushBits bits = .ok { s with w := m.w, wlen := m.wlen, symq := s.symq ++ m.out } := by
  simp [State.pushBits, h, hroom.not_gt]

theorem exec_decByte_ok {s t : State} {b : Byte} (hv : s.dtValid = true) (hphase : s.phase = .OPEN)
    (h : State.pushBits { s with done := false } (byteBits b 8) = .ok t) : exec (.decByte b) s = .next t := by
  have hopen : (!s.dtValid || s.phase == .LAST) = false := by rw [hv, hphase]; rfl
  simp only [exec, execDecByte, hopen, failIf_false, h, finish_ok]

theorem exec_decLast_ok {s t : State} {b : Byte} {n : BitVec 4} (hn : tailLegal n = true) (hv : s.dtValid = true)
    (hphase : s.phase = .OPEN) (h : State.pushBits { s with done := false } (byteBits b n.toNat) = .ok t) :
    exec (.decLast b n) s = .next { t with phase := .LAST } := by
  have hopen : (!s.dtValid || s.phase == .LAST) = false := by rw [hv, hphase]; rfl
  simp only [exec, execDecLast, hn, Bool.not_true, hopen, failIf_false, h, finish_ok]

theorem exec_decEnd_ok {s : State} (hv : s.dtValid = true) (hw : s.wlen = 0) :
    exec .decEnd s = .next { s with done := true, phase := .OPEN, w := 0#64 } := by
  rw [exec, execDecEnd, hv, hw]
  rfl

/-- With SYMQ empty there is room for the symbols of up to eight bits. -/
theorem pushBits_decoding {u : State} {m m' : Matcher} (hdepth : 8 ≤ u.cfg.symDepth) {bits : List Bool}
    (h : m.drained.pushAll u.dt u.dtMaxLen bits = .ok m') (hbits : bits.length ≤ 8) :
    (u.decoding m.drained .OPEN).pushBits bits = .ok (u.decoding m' .OPEN) := by
  have hle : m'.out.length ≤ 0 + bits.length := Matcher.length_out_le h
  refine State.pushBits_of_pushAll h ?_
  show 0 + m'.out.length ≤ u.cfg.symDepth
  omega

section
variable {u : State} (hu : u.Ready) (hv : u.dtValid = true) (hdepth : 8 ≤ u.cfg.symDepth)
include hu hv hdepth

theorem runs_decByte {m m' : Matcher} {b : Byte} (h : m.drained.pushAll u.dt u.dtMaxLen (byteBits b 8) = .ok m')
    (n : Nat) : Runs (command n (.decByte b)) (u.decoding m.drained .OPEN) () (u.decoding m' .OPEN) :=
  Runs.command (exec_decByte_ok (s := (u.decoding m.drained .OPEN).latchCommand _) hv rfl
    (pushBits_decoding (u := u.latchCommand _) hdepth h (length_byteBits b 8).le)) hu hu

theorem runs_decLast {m m' : Matcher} {b : Byte} {tail : Nat} (hpos : 1 ≤ tail) (hle : tail ≤ 8)
    (h : m.drained.pushAll u.dt u.dtMaxLen (byteBits b tail) = .ok m') (n : Nat) :
    Runs (command n (.decLast b (BitVec.ofNat 4 tail))) (u.decoding m.drained .OPEN) () (u.decoding m' .LAST) := by
  have htail : (BitVec.ofNat 4 tail).toNat = tail := toNat_ofNat_of_lt (by omega)
  have hlegal : tailLegal (BitVec.ofNat 4 tail) = true := by simp [tailLegal, htail, hpos, hle]
  refine Runs.command (exec_decLast_ok (s := (u.decoding m.drained .OPEN).latchCommand _)
    (t := (u.decoding m' .OPEN).latchCommand _) hlegal hv rfl ?_) hu hu
  rw [htail]
  exact pushBits_decoding (u := u.latchCommand _) hdepth h ((length_byteBits b tail).trans_le hle)

/-- Drained after each byte, SYMQ never holds more than the eight symbols of one byte, and the symbols read are those
the matcher puts out. -/
theorem runs_feed {m m' : Matcher} {tail : Nat} (hpos : 1 ≤ tail) (hle : tail ≤ 8) {payload : List Byte}
    (h : m.drained.pushAll u.dt u.dtMaxLen (unpackBits tail payload) = .ok m') (polls : Nat → Nat) :
    ∃ phase, Runs (feed polls tail payload) (u.decoding m.drained .OPEN) m'.out (u.decoding m'.drained phase) := by
  induction payload generalizing m m' polls with
  | nil =>
    obtain rfl := Except.ok.inj h
    exact ⟨.OPEN, Runs.pure rfl⟩
  | cons b rest ih =>
    cases rest with
    | nil =>
      refine ⟨.LAST, ?_⟩
      refine (runs_decLast hu hv hdepth hpos hle h _).bind ?_
      exact Runs.drainAllSyms (u := u.decoding m' .LAST) hu.1
    | cons b' rest =>
      obtain ⟨m1, hfirst, hrest⟩ := Matcher.pushAll_append_ok (as := byteBits b 8) h
      obtain ⟨m2, hdrained, rfl⟩ := Matcher.pushAll_drained hrest
      obtain ⟨phase, hrun⟩ := ih hdrained (fun k => polls (k + 1))
      refine ⟨phase, ?_⟩
      refine (runs_decByte hu hv hdepth hfirst _).bind ?_
      refine (Runs.drainAllSyms (u := u.decoding m1 .OPEN) hu.1).bind ?_
      refine hrun.bind ?_
      exact Runs.pure rfl

end

/-! ### The codes of a text, read by the matcher (44_decoder.md R195) -/

/-- The bits of an encodable text are those of the entries of its characters. -/
theorem Encodable.entries {ct : List Entry} {text : List Sym} (h : Encodable ct text) :
    ∃ es : List Entry, (∀ e ∈ es, e ∈ ct) ∧ textBits ct text = bitsOf es ∧ es.map Entry.sym = text := by
  induction text with
  | nil => exact ⟨[], by simp, rfl, rfl⟩
  | cons c text ih =>
    obtain ⟨⟨-, e, he, -⟩, h⟩ := List.forall_mem_cons.1 h
    obtain ⟨es, hes, hbits, hsyms⟩ := ih h
    obtain ⟨hmem, hsym⟩ := findSym_some he
    refine ⟨e :: es, List.forall_mem_cons.2 ⟨hmem, hes⟩, ?_, ?_⟩
    · rw [textBits_cons_of_findSym he, hbits, bitsOf_cons]
    · rw [List.map_cons, hsym, hsyms]

section
variable {p : Config.Params} {text : List Sym} {nodes : List Node} {ct : List Entry} (h : Encodes p text nodes ct)
include h

theorem Encodes.entries_legal : ∀ e ∈ ct, scalar e.sym = true ∧ codeLegal p.lMax e.len e.val = true := by
  intro e he
  have hkey := (h.tableOf.sym_mem_iff e.sym).1 ⟨e, he, rfl⟩
  exact ⟨h.chars _ ((h.counts.keys _).1 hkey), h.tableOf.legal e he⟩

/-- DT_COMMIT accepts the table. -/
theorem Encodes.committable : hasDuplicateSym ct = false ∧ hasPrefixPair ct = false := by
  refine ⟨hasDuplicateSym_false.2 (h.tableOf.pairwise_sym_ne h.counts.form),
    hasPrefixPair_false.2 (h.tableOf.noPrefixPair.imp_of_mem fun {a b} ha hb hab => ?_)⟩
  have ha := h.tableOf.val_lt ha
  have hb := h.tableOf.val_lt hb
  rw [← Bool.not_eq_true, ← Bool.not_eq_true, Entry.isPrefixOf_iff ha hb, Entry.isPrefixOf_iff hb ha]
  exact hab

theorem Encodes.tableLegal : TableLegal ct (maxLen ct) where
  legal e he :=
    let ⟨hpos, _, hval⟩ := codeLegal_iff.1 (h.tableOf.legal e he)
    ⟨hpos, len_le_maxLen he, hval⟩
  short := maxLen_le fun _ he => h.len_le he

/-- The matcher reads the bits of the text as the text, and ends with an empty window. -/
theorem Encodes.matched : ∃ m : Matcher,
    Matcher.pushAll ct (maxLen ct) { w := 0#64, wlen := 0, out := [] } (textBits ct text) = .ok m ∧ m.wlen = 0 ∧
      m.out = text := by
  obtain ⟨es, hes, hbits, hsyms⟩ := h.encodable.entries
  have hopen : ∀ e ∈ ct, ¬ e.bits <+: [] := fun e he => Entry.not_bits_prefix_nil (h.tableOf.legal e he)
  obtain ⟨m, hpush, hwindow, -, hout⟩ := Matcher.pushAll_complete h.tableLegal h.committable.2 (textBits ct text)
    (Matcher.open_empty h.tableLegal []) hes (by rw [hbits, List.append_nil]; rfl) hopen (.inl rfl)
  refine ⟨m, hpush, ?_, ?_⟩
  · rw [← length_codeBits m.wlen m.w, ← Matcher.bits, hwindow, List.length_nil]
  · rw [hout, hsyms, List.nil_append]

/-! ### Host `decode` (43_container.md R177) -/

theorem Encodes.parse_messageContainer : parse p.lMax (messageContainer ct (textBits ct text)) = .ok (ct,
    (packed (textBits ct text)).out ++ (packed (textBits ct text)).lastByte,
    (packed (textBits ct text)).tailCount) := by
  refine parseOfContainerGivesItBack _ _ _ _ h.lMax_le (h.tableOf.sorted h.counts.form) h.entries_legal
    (Serializer.one_le_tailCount _) (tailCount_packed_le _) fun hempty => ?_
  exact Serializer.tailCount_of_payload_nil hempty

/-- Host `decode` gives back the text. -/
theorem runs_hostDecode (polls : Schedule) :
    ∃ t, Runs (hostDecode polls (messageContainer ct (textBits ct text))) (State.resetWith p) (.ok text) t := by
  have hready : (State.resetWith p).Ready := ⟨rfl, rfl⟩
  obtain ⟨-, -, -, hmax, -, -, hdepth, -⟩ := paramsWf_iff.1 h.params
  have hlMax : (Reg.CAP_LMAX.value (State.resetWith p)).toNat = p.lMax :=
    toNat_ofNat_of_lt (hmax.trans_lt (by decide))
  obtain ⟨arg, arg2, hload⟩ := runs_loadAll (u := State.resetWith p) hready rfl hmax
    ((Nat.zero_add _).trans_le h.length_le) h.entries_legal (polls 1)
  let loaded : State := { State.resetWith p with dt := ct, arg := arg, arg2 := arg2 }
  let committed : State := { loaded with dtValid := true, dtMaxLen := maxLen ct }
  obtain ⟨hdup, hpre⟩ := h.committable
  have hcommit : exec .dtCommit (loaded.latchCommand .dtCommit) = .next (committed.latchCommand .dtCommit) :=
    exec_dtCommit_ok (s := loaded.latchCommand _) rfl hdup hpre
  obtain ⟨m, hmatch, hwlen, rfl⟩ := h.matched
  rw [← bits_packed (textBits ct _), ← Serializer.unpackBits_payload] at hmatch
  obtain ⟨phase, hfeed⟩ := runs_feed (u := committed) hready rfl hdepth (m := { w := 0#64, wlen := 0, out := [] })
    (Serializer.one_le_tailCount _) (tailCount_packed_le _) hmatch (polls 3)
  let fed := committed.decoding m.drained phase
  let ended : State := { fed with done := true, phase := .OPEN, w := 0#64 }
  have hend : exec .decEnd (fed.latchCommand .decEnd) = .next (ended.latchCommand .decEnd) :=
    exec_decEnd_ok (s := fed.latchCommand _) rfl hwlen
  obtain ⟨herr, hdone⟩ := status_err_done ended
  refine ⟨ended, ?_⟩
  unfold hostDecode
  refine (Runs.rd rfl (by decide) (by decide)).bind ?_
  rw [hlMax, h.parse_messageContainer]
  refine (Runs.command (t := State.resetWith p) rfl hready hready).bind ?_
  refine hload.bind ?_
  refine (Runs.command hcommit hready hready).bind ?_
  refine hfeed.bind ?_
  refine (Runs.command hend hready hready).bind ?_
  refine (Runs.rd (u := ended) rfl (by decide) (by decide)).bind ?_
  rw [herr, hdone]
  exact Runs.pure rfl

end

/-- Settles O60: the encoder packs the codes of the text, the parse gives back the table and the payload, and the
matcher reads the same codes. -/
theorem decodeOfEncodedTextIsTheText : Obligations.DecodeOfEncodedTextIsTheText := by
  intro p enc dec text hwf hs hroom hlen htable
  have hcounts := countsText_ftOfText hs hlen
  obtain ⟨nodes, hnodes⟩ := buildNodes_ok_of_total (hcounts.total ▸ hlen)
  obtain ⟨ct, hct⟩ := htable nodes hnodes
  have h : Encodes p text nodes ct := ⟨hwf, hs, hlen, hroom, hnodes, hct⟩
  obtain ⟨t, henc⟩ := runs_hostEncode h enc
  obtain ⟨t', hdec⟩ := runs_hostDecode h dec
  exact ⟨_, henc.returns, hdec.returns⟩

end Sys2Proof.Machine

/-! The statements of 44_decoder.md: the decode table, DEC_BYTE, DEC_LAST and DEC_END, and a message of the three. -/

namespace Sys2Proof.Machine

/-! ### The words of formats B and T (30_encoding.md R105, R106) -/

theorem hasFormatB_decByte : HasFormatB 0x48#8 .decByte := by
  intro w hw
  obtain ⟨-, -, -, hbits, -⟩ := reservedOpcodesAndBitsAreIllegal w
  refine ⟨fun h0 => wordRuns_of_fields hw ?_, hbits hw⟩
  rw [Instr.operand, ← h0, BitVec.extractLsb'_append_extractLsb'_eq_extractLsb' (by decide)]
  rfl

theorem hasFormatT_decLast : HasFormatT 0x49#8 .decLast := by
  intro w hw
  obtain ⟨-, -, -, -, hbits⟩ := reservedOpcodesAndBitsAreIllegal w
  refine ⟨fun h0 => wordRuns_of_fields hw ?_, hbits hw⟩
  rw [Instr.operand, ← h0, BitVec.extractLsb'_append_extractLsb'_eq_extractLsb' (by decide),
    BitVec.extractLsb'_append_extractLsb'_eq_extractLsb' (by decide)]
  rfl

/-! ### The decode table (R180 to R184) -/

theorem Entry.isPrefixOf_eq_true_iff {a b : Entry} :
    a.isPrefixOf b = true ↔ a.len ≤ b.len ∧ b.val >>> (b.len - a.len) = a.val := by
  simp only [Entry.isPrefixOf, Bool.and_eq_true, decide_eq_true_eq, beq_iff_eq]

/-- Settles O35: the test divides the numbers the bit strings stand for. -/
theorem prefixTestIsThePrefixRelation : Obligations.PrefixTestIsThePrefixRelation := by
  intro a b _ _ ha hb
  refine ⟨Entry.isPrefixOf_eq_true_iff, Entry.isPrefixOf_iff ha hb, fun hlen hval => ?_⟩
  simp [Entry.isPrefixOf_eq_true_iff, hlen, hval]

/-- Settles O31: DT_CLEAR has no check. -/
theorem dtClearEmptiesDt : Obligations.DtClearEmptiesDt :=
  ⟨hasFormatN_of_opcode (by decide) rfl, fun _ => rfl⟩

/-- Settles O32: DT_LOAD appends one entry behind its four checks. -/
theorem dtLoadAppendsTheEntry : Obligations.DtLoadAppendsTheEntry := by
  refine ⟨hasFormatS_of_operand (by decide) (fun _ => rfl) fun _ => rfl, fun s c =>
    ⟨fun hc => ?_, fun hc hv => ?_, fun hc hv hfull => ?_, fun hc hv hroom hillegal => ?_,
      fun hc hv hroom hpos hle hval => ?_⟩⟩
  · simp [exec, execDtLoad, hc]
  · simp [exec, execDtLoad, hc, hv]
  · simp [exec, execDtLoad, hc, hv, hfull]
  · have hbad : codeLegal s.cfg.lMax s.snapArg2.toNat s.snapArg = false := by
      rw [← Bool.not_eq_true, codeLegal_iff]
      omega
    simp [exec, execDtLoad, hc, hv, beq_false_of_ne hroom, hbad]
  · have hlegal := codeLegal_iff.2 ⟨hpos, hle, hval⟩
    exact exec_dtLoad_ok (e := ⟨c, s.snapArg2.toNat, s.snapArg⟩) hc hv hroom hlegal rfl rfl

/-- Settles O34: DT_FROM_CT has one check. -/
theorem dtFromCtCopiesTheTable : Obligations.DtFromCtCopiesTheTable := by
  refine ⟨hasFormatN_of_opcode (by decide) rfl, fun s => ⟨fun hv => ?_, fun hv => ?_⟩⟩
  · simp [exec, execDtFromCt, hv]
  · simp [exec, execDtFromCt, hv, State.decReset]

/-- A symmetric relation holds of all pairs of a list when it holds of its entries at any two indices. -/
theorem pairwise_iff_getElem?_ne {α : Type} {r : α → α → Prop} (hsymm : ∀ a b, r a b → r b a) {l : List α} :
    l.Pairwise r ↔ ∀ (j k : Nat) (a b : α), l[j]? = some a → l[k]? = some b → j ≠ k → r a b := by
  rw [List.pairwise_iff_getElem]
  constructor
  · intro h j k a b hj hk hne
    obtain ⟨hjl, rfl⟩ := List.getElem?_eq_some_iff.1 hj
    obtain ⟨hkl, rfl⟩ := List.getElem?_eq_some_iff.1 hk
    rcases Nat.lt_or_gt_of_ne hne with hlt | hgt
    · exact h j k hjl hkl hlt
    · exact hsymm _ _ (h k j hkl hjl hgt)
  · exact fun h j k hj hk hlt =>
      h j k _ _ (List.getElem?_eq_getElem hj) (List.getElem?_eq_getElem hk) hlt.ne

/-- The two tests of DT_COMMIT look at every two entries (R182). -/
theorem committable_iff {t : List Entry} : (hasDuplicateSym t = false ∧ hasPrefixPair t = false) ↔
    ∀ (j k : Nat) (a b : Entry), t[j]? = some a → t[k]? = some b → j ≠ k →
      a.sym ≠ b.sym ∧ ¬ (a.len ≤ b.len ∧ b.val >>> (b.len - a.len) = a.val) := by
  rw [hasDuplicateSym_false, hasPrefixPair_false, pairwise_iff_getElem?_ne fun _ _ => Ne.symm,
    pairwise_iff_getElem?_ne fun _ _ => And.symm]
  simp only [← Bool.not_eq_true, Entry.isPrefixOf_eq_true_iff]
  constructor
  · exact fun ⟨hsym, hpre⟩ j k a b hj hk hne => ⟨hsym j k a b hj hk hne, (hpre j k a b hj hk hne).1⟩
  · exact fun h => ⟨fun j k a b hj hk hne => (h j k a b hj hk hne).1,
      fun j k a b hj hk hne => ⟨(h j k a b hj hk hne).2, (h k j b a hk hj hne.symm).2⟩⟩

theorem exec_dtCommit_corrupt {s : State} (hv : s.dtValid = false)
    (h : ¬ (hasDuplicateSym s.dt = false ∧ hasPrefixPair s.dt = false)) :
    exec .dtCommit s = .next (s.recordError .CORRUPT_TABLE 0x42#8) := by
  rw [exec, execDtCommit, hv]
  cases hdup : hasDuplicateSym s.dt with
  | true => rfl
  | false =>
    have hpre : hasPrefixPair s.dt = true := by simpa [hdup] using h
    rw [hpre]
    rfl

theorem exists_len_eq_maxLen {t : List Entry} (h : t ≠ []) : ∃ e ∈ t, e.len = maxLen t := by
  induction t with
  | nil => exact absurd rfl h
  | cons e rest ih =>
    rcases Nat.le_total (maxLen rest) e.len with hle | hle
    · exact ⟨e, List.mem_cons_self, (max_eq_left hle).symm⟩
    · cases rest with
      | nil => exact ⟨e, List.mem_cons_self, (max_eq_left (Nat.zero_le _)).symm⟩
      | cons f rest =>
        obtain ⟨g, hg, hlen⟩ := ih (List.cons_ne_nil f rest)
        exact ⟨g, List.mem_cons_of_mem e hg, hlen.trans (max_eq_right hle).symm⟩

/-- Settles O33: the two tests of DT_COMMIT look at every two entries, and DTMAXLEN is `maxLen`. -/
theorem dtCommitValidatesTheTable : Obligations.DtCommitValidatesTheTable := by
  refine ⟨hasFormatN_of_opcode (by decide) rfl, fun s =>
    ⟨fun hv => ?_, fun j k a b hv hj hk hne hclash => ?_, fun hv hclean => ?_⟩⟩
  · simp [exec, execDtCommit, hv]
  · refine exec_dtCommit_corrupt hv fun hclean => ?_
    obtain ⟨hsym, hpre⟩ := committable_iff.1 hclean j k a b hj hk hne
    exact hclash.elim hsym hpre
  · obtain ⟨hdup, hpre⟩ := committable_iff.2 hclean
    exact ⟨maxLen s.dt, exec_dtCommit_ok hv hdup hpre, fun _ => len_le_maxLen, fun h => by rw [h]; rfl,
      exists_len_eq_maxLen⟩

/-! ### What the matcher reads from the window on (R186, R195) -/

/-- The matcher at the window of `s`, with no symbol put out yet. -/
def State.matcher (s : State) : Matcher := { w := s.w, wlen := s.wlen, out := [] }

/-- The bits in the window and then `bits` are the codes of `es` and then `rest`, in which no code has been
completed. -/
structure State.Reads (s : State) (bits : List Bool) (es : List Entry) (rest : List Bool) : Prop where
  entries : ∀ e ∈ es, e ∈ s.dt
  split : s.windowBits ++ bits = bitsOf es ++ rest
  noCode : ∀ e ∈ s.dt, ¬ e.bits <+: rest
  short : rest = [] ∨ rest.length < s.dtMaxLen

theorem State.DecoderInv.matcher_open {s : State} (h : s.DecoderInv) : s.matcher.Open s.dt s.dtMaxLen :=
  ⟨h.windowBits, h.windowShort, h.windowOpen⟩

theorem Matcher.length_bits (m : Matcher) : m.bits.length = m.wlen := length_codeBits _ _

/-- An open window is determined by its bits. -/
theorem Matcher.Open.eq_of_bits {dt : List Entry} {n : Nat} {m : Matcher} (h : m.Open dt n) :
    m = { w := BitVec.ofNat 64 (bitsValue m.bits), wlen := m.bits.length, out := m.out } := by
  have hw : BitVec.ofNat 64 (bitsValue m.bits) = m.w := by
    rw [Matcher.bits, bitsValue_codeBits h.bound, BitVec.ofNat_toNat, BitVec.setWidth_eq]
  rw [hw, m.length_bits]

/-- With an empty window, bits without an open rest are read as whole codes. -/
theorem State.DecoderInv.reads_nil_iff {s : State} (h : s.DecoderInv) (hw : s.wlen = 0) {bits : List Bool}
    {es : List Entry} : s.Reads bits es [] ↔ (∀ e ∈ es, e ∈ s.dt) ∧ bits = bitsOf es := by
  have hwindow : s.windowBits = [] := by rw [State.windowBits, hw]; rfl
  constructor
  · exact fun hr => ⟨hr.entries, by simpa [hwindow] using hr.split⟩
  · rintro ⟨hes, rfl⟩
    refine ⟨hes, ?_, fun e he => Entry.not_bits_prefix_nil (h.dtEntries e he).2, .inl rfl⟩
    rw [hwindow, List.nil_append, List.append_nil]

section
variable {s : State} (h : s.DecoderInv) (hc : s.cfg.wf = true) (hv : s.dtValid = true)
  {bits : List Bool} {es : List Entry} {rest : List Bool}
include h hc hv

theorem State.DecoderInv.pushAll_of_reads (hr : s.Reads bits es rest) :
    s.matcher.pushAll s.dt s.dtMaxLen bits =
      .ok { w := BitVec.ofNat 64 (bitsValue rest), wlen := rest.length, out := es.map Entry.sym } := by
  obtain ⟨-, hpre, -⟩ := h.committed hv
  obtain ⟨m, hpush, rfl, hopen, hout⟩ := Matcher.pushAll_complete (h.tableLegal hc hv) hpre bits h.matcher_open
    hr.entries hr.split hr.noCode hr.short
  rw [hpush, ← show m.out = es.map Entry.sym from hout, ← hopen.eq_of_bits]

theorem State.DecoderInv.reads_of_pushAll {m : Matcher} (hpush : s.matcher.pushAll s.dt s.dtMaxLen bits = .ok m) :
    ∃ es, s.Reads bits es m.bits := by
  obtain ⟨hopen, es, hes, hsplit, -⟩ := Matcher.pushAll_sound (h.tableLegal hc hv) bits h.matcher_open hpush
  refine ⟨es, hes, hsplit, hopen.noCode, hopen.short.imp (fun h0 => ?_) fun hlt => ?_⟩
  · rw [← List.length_eq_zero_iff, m.length_bits, h0]
  · rwa [m.length_bits]

end

/-! ### DEC_BYTE, DEC_LAST and DEC_END (R190, R193, R194) -/

/-- What DEC_BYTE and DEC_LAST do behind their checks: feed bits with DONE = 0, and leave PHASE at `phase`. -/
def State.feed (s : State) (bits : List Bool) (phase : Phase) : Attempt :=
  (State.pushBits { s with done := false } bits).map fun t => { t with phase := phase }

section
variable {s : State} {bits : List Bool} {m : Matcher}

theorem State.feed_ok (h : s.matcher.pushAll s.dt s.dtMaxLen bits = .ok m)
    (hroom : s.symq.length + m.out.length ≤ s.cfg.symDepth) (phase : Phase) :
    s.feed bits phase = .ok (s.decoding (m.prepend s.symq) phase) := by
  rw [State.feed, State.pushBits_of_pushAll (s := { s with done := false }) h hroom]
  rfl

theorem State.feed_overflow (h : s.matcher.pushAll s.dt s.dtMaxLen bits = .ok m)
    (hfull : s.cfg.symDepth < s.symq.length + m.out.length) (phase : Phase) :
    s.feed bits phase = .error .FIFO_OVERFLOW := by
  unfold State.matcher at h
  simp [State.feed, State.pushBits, h, hfull, Except.map]

theorem State.feed_undecodable (h : ∀ m, s.matcher.pushAll s.dt s.dtMaxLen bits ≠ .ok m) (phase : Phase) :
    s.feed bits phase = .error .UNDECODABLE := by
  unfold State.matcher at h
  cases hpush : Matcher.pushAll s.dt s.dtMaxLen { w := s.w, wlen := s.wlen, out := [] } bits with
  | ok m => exact absurd hpush (h m)
  | error e =>
    obtain rfl := Matcher.pushAll_error hpush
    simp [State.feed, State.pushBits, hpush, Except.map]

end

section
variable {s : State} (h : s.DecoderInv) (hc : s.cfg.wf = true) (hv : s.dtValid = true)
  {bits : List Bool} (opc : BitVec 8) (phase : Phase)
include h hc hv

/-- Bits that are read as codes and an open rest push the codes' symbols, if SYMQ has room for all of them. -/
theorem State.DecoderInv.finish_feed_of_reads {es : List Entry} {rest : List Bool} (hr : s.Reads bits es rest) :
    (s.symq.length + es.length ≤ s.cfg.symDepth → finish s opc (s.feed bits phase) = .next { s with
      phase := phase, done := false, w := BitVec.ofNat 64 (bitsValue rest), wlen := rest.length
      symq := s.symq ++ es.map Entry.sym }) ∧
    (s.cfg.symDepth < s.symq.length + es.length →
      finish s opc (s.feed bits phase) = .next (s.recordError .FIFO_OVERFLOW opc)) := by
  have hpush := h.pushAll_of_reads hc hv hr
  rw [← List.length_map Entry.sym]
  refine ⟨fun hroom => ?_, fun hfull => ?_⟩
  · rw [State.feed_ok hpush hroom]
    rfl
  · rw [State.feed_overflow hpush hfull, finish_error]

theorem State.DecoderInv.finish_feed_of_not_reads (hno : ∀ es rest, ¬ s.Reads bits es rest) :
    finish s opc (s.feed bits phase) = .next (s.recordError .UNDECODABLE opc) := by
  rw [State.feed_undecodable fun m hpush => ?_, finish_error]
  obtain ⟨es, hr⟩ := h.reads_of_pushAll hc hv hpush
  exact hno es m.bits hr

end

theorem exec_decByte_of_open {s : State} (hv : s.dtValid = true) (hphase : s.phase = .OPEN) (b : Byte) :
    exec (.decByte b) s = finish s 0x48#8 (s.feed (byteBits b 8) s.phase) := by
  have hkeep : s.feed (byteBits b 8) s.phase = State.pushBits { s with done := false } (byteBits b 8) := by
    rw [State.feed]
    cases hpush : State.pushBits { s with done := false } (byteBits b 8) with
    | error e => rfl
    | ok t =>
      obtain ⟨m, -, -, rfl⟩ := State.pushBits_ok hpush
      rfl
  have hopen : (!s.dtValid || s.phase == .LAST) = false := by rw [hv, hphase]; rfl
  simp only [exec, execDecByte, hopen, failIf_false, hkeep]

theorem tailLegal_iff {n : BitVec 4} : tailLegal n = true ↔ 1 ≤ n.toNat ∧ n.toNat ≤ 8 := by
  simp only [tailLegal, Bool.and_eq_true, decide_eq_true_eq]

theorem exec_decLast_of_open {s : State} {n : BitVec 4} (hn : tailLegal n = true) (hv : s.dtValid = true)
    (hphase : s.phase = .OPEN) (b : Byte) :
    exec (.decLast b n) s = finish s 0x49#8 (s.feed (byteBits b n.toNat) .LAST) := by
  have hopen : (!s.dtValid || s.phase == .LAST) = false := by rw [hv, hphase]; rfl
  simp only [exec, execDecLast, hn, Bool.not_true, hopen, failIf_false, State.feed]
  cases State.pushBits { s with done := false } (byteBits b n.toNat) <;> rfl

/-- Settles O36: behind its check DEC_BYTE feeds eight bits to the matcher, which reads codes and an open rest. -/
theorem decByteDecodesEightBits : Obligations.DecByteDecodesEightBits := by
  refine ⟨hasFormatB_decByte, fun s b hc h =>
    ⟨fun hseq => ?_, fun es rest hv hphase hes hsplit hopen hshort => ?_, fun hv hphase hno => ?_⟩⟩
  · rcases hseq with hv | hphase
    · simp [exec, execDecByte, hv]
    · simp [exec, execDecByte, hphase]
  · rw [exec_decByte_of_open hv hphase]
    exact h.finish_feed_of_reads hc hv 0x48#8 s.phase ⟨hes, hsplit, hopen, hshort⟩
  · rw [exec_decByte_of_open hv hphase]
    exact h.finish_feed_of_not_reads hc hv 0x48#8 s.phase fun es rest hr =>
      hno ⟨es, rest, hr.entries, hr.split, hr.noCode, hr.short⟩

/-- Settles O37: as DEC_BYTE, with the top bits of the byte alone. -/
theorem decLastDecodesTheTailBits : Obligations.DecLastDecodesTheTailBits := by
  refine ⟨hasFormatT_decLast, fun s b n => ⟨fun hbad => ?_, fun hpos hle hc h =>
    ⟨fun hseq => ?_, fun es rest hv hphase hes hsplit hopen hshort => ?_, fun hv hphase hno => ?_⟩⟩⟩
  · have hn : tailLegal n = false := by
      rw [← Bool.not_eq_true, tailLegal_iff]
      omega
    simp [exec, execDecLast, hn]
  · have hn := tailLegal_iff.2 ⟨hpos, hle⟩
    rcases hseq with hv | hphase
    · simp [exec, execDecLast, hn, hv]
    · simp [exec, execDecLast, hn, hphase]
  · rw [exec_decLast_of_open (tailLegal_iff.2 ⟨hpos, hle⟩) hv hphase]
    exact h.finish_feed_of_reads hc hv 0x49#8 .LAST ⟨hes, hsplit, hopen, hshort⟩
  · rw [exec_decLast_of_open (tailLegal_iff.2 ⟨hpos, hle⟩) hv hphase]
    exact h.finish_feed_of_not_reads hc hv 0x49#8 .LAST fun es rest hr =>
      hno ⟨es, rest, hr.entries, hr.split, hr.noCode, hr.short⟩

theorem exec_decEnd_undecodable {s : State} (hv : s.dtValid = true) (hw : s.wlen ≠ 0) :
    exec .decEnd s = .next (s.recordError .UNDECODABLE 0x4A#8) := by
  rw [exec, execDecEnd, hv, bne_iff_ne.2 hw]
  rfl

/-- Settles O38: DEC_END has two checks. -/
theorem decEndChecksTheWindow : Obligations.DecEndChecksTheWindow := by
  refine ⟨hasFormatN_of_opcode (by decide) rfl, fun s =>
    ⟨fun hv => ?_, exec_decEnd_undecodable, exec_decEnd_ok⟩⟩
  simp [exec, execDecEnd, hv]

/-! ### A message (R192, R195) -/

/-- A bit string is the concatenation of at most one sequence of codes of a table in which no code begins
another. -/
theorem bitsOf_injective {dt : List Entry} {n : Nat} (h : TableLegal dt n) (hf : hasPrefixPair dt = false)
    {es fs : List Entry} (hes : ∀ e ∈ es, e ∈ dt) (hfs : ∀ f ∈ fs, f ∈ dt) (heq : bitsOf es = bitsOf fs) :
    es = fs := by
  have hne : ∀ e ∈ dt, ∀ bits : List Bool, [] ≠ e.bits ++ bits := fun e he bits hnil => by
    have hlen := congrArg List.length hnil
    have hpos := (h.legal e he).1
    rw [List.length_append, e.length_bits, List.length_nil] at hlen
    omega
  induction es generalizing fs with
  | nil =>
    cases fs with
    | nil => rfl
    | cons f fs => exact absurd (heq.trans (bitsOf_cons f fs)) (hne f (hfs f List.mem_cons_self) _)
  | cons e es ih =>
    obtain ⟨he, hes⟩ := List.forall_mem_cons.1 hes
    cases fs with
    | nil => exact absurd (heq.symm.trans (bitsOf_cons e es)) (hne e he _)
    | cons f fs =>
      obtain ⟨hf', hrest⟩ := List.forall_mem_cons.1 hfs
      rw [bitsOf_cons, bitsOf_cons] at heq
      have hfirst : e = f := by
        rcases List.prefix_or_prefix_of_prefix (List.prefix_append e.bits (bitsOf es))
            (heq ▸ List.prefix_append f.bits (bitsOf fs)) with hp | hp
        · exact eq_of_prefix h hf he hf' hp
        · exact (eq_of_prefix h hf hf' he hp).symm
      subst hfirst
      rw [ih hes hrest (List.append_cancel_left heq)]

/-- The matcher reads what follows `as` from where it stood after `as`. -/
theorem Matcher.pushAll_append {dt : List Entry} {n : Nat} {m m1 : Matcher} {as : List Bool}
    (h : m.pushAll dt n as = .ok m1) (bs : List Bool) :
    m.pushAll dt n (as ++ bs) = (m1.drained.pushAll dt n bs).map (Matcher.prepend m1.out) := by
  induction as generalizing m with
  | nil =>
    obtain rfl := Except.ok.inj h
    rw [← Matcher.pushAll_prepend]
    simp [Matcher.drained, Matcher.prepend]
  | cons a as ih =>
    rw [Matcher.pushAll_cons] at h
    rw [List.cons_append, Matcher.pushAll_cons]
    cases hpush : m.push dt n a with
    | error e => rw [hpush] at h; cases h
    | ok m2 => rw [hpush] at h; exact ih h

/-- Commands end with UNDECODABLE recorded. -/
def EndsUndecodable (r : Result) : Prop := ∃ t, r = .next t ∧ t.err = true ∧ t.ecode = .UNDECODABLE

/-- How the commands of a message end: they succeed when the matcher reads its bits and ends with an empty window, and
otherwise they end with UNDECODABLE. -/
def State.MessageEnds (s : State) (bits : List Bool) (r : Result) : Prop :=
  (∃ m, s.matcher.pushAll s.dt s.dtMaxLen bits = .ok m ∧ m.wlen = 0 ∧ r = .next { s with
    done := true, phase := .OPEN, w := 0#64, wlen := 0, symq := s.symq ++ m.out }) ∨
  ((∀ m, s.matcher.pushAll s.dt s.dtMaxLen bits = .ok m → m.wlen ≠ 0) ∧ EndsUndecodable r)

/-- A message ends as it does from where the matcher stands after its first bits. -/
theorem State.MessageEnds.append {s : State} {m : Matcher} {as bs : List Bool} {phase : Phase} {r : Result}
    (h : (s.decoding (m.prepend s.symq) phase).MessageEnds bs r)
    (hpush : s.matcher.pushAll s.dt s.dtMaxLen as = .ok m) : s.MessageEnds (as ++ bs) r := by
  rw [State.MessageEnds, Matcher.pushAll_append hpush]
  rcases h with ⟨m2, hpush2, hw, rfl⟩ | ⟨hno, hend⟩
  · refine .inl ⟨m2.prepend m.out, ?_, hw, ?_⟩
    · rw [show m.drained.pushAll s.dt s.dtMaxLen bs = .ok m2 from hpush2]
      rfl
    · simp [State.decoding, Matcher.prepend]
  · refine .inr ⟨fun m' hm' => ?_, hend⟩
    cases hpush2 : m.drained.pushAll s.dt s.dtMaxLen bs with
    | error e => rw [hpush2] at hm'; cases hm'
    | ok m2 =>
      rw [hpush2] at hm'
      obtain rfl := Except.ok.inj hm'
      exact hno m2 hpush2

/-- With a committed table and PHASE = OPEN the command `i` feeds `bits` and leaves PHASE at `phase`. -/
def Feeds (i : Instr) (bits : List Bool) (phase : Phase) : Prop :=
  ∀ s : State, s.dtValid = true → s.phase = .OPEN → exec i s = finish s i.opcode (s.feed bits phase)

/-- The command for a byte, and the bits it feeds; PHASE is left at OPEN unless the byte is the last. -/
theorem feedCommands_cons {tail : Nat} (hpos : 1 ≤ tail) (hle : tail ≤ 8) (b : Byte) (rest : List Byte) :
    ∃ i k phase, feedCommands tail (b :: rest) = i :: feedCommands tail rest ∧
      unpackBits tail (b :: rest) = byteBits b k ++ unpackBits tail rest ∧ k ≤ 8 ∧
      Feeds i (byteBits b k) phase ∧ i.opcode ∉ [0x00#8, 0x01#8] ∧ (rest = [] ∨ phase = .OPEN) := by
  cases rest with
  | nil =>
    have htail : (BitVec.ofNat 4 tail).toNat = tail := toNat_ofNat_of_lt (by omega)
    refine ⟨.decLast b (BitVec.ofNat 4 tail), tail, .LAST, rfl, (List.append_nil _).symm, hle, fun s hv hphase => ?_,
      by simp [Instr.opcode], .inl rfl⟩
    rw [exec_decLast_of_open (tailLegal_iff.2 (by omega)) hv hphase, htail]
    rfl
  | cons b' rest =>
    refine ⟨.decByte b, 8, .OPEN, rfl, rfl, Nat.le_refl 8, fun s hv hphase => ?_, by simp [Instr.opcode],
      .inr rfl⟩
    rw [exec_decByte_of_open hv hphase, hphase]
    rfl

theorem feedCommands_opcode {tail : Nat} (hpos : 1 ≤ tail) (hle : tail ≤ 8) (payload : List Byte) :
    ∀ i ∈ feedCommands tail payload, i.opcode ∉ [0x00#8, 0x01#8] := by
  induction payload with
  | nil => exact List.forall_mem_singleton.2 (by decide)
  | cons b rest ih =>
    obtain ⟨i, k, phase, hcmds, -, -, -, hopc, -⟩ := feedCommands_cons hpos hle b rest
    rw [hcmds]
    exact List.forall_mem_cons.2 ⟨hopc, ih⟩

section
variable {s : State} (hp : s.pend = none) (herr : s.err = false) (hv : s.dtValid = true)

section
include hp herr

/-- A command issued to an idle block with no error recorded leaves what it leaves, with the latch free. -/
theorem issue_of_exec {i : Instr} {t : State} (hx : exec i (s.latchCommand i) = .next t) :
    issue i s = .next t.clearPend := by
  rw [issue, submit_latches (by simp [State.busy, hp]) (.inl herr)]
  exact engineStep_latched (s := s.latchCommand i) rfl (decode_encode i) hx

/-- The commands after an undecodable one are dropped (30_encoding.md R111). -/
theorem issueAll_undecodable {i : Instr} {rest : List Instr}
    (hx : exec i (s.latchCommand i) = .next ((s.latchCommand i).recordError .UNDECODABLE i.opcode))
    (hrest : ∀ i ∈ rest, i.opcode ∉ [0x00#8, 0x01#8]) : EndsUndecodable (issueAll (i :: rest) s) := by
  refine ⟨((s.latchCommand i).recordError .UNDECODABLE i.opcode).clearPend, ?_, State.recordError_err _ _ _, ?_⟩
  · rw [issueAll_cons_of_next (issue_of_exec hp herr hx)]
    exact issueAll_of_err rfl (State.recordError_err _ _ _) hrest
  · rw [State.recordError_of_quiet (s := s.latchCommand i) herr]
    rfl

end

include hp herr hv

theorem messageEnds_decEnd : s.MessageEnds [] (issueAll [.decEnd] s) := by
  by_cases hw : s.wlen = 0
  · refine .inl ⟨s.matcher, rfl, hw, ?_⟩
    rw [issueAll_singleton, issue_of_exec hp herr (exec_decEnd_ok (s := s.latchCommand .decEnd) hv hw)]
    simp [State.clearPend, State.latchCommand, State.matcher, hp, hw]
  · refine .inr ⟨fun m hm => ?_, ?_⟩
    · obtain rfl := Except.ok.inj hm
      exact hw
    · exact issueAll_undecodable hp herr (exec_decEnd_undecodable (s := s.latchCommand .decEnd) hv hw) nofun

/-- A command that feeds bits leaves the decoder where the matcher has come to, or fails with UNDECODABLE. -/
theorem Feeds.issue_cases {i : Instr} {bits : List Bool} {phase : Phase} (hf : Feeds i bits phase)
    (hphase : s.phase = .OPEN) (hroom : s.symq.length + bits.length ≤ s.cfg.symDepth) :
    (∃ m, s.matcher.pushAll s.dt s.dtMaxLen bits = .ok m ∧
      issue i s = .next (s.decoding (m.prepend s.symq) phase)) ∨
    ((∀ m, s.matcher.pushAll s.dt s.dtMaxLen bits ≠ .ok m) ∧ ∀ rest : List Instr,
      (∀ j ∈ rest, j.opcode ∉ [0x00#8, 0x01#8]) → EndsUndecodable (issueAll (i :: rest) s)) := by
  have hx := hf (s.latchCommand i) hv hphase
  cases hpush : s.matcher.pushAll s.dt s.dtMaxLen bits with
  | error e =>
    refine .inr ⟨nofun, fun rest => issueAll_undecodable hp herr ?_⟩
    rw [hx, State.feed_undecodable (s := s.latchCommand i) fun m hm => absurd (hpush.symm.trans hm) nofun, finish_error]
  | ok m =>
    refine .inl ⟨m, rfl, ?_⟩
    have hout : m.out.length ≤ 0 + bits.length := Matcher.length_out_le hpush
    have hfits : s.symq.length + m.out.length ≤ s.cfg.symDepth := by omega
    rw [State.feed_ok (s := s.latchCommand i) hpush hfits] at hx
    rw [issue_of_exec hp herr hx]
    simp [State.clearPend, State.latchCommand, State.decoding, hp]

theorem issueAll_feedCommands {tail : Nat} (hpos : 1 ≤ tail) (hle : tail ≤ 8) {payload : List Byte}
    (hphase : payload = [] ∨ s.phase = .OPEN) (hroom : s.symq.length + 8 * payload.length ≤ s.cfg.symDepth) :
    s.MessageEnds (unpackBits tail payload) (issueAll (feedCommands tail payload) s) := by
  induction payload generalizing s with
  | nil => exact messageEnds_decEnd hp herr hv
  | cons b rest ih =>
    obtain ⟨i, k, phase, hcmds, hbits, hk, hfeeds, -, hnext⟩ := feedCommands_cons hpos hle b rest
    rw [List.length_cons] at hroom
    rw [hcmds, hbits]
    rcases hfeeds.issue_cases hp herr hv (hphase.resolve_left (List.cons_ne_nil _ _))
      (by rw [length_byteBits]; omega) with ⟨m, hpush, hissue⟩ | ⟨hno, hdropped⟩
    · have hout : m.out.length ≤ 0 + (byteBits b k).length := Matcher.length_out_le hpush
      have hroom' : (s.symq ++ m.out).length + 8 * rest.length ≤ s.cfg.symDepth := by
        rw [List.length_append]
        rw [length_byteBits] at hout
        omega
      rw [issueAll_cons_of_next hissue]
      exact (ih (s := s.decoding (m.prepend s.symq) phase) hp herr hv hnext hroom').append hpush
    · refine .inr ⟨fun m hm => ?_, hdropped _ (feedCommands_opcode hpos hle rest)⟩
      obtain ⟨m1, hm1, -⟩ := Matcher.pushAll_append_ok hm
      exact absurd hm1 (hno m1)

end

/-- Settles O39: the commands succeed when the matcher reads the bits as whole codes, and those are the codes of one
sequence of entries only. -/
theorem decodedMessageIsTheParse : Obligations.DecodedMessageIsTheParse := by
  intro s payload tail hc h hv hphase hw hp herr hpos hle hroom
  have hrun := issueAll_feedCommands hp herr hv hpos hle (.inr hphase) hroom
  refine ⟨fun es hes hbits => ⟨?_, fun es' hes' hbits' => ?_⟩, fun hno => ?_⟩
  · have hpush := h.pushAll_of_reads hc hv ((h.reads_nil_iff hw).2 ⟨hes, hbits⟩)
    rcases hrun with ⟨m, hm, -, hrun⟩ | ⟨hopen, -⟩
    · obtain rfl := Except.ok.inj (hpush.symm.trans hm)
      rw [hrun, ← hw]
    · exact absurd rfl (hopen _ hpush)
  · obtain ⟨-, hpre, -⟩ := h.committed hv
    exact bitsOf_injective (h.tableLegal hc hv) hpre hes' hes (hbits'.symm.trans hbits)
  · rcases hrun with ⟨m, hm, hw', -⟩ | ⟨-, hundecodable⟩
    · obtain ⟨es, hr⟩ := h.reads_of_pushAll hc hv hm
      rw [List.length_eq_zero_iff.1 (m.length_bits.trans hw')] at hr
      exact absurd ⟨es, (h.reads_nil_iff hw).1 hr⟩ hno
    · exact hundecodable

end Sys2Proof.Machine

/-! The statements of 45_control.md: the formats of NOP and ERR_CLR, and what they do. -/

namespace Sys2Proof.Machine

/-- Settles O15: NOP has no check and no effect, and the word 0 is its encoding. -/
theorem nopChangesNothing : Obligations.NopChangesNothing :=
  ⟨hasFormatN_of_opcode (by decide) rfl, decode_encode .nop, fun _ => rfl⟩

/-- Settles O16: ERR_CLR has no check, and its three resets write fields of their own. -/
theorem errClrClearsErrorAndStreams : Obligations.ErrClrClearsErrorAndStreams :=
  ⟨hasFormatN_of_opcode (by decide) rfl, fun _ => rfl⟩

end Sys2Proof.Machine

/-! The statements of 60_exceptions.md: every command ends, the first error is kept, the checks that raise SEQUENCE and
BAD_SYMBOL, and the error types of the host procedures. -/

namespace Sys2Proof.Machine

/-- Settles O7: no arm of `exec` stops the machine, and the engine's turn leaves no command latched. -/
theorem everyCommandTerminates : Obligations.EveryCommandTerminates := by
  refine ⟨exec_next, fun s _ => ?_⟩
  obtain ⟨t, hturn, hpend⟩ := engineStep_next s
  exact ⟨t, hturn, by rw [State.busy, hpend, Option.isSome_none]⟩

/-- Settles O11: the two branches of `recordError`. -/
theorem firstErrorIsKept : Obligations.FirstErrorIsKept := fun _ e opc =>
  ⟨fun herr => State.recordError_of_quiet herr e opc, fun herr => State.recordError_of_err herr e opc⟩

/-! ### SEQUENCE (R231) -/

/-- The state check of DEC_BYTE and DEC_LAST (44_decoder.md R190, R193). -/
theorem notDecoding_iff {s : State} :
    (!s.dtValid || s.phase == .LAST) = true ↔ s.dtValid = false ∨ s.phase = .LAST := by
  simp only [Bool.or_eq_true, Bool.not_eq_true', beq_iff_eq]

theorem exec_decByte_sequence {s : State} (h : s.dtValid = false ∨ s.phase = .LAST) (b : Byte) :
    exec (.decByte b) s = .next (s.recordError .SEQUENCE 0x48#8) := by
  rw [exec, execDecByte, notDecoding_iff.2 h, failIf_true, finish_error]

theorem exec_decLast_sequence {s : State} {t : BitVec 4} (ht : tailLegal t = true)
    (h : s.dtValid = false ∨ s.phase = .LAST) (b : Byte) :
    exec (.decLast b t) s = .next (s.recordError .SEQUENCE 0x49#8) := by
  rw [exec, execDecLast, ht, Bool.not_true, failIf_false, notDecoding_iff.2 h, failIf_true, finish_error]

/-- Settles O13: each precondition is a clause of the command's own statement, but for DEC_BYTE and DEC_LAST, whose
statements ask for the decoder's invariant. -/
theorem sequencePreconditions : Obligations.SequencePreconditions := by
  intro s c n b t hc ht
  obtain ⟨-, hencSymbol, -⟩ := encSymbolAppendsTheCode.2 s c
  obtain ⟨-, hdtLoad, -⟩ := dtLoadAppendsTheEntry.2 s c
  refine ⟨fun htree => ⟨?nodeRead, ?genTable⟩, fun hct => ⟨?ctRead, ?encSymbol, ?dtFromCt⟩,
    fun hdt => ⟨?dtLoad, ?dtCommit⟩, fun hclosed => ⟨?decByte, ?decLast⟩, ?decEnd⟩
  case nodeRead => exact (nodeReadReadsTheNode.2 s n).1 htree
  case genTable => exact (genTableBindsLeavesToPaths.2 s).1 htree
  case ctRead => exact (ctReadReadsTheEntry.2 s n).1 hct
  case encSymbol => exact hencSymbol hc hct
  case dtFromCt => exact (dtFromCtCopiesTheTable.2 s).1 hct
  case dtLoad => exact hdtLoad hc hdt
  case dtCommit => exact (dtCommitValidatesTheTable.2 s).1 hdt
  case decByte => exact exec_decByte_sequence hclosed b
  case decLast => exact exec_decLast_sequence ht hclosed b
  case decEnd => exact (decEndChecksTheWindow.2 s).1

/-! ### BAD_SYMBOL (R227) -/

theorem scalar_eq_false_iff {c : Sym} :
    scalar c = false ↔ 0x10FFFF < c.toNat ∨ (0xD800 ≤ c.toNat ∧ c.toNat ≤ 0xDFFF) := by
  rw [← Bool.not_eq_true]
  simp only [scalar, scalarNat, Bool.and_eq_true, Bool.not_eq_true', decide_eq_true_eq, Bool.and_eq_false_iff,
    decide_eq_false_iff_not]
  omega

/-- Settles O14: BAD_SYMBOL is the first clause of each command's own statement. -/
theorem nonScalarSymbolIsBadSymbol : Obligations.NonScalarSymbolIsBadSymbol := by
  intro s c h
  have hc : scalar c = false := scalar_eq_false_iff.2 h
  exact ⟨(ftIncCountsOneOccurrence.2 s c).1 hc, (ftSetSetsTheCount.2 s c).1 hc, (ftReadReadsTheCount.2 s c).1 hc,
    (encSymbolAppendsTheCode.2 s c).1 hc, (dtLoadAppendsTheEntry.2 s c).1 hc⟩

/-! ### The host's error types (R236) -/

/-- Settles O59: each code is evaluated against the list of `hostErrorOf`. -/
theorem hostErrorsFollowTheCodes : Obligations.HostErrorsFollowTheCodes := by
  refine ⟨rfl, rfl, rfl, rfl, ?resourceLimit, ?hostProtocol⟩
  case resourceLimit => decide
  case hostProtocol => decide

end Sys2Proof.Machine

/-! The statements of 70_reset_and_hazards.md: the hard reset, and the soft reset by a write of CTRL. -/

namespace Sys2Proof.Machine

/-- What a reset leaves: the reset state of 10_state.md R60, but for the model's own fields. -/
theorem State.hardReset_eq_resetWith (s : State) :
    s.hardReset = { State.resetWith s.cfg with
      agenda := s.agenda, resp := s.resp, busFault := s.busFault, draws := s.draws } := rfl

theorem memWrite_ctrl (v : Word) (s : State) :
    memWrite Reg.CTRL.offset v s = if v.getLsbD 0 then s.hardReset else s := by
  rw [memWrite, Reg.at_offset_self, State.softReset_eq]

/-- A write of CTRL (10_state.md R27). -/
theorem hostWrite_ctrl (v : Word) (s : State) :
    hostWrite (s.cfg.base + 0x004) 4 v s = .next ((if v.getLsbD 0 then s.hardReset else s).answer 0#32) := by
  rw [← memWrite_ctrl]
  exact hostWrite_offset .CTRL v s

/-- Settles O50: the listed turn is `hardReset`, which gives the reset state for the same parameters. -/
theorem hardResetLeavesTheResetState : Obligations.HardResetLeavesTheResetState := by
  intro s rest h
  refine ⟨s.resp, s.draws, ?_⟩
  rw [step_of_agenda_cons h, act, State.hardReset_eq_resetWith]

/-- Settles O51: bit 0 alone decides between a reset and no effect; neither BUSY nor ERR is asked. -/
theorem ctrlWriteIsSoftReset : Obligations.CtrlWriteIsSoftReset := by
  intro s v
  rw [hostWrite_ctrl]
  refine ⟨fun hset => ⟨0#32, s.draws, ?_⟩, fun hclear => ⟨0#32, ?_⟩⟩
  · rw [if_pos hset, State.hardReset_eq_resetWith, State.answer]
  · rw [hclear, if_neg Bool.false_ne_true, State.answer]

end Sys2Proof.Machine
